-- ==== Sys2Proof/Word.lean ====
section
/-! DEFINITION. The word types of the LWCloneU2 LED/Panel block (00_scope.md R12). -/

namespace Sys2Proof

/-- A byte is 8 bits (R12). -/
abbrev Byte := BitVec 8

/-- A logical key code, the value of a mapping-table entry (R80). -/
abbrev KeyCode := BitVec 16

/-- The raw input vector of one sample tick: bit i is the level of input i, 1 = active (R71).
N_IN is at most 255 (R9), so 255 bits hold every vector and bits at or above N_IN are no wires. -/
abbrev RawIn := BitVec 255

/-- The three event lines of one unit. LED unit: (rst, cmd_valid, pwm_tick). Panel unit:
(rst, sample_tick, rep_req). The first named line is the most significant bit, as the encoding
strings of the opcode table are written. -/
abbrev Lines := BitVec 3

end Sys2Proof
end

