-- ==== Sys2Proof/Config.lean ====
section
/-! DEFINITION. The implementation parameters of 00_scope.md R9, their well-formedness R10, and the
free values of the model (opaque constants, no body). -/

namespace Sys2Proof

/-- PATTERN_FN (R9, R125, R126), the brightness of the four pattern modes, as plain data.

`standard` is the function of R125 (the default).  `table` gives every function that R126 admits: a function that
never falls is the count of the thresholds it has reached, a function that never rises is the count
of the thresholds it has not reached yet, and the rectangle is settled by which half is on.
`Machine/Operands.lean` gives both their values. -/
inductive PatternFn where
  | standard
  | table (rectangleOnHigh : Bool) (triangleUp triangleDown fall rise : List Nat)
deriving DecidableEq, Repr

/-- REPORT_ID (R9, R84): the report-category identifier byte of each of the seven categories. -/
structure ReportIds where
  keyboard  : Byte
  consumer  : Byte
  joystick1 : Byte
  joystick2 : Byte
  joystick3 : Byte
  joystick4 : Byte
  mouse     : Byte
deriving DecidableEq, Repr

/-- The default identifiers of R84. -/
def ReportIds.default : ReportIds :=
  { keyboard := 0x01#8, consumer := 0x02#8, joystick1 := 0x03#8, joystick2 := 0x04#8,
    joystick3 := 0x05#8, joystick4 := 0x06#8, mouse := 0x07#8 }

def ReportIds.toList (r : ReportIds) : List Byte :=
  [r.keyboard, r.consumer, r.joystick1, r.joystick2, r.joystick3, r.joystick4, r.mouse]

/-- The parameters of R9.  The fixed ones (KBD_KEYS = 6, CONS_BITS = 8, JOY_BUTTONS = 8,
MOUSE_BUTTONS = 3) are in the report layouts; T_PWM and T_SAMPLE are informative (R222). -/
structure Config where
  /-- N_CH, the number of LED channels -/
  nCh : Nat
  /-- N_OUT, the number of physical LED outputs -/
  nOut : Nat
  /-- OUT_MAP, physical output index to channel index -/
  outMap : List Nat
  /-- OUT_ACTIVE_HIGH, the pin polarity -/
  outActiveHigh : Bool
  /-- MAXB, PWM steps per PWM cycle and top constant mode -/
  maxB : Nat
  /-- PHASE_SCALE, the phase step per unit of pulse speed -/
  phaseScale : Nat
  /-- PATTERN_FN -/
  pattern : PatternFn
  /-- LED_MODE_RESET, the mode byte of every channel after reset -/
  ledModeReset : Byte
  /-- N_IN, the number of panel inputs -/
  nIn : Nat
  /-- D, the debounce threshold in samples -/
  debounce : Nat
  /-- MAP_NORMAL -/
  mapNormal : List KeyCode
  /-- MAP_SHIFT -/
  mapShift : List KeyCode
  /-- SHIFT_INDEX, or NONE -/
  shiftIndex : Option Nat
  /-- MF_INDEX, or NONE -/
  mfIndex : Option Nat
  /-- MF_LATENCY, the press-latency gate length in samples -/
  mfLatency : Nat
  /-- MF_COUNT, synthetic presses per burst -/
  mfCount : Nat
  /-- MF_CYCLE, burst cycle length in samples -/
  mfCycle : Nat
  /-- REPORT_ID -/
  reportId : ReportIds
deriving DecidableEq, Repr

/-- PATTERN_FN meets R126 (P1): every threshold list has at most MAXB entries.  (P2) to (P5) hold of
every `PatternFn` by its form. -/
def PatternFn.wf (maxB : Nat) : PatternFn → Bool
  | .standard => true
  | .table _ up down fall rise =>
    decide (up.length ≤ maxB) && decide (down.length ≤ maxB) &&
    decide (fall.length ≤ maxB) && decide (rise.length ≤ maxB)

/-- SHIFT_INDEX ≠ MF_INDEX whenever both are in range (R10). -/
def Config.indicesApart (c : Config) : Bool :=
  match c.shiftIndex, c.mfIndex with
  | some i, some j => !(decide (i < c.nIn) && decide (j < c.nIn) && i == j)
  | _, _ => true

/-- An index parameter is NONE or 0..255 (R9). -/
def indexInRange : Option Nat → Bool
  | none => true
  | some i => decide (i ≤ 255)

/-- The LED unit's half of R10, with the ranges of R9. -/
def Config.ledWf (c : Config) : Bool :=
  decide (1 ≤ c.nCh) && decide (c.nCh ≤ 32) && decide (1 ≤ c.nOut) && decide (c.nOut ≤ 32) &&
  decide (c.outMap.length = c.nOut) && c.outMap.all (fun m => decide (m ≤ 255)) &&
  decide (1 ≤ c.maxB) && decide (c.maxB ≤ 128) && decide (c.phaseScale ≤ 65535) &&
  c.pattern.wf c.maxB

/-- The Panel unit's half of R10, with the ranges of R9. -/
def Config.panelWf (c : Config) : Bool :=
  decide (1 ≤ c.nIn) && decide (c.nIn ≤ 255) && decide (1 ≤ c.debounce) &&
  decide (c.debounce ≤ 127) && decide (c.mapNormal.length = c.nIn) &&
  decide (c.mapShift.length = c.nIn) && indexInRange c.shiftIndex && indexInRange c.mfIndex &&
  decide (1 ≤ c.mfLatency) && decide (c.mfLatency ≤ 255) && decide (1 ≤ c.mfCount) &&
  decide (c.mfCount ≤ 255) && decide (2 ≤ c.mfCycle) && decide (c.mfCycle ≤ 255) &&
  decide (c.mfCount * c.mfCycle ≤ 65535) && c.indicesApart && decide c.reportId.toList.Nodup

/-- A configuration is well-formed (R10).  A table has one entry per index of its domain (R9). -/
def Config.wf (c : Config) : Bool := c.ledWf && c.panelWf

/-- The configuration that `State.reset` starts from: the values the test vectors take where R9 gives
them (95_test_vectors.md, "Default parameters"), and for N_IN and the tables, which the spec leaves
OPEN, those of program P3.  DESIGN CHOICE (log entry 2); unsafe for a claim about `State.reset`
alone, so a claim about reset is made of `State.resetWith c` for every c. -/
def Config.vectors : Config :=
  { nCh := 32, nOut := 32, outMap := List.range 32, outActiveHigh := true, maxB := 49,
    phaseScale := 128, pattern := .standard, ledModeReset := 0#8,
    nIn := 2, debounce := 3, mapNormal := [0x4002#16, 0x4004#16], mapShift := [0#16, 0#16],
    shiftIndex := none, mfIndex := none, mfLatency := 2, mfCount := 3, mfCycle := 4,
    reportId := ReportIds.default }

/-! ### Free values

Opaque constants without a body: nothing can evaluate them or prove a value of them.  The first
argument is the count of the unit's operations, so each operation draws anew. -/

/-- Bytes len..7 of the report buffer "have any value" (R83, R42): the byte k drawn at operation n. -/
opaque Config.staleByte : Nat → Nat → Byte

/-- rep_len when rep_valid = 0 has no meaning (R71): the value drawn at operation n. -/
opaque Config.staleLen : Nat → BitVec 4

/-- Whether the LED unit's diagnostic events are emitted, and in which order (R192): the positions,
in the list of conditions met, of the events emitted at operation n. -/
opaque Config.ledDiagChoice : Nat → List Nat

/-- The same for the Panel unit (R192). -/
opaque Config.panDiagChoice : Nat → List Nat

/-- Whether the k-th write that a half-applied command still owes, of those that leave bank_ptr and the
enables at their reset values, survives a RESET of the LED unit that falls between its writes, at
operation n.  R210 and R55 leave it open (log entry 8). -/
opaque Config.resetKeepsWrite : Nat → Nat → Bool

end Sys2Proof
end

