-- ==== Sys2Proof/Syntax.lean ====
section
/-! DEFINITION. The operations of the block (30_encoding.md R72), one constructor per row of the
opcode table, the wire-level events that select them, and the pseudo-operations of R91. -/

namespace Sys2Proof

/-- One operation with its operands.  SBA and PBA carry the eight command bytes after decoding
(R74, R75), the ignored bytes of SBA among them; SAMPLE_TICK carries its raw vector (R158). -/
inductive Instr where
  /-- SBA: enable bytes 1..4, speed byte 5, ignored bytes 6 and 7 (R74). -/
  | sba (en0 en1 en2 en3 spd x6 x7 : Byte)
  /-- PBA: the eight mode bytes of one bank (R75). -/
  | pba (m0 m1 m2 m3 m4 m5 m6 m7 : Byte)
  /-- PWM_TICK (R127). -/
  | pwmTick
  /-- RESET of the LED unit (R210). -/
  | resetLed
  /-- SAMPLE_TICK with its operand raw_in (R158). -/
  | sampleTick (raw : RawIn)
  /-- GET_REPORT (R170). -/
  | getReport
  /-- RESET of the Panel unit (R210). -/
  | resetPan
deriving DecidableEq, Repr

/-- What a unit's ports present at one moment: the event lines with the operand sampled with them
(R70, R71).  A command is an ordered sequence of bytes (R52); the list may have any length, so that a
delivery of the wrong length can be refused by name (R54). -/
inductive BusEvent where
  | led (lines : Lines) (cmd : List Byte)
  | panel (lines : Lines) (raw : RawIn)
deriving DecidableEq, Repr

/-- The pseudo-operations of R91. -/
inductive Pseudo where
  /-- `TICK n` -/
  | tickN (n : Nat)
  /-- `CYCLE` -/
  | cycle
  /-- `SAMPLE r, n` -/
  | sampleN (raw : RawIn) (n : Nat)
  /-- `SBA.MASK w, spd` -/
  | sbaMask (w : BitVec 32) (spd : Byte)
  /-- `LOADALL w, spd, m0..m31` -/
  | loadAll (w : BitVec 32) (spd : Byte) (modes : List Byte)
deriving DecidableEq, Repr

end Sys2Proof
end

