-- ==== Sys2Proof/WellFormed.lean ====
section
/-! DEFINITION. Which terms of `Instr` and `Pseudo` are operations of the block. -/

namespace Sys2Proof

/-- A PBA never opens with the marker byte: a command whose first byte is 0x40 is an SBA (R75, R78). -/
def Instr.wellFormed : Instr → Bool
  | .sba _ _ _ _ _ _ _ => true
  | .pba m0 _ _ _ _ _ _ _ => m0 != 0x40#8
  | .pwmTick => true
  | .resetLed => true
  | .sampleTick _ => true
  | .getReport => true
  | .resetPan => true

/-- The operand fits the configured ports: raw_in is N_IN bits wide (R71), so a raw vector has no bit
at or above N_IN.  (The meaning of SAMPLE_TICK reads bits below N_IN only.) -/
def Instr.fits (c : Config) : Instr → Bool
  | .sampleTick raw => decide (raw.toNat < 2 ^ c.nIn)
  | .sba _ _ _ _ _ _ _ => true
  | .pba _ _ _ _ _ _ _ _ => true
  | .pwmTick => true
  | .resetLed => true
  | .getReport => true
  | .resetPan => true

/-- `LOADALL` names 32 mode bytes, and none of those that open a PBA is 64 (R91). -/
def Pseudo.wellFormed : Pseudo → Bool
  | .loadAll _ _ ms =>
    decide (ms.length = 32) && ms.getD 0 0 != 0x40#8 && ms.getD 8 0 != 0x40#8 &&
    ms.getD 16 0 != 0x40#8 && ms.getD 24 0 != 0x40#8
  | .tickN _ => true
  | .cycle => true
  | .sampleN _ _ => true
  | .sbaMask _ _ => true

end Sys2Proof
end

