-- ==== Sys2Proof/Decode.lean ====
section
/-! DEFINITION. Decoding (30_encoding.md R72, R73), the encoder, the byte lanes of cmd_data (R52),
the pseudo-operations' expansions and the textual form (R90, R91). -/

namespace Sys2Proof

/-- Why the wires carry no single operation. -/
inductive DecodeReject where
  /-- no line is raised: nothing happens (R194) -/
  | idle
  /-- more than one line is raised: the events are applied one after the other (R195) -/
  | simultaneous
  /-- a command of a length other than 8 (R54) -/
  | wrongLength
deriving DecidableEq, Repr

/-- R73: SBA if Cmd(0) = 0x40, else PBA.  Only eight bytes are a command (R54). -/
def decodeCommand : List Byte → Except DecodeReject Instr
  | [b0, b1, b2, b3, b4, b5, b6, b7] =>
    if b0 = 0x40#8 then .ok (.sba b1 b2 b3 b4 b5 b6 b7)
    else .ok (.pba b0 b1 b2 b3 b4 b5 b6 b7)
  | _ => .error .wrongLength

/-- The lines of a unit that are raised, one vector with a single raised line for each, the most
significant first. -/
def raisedLines (l : Lines) : List Lines := [0b100#3, 0b010#3, 0b001#3].filter fun m => l &&& m != 0

/-- The LED unit's lines (rst, cmd_valid, pwm_tick): R72. -/
def decodeLed (lines : Lines) (cmd : List Byte) : Except DecodeReject Instr :=
  if lines = 0b001#3 then .ok .pwmTick
  else if lines = 0b010#3 then decodeCommand cmd
  else if lines = 0b100#3 then .ok .resetLed
  else if lines = 0b000#3 then .error .idle
  else .error .simultaneous

/-- The Panel unit's lines (rst, sample_tick, rep_req): R72. -/
def decodePanel (lines : Lines) (raw : RawIn) : Except DecodeReject Instr :=
  if lines = 0b001#3 then .ok .getReport
  else if lines = 0b010#3 then .ok (.sampleTick raw)
  else if lines = 0b100#3 then .ok .resetPan
  else if lines = 0b000#3 then .error .idle
  else .error .simultaneous

/-- The operation the wires select (R72). -/
def decode : BusEvent → Except DecodeReject Instr
  | .led lines cmd => decodeLed lines cmd
  | .panel lines raw => decodePanel lines raw

/-- The wires that select an operation: the inverse of `decode` on well-formed operations, from the
layouts of R74 and R75 and the strobe encodings of the opcode table. -/
def encode : Instr → BusEvent
  | .sba e0 e1 e2 e3 spd x6 x7 => .led 0b010#3 [0x40#8, e0, e1, e2, e3, spd, x6, x7]
  | .pba m0 m1 m2 m3 m4 m5 m6 m7 => .led 0b010#3 [m0, m1, m2, m3, m4, m5, m6, m7]
  | .pwmTick => .led 0b001#3 []
  | .resetLed => .led 0b100#3 []
  | .sampleTick raw => .panel 0b010#3 raw
  | .getReport => .panel 0b001#3 0
  | .resetPan => .panel 0b100#3 0

/-- Cmd(k) = cmd_data[8k+7:8k] (R52, R70): the command bytes on the 64-bit bus. -/
def bytesOfBus (w : BitVec 64) : List Byte :=
  (List.range 8).map fun k => w.extractLsb' (8 * k) 8

/-- The 64-bit bus word that carries these bytes: byte k in bits [8k+7:8k] (R52). -/
def busOfBytes (bs : List Byte) : BitVec 64 :=
  BitVec.ofNat 64 (bs.foldr (fun b acc => b.toNat + 256 * acc) 0)

/-- The strobe byte of the opcode table's three-character encodings, as this model numbers it: bits
2..0 are the lines, bit 3 says the Panel unit.  The table's own strings do not name the unit; 010 is
a row of the Panel unit only (log entry 13). -/
def strobeEvent (w : Nat) : Option BusEvent :=
  match w % 256 with
  | 1 => some (.led 0b001#3 [])
  | 4 => some (.led 0b100#3 [])
  | 2 => some (.panel 0b010#3 (BitVec.ofNat 255 (w / 256)))
  | 10 => some (.panel 0b010#3 (BitVec.ofNat 255 (w / 256)))
  | 9 => some (.panel 0b001#3 0)
  | 12 => some (.panel 0b100#3 0)
  | _ => none

/-- The wires for an opcode-table word of `nbits` bits: a row of at least 64 bits is cmd_data with
cmd_valid raised; a shorter one is a strobe byte, or the low bytes of cmd_data with zeros above. -/
def tableEvent (nbits w : Nat) : BusEvent :=
  let command := BusEvent.led 0b010#3 (bytesOfBus (BitVec.ofNat 64 (w % 2 ^ nbits)))
  if nbits < 64 then (strobeEvent (w % 2 ^ nbits)).getD command else command

/-- The instruction the decoder reads from a word numbered as the opcode table numbers it. -/
def decodeTableWord (nbits w : Nat) : Option Instr :=
  match decode (tableEvent nbits w) with
  | .ok i => some i
  | .error _ => none

/-- `SBA.MASK w, spd` (R91). -/
def sbaOfMask (w : BitVec 32) (spd : Byte) : Instr :=
  .sba (w.extractLsb' 0 8) (w.extractLsb' 8 8) (w.extractLsb' 16 8) (w.extractLsb' 24 8) spd 0 0

/-- The PBA with the eight mode bytes that stand from place `at_` on. -/
def pbaOfModes (ms : List Byte) (at_ : Nat) : Instr :=
  .pba (ms.getD at_ 0) (ms.getD (at_ + 1) 0) (ms.getD (at_ + 2) 0) (ms.getD (at_ + 3) 0)
    (ms.getD (at_ + 4) 0) (ms.getD (at_ + 5) 0) (ms.getD (at_ + 6) 0) (ms.getD (at_ + 7) 0)

/-- The expansions of R91; `none` where the notation refuses the pseudo-operation. -/
def expand (c : Config) (p : Pseudo) : Option (List Instr) :=
  if p.wellFormed then
    match p with
    | .tickN n => some (List.replicate n .pwmTick)
    | .cycle => some (List.replicate c.maxB .pwmTick)
    | .sampleN raw n => some (List.replicate n (.sampleTick raw))
    | .sbaMask w spd => some [sbaOfMask w spd]
    | .loadAll w spd ms =>
      some [sbaOfMask w spd, pbaOfModes ms 0, pbaOfModes ms 8, pbaOfModes ms 16, pbaOfModes ms 24]
  else none

/-- Decimal bytes separated by commas (R90). -/
def asmBytes (bs : List Byte) : String := String.intercalate ", " (bs.map fun b => toString b.toNat)

/-- The textual form of an operation (R90). -/
def asmText : Instr → String
  | .sba e0 e1 e2 e3 spd x6 x7 =>
    "SBA " ++ asmBytes ([e0, e1, e2, e3, spd] ++ if x6 = 0 ∧ x7 = 0 then [] else [x6, x7])
  | .pba m0 m1 m2 m3 m4 m5 m6 m7 => "PBA " ++ asmBytes [m0, m1, m2, m3, m4, m5, m6, m7]
  | .pwmTick => "TICK"
  | .sampleTick raw => "SAMPLE 0x" ++ String.ofList (Nat.toDigits 16 raw.toNat)
  | .getReport => "GETREP"
  | .resetLed => "RESET.LED"
  | .resetPan => "RESET.PAN"

end Sys2Proof
end

