-- ==== Sys2Proof/Machine/Units.lean ====
section
/-! DEFINITION. The data types of the two units' state (10_state.md R20, R30), of the command in
progress (R55), of reports and diagnostics, and the units' reset values (R211, R212). -/

namespace Sys2Proof.Machine

/-! ### LED unit -/

/-- S_led (R20), field for field. -/
structure Led where
  /-- enabled[ch] (R21) -/
  enabled : List Bool
  /-- mode[ch] (R22) -/
  mode : List Byte
  /-- pulse_speed, u3 (R23) -/
  pulseSpeed : BitVec 3
  /-- bank_ptr, u2 (R24) -/
  bankPtr : BitVec 2
  /-- pwm_counter, u8 (R25) -/
  pwmCounter : BitVec 8
  /-- phase, u16 (R26) -/
  phase : BitVec 16
  /-- ch_out[ch] (R27) -/
  chOut : List Bool
deriving DecidableEq, Repr

/-- One atomic field write of a command (R55). -/
inductive FieldWrite where
  /-- W_EN: all N_CH enable bits at once -/
  | enables (en : List Bool)
  /-- W_SPD -/
  | speed (v : BitVec 3)
  /-- W_MODE[k], one mode byte -/
  | mode (ch : Nat) (v : Byte)
  /-- W_BANK -/
  | bank (v : BitVec 2)
deriving DecidableEq, Repr

/-- The LED unit's reset values (R211). -/
def Led.resetValues (c : Config) : Led :=
  { enabled := List.replicate c.nCh false
    mode := List.replicate c.nCh c.ledModeReset
    pulseSpeed := 1#3
    bankPtr := 0#2
    pwmCounter := BitVec.ofNat 8 (c.maxB - 1)
    phase := 0#16
    chOut := List.replicate c.nCh false }

/-! ### Panel unit -/

/-- The seven report categories (R33). -/
inductive Category where
  | keyboard | consumer | joystick1 | joystick2 | joystick3 | joystick4 | mouse
deriving DecidableEq, Repr

/-- The category of joystick index j, that is of Joystick j+1 (R34). -/
def Category.joystick (j : BitVec 2) : Category :=
  if j = 0#2 then .joystick1 else if j = 1#2 then .joystick2
  else if j = 2#2 then .joystick3 else .joystick4

/-- All categories, in the numbering of R33. -/
def Category.all : List Category :=
  [.keyboard, .consumer, .joystick1, .joystick2, .joystick3, .joystick4, .mouse]

/-- dirty[c], one bit per category (R33). -/
structure Dirty where
  keyboard  : Bool
  consumer  : Bool
  joystick1 : Bool
  joystick2 : Bool
  joystick3 : Bool
  joystick4 : Bool
  mouse     : Bool
deriving DecidableEq, Repr

/-- The mouse axes (R38). -/
inductive Axis where
  | x | y
deriving DecidableEq, Repr

/-- A value for each mouse axis. -/
structure PerAxis (α : Type) where
  x : α
  y : α
deriving DecidableEq, Repr

/-- S_pan (R30), field for field. -/
structure Panel where
  /-- level[i] (R31) -/
  level : List Bool
  /-- cnt[i], u7 (R32) -/
  cnt : List (BitVec 7)
  /-- dirty[c] (R33) -/
  dirty : Dirty
  /-- last_joy, u2 (R34) -/
  lastJoy : BitVec 2
  /-- mf_gate, u8 (R35) -/
  mfGate : BitVec 8
  /-- mf_burst, u16 (R36) -/
  mfBurst : BitVec 16
  /-- mf_s (R37) -/
  mfS : Bool
  /-- qprev[a], u2, phase A in bit 1 and phase B in bit 0 (R38, R155) -/
  qprev : PerAxis (BitVec 2)
  /-- delta[a], s8 (R39) -/
  delta : PerAxis (BitVec 8)
deriving DecidableEq, Repr

/-- No category is dirty. -/
def Dirty.clean : Dirty :=
  { keyboard := false, consumer := false, joystick1 := false, joystick2 := false,
    joystick3 := false, joystick4 := false, mouse := false }

/-- The Panel unit's reset values (R212). -/
def Panel.resetValues (c : Config) : Panel :=
  { level := List.replicate c.nIn false
    cnt := List.replicate c.nIn 0#7
    dirty := Dirty.clean
    lastJoy := 3#2
    mfGate := 0#8
    mfBurst := 0#16
    mfS := false
    qprev := { x := 0b00#2, y := 0b00#2 }
    delta := { x := 0#8, y := 0#8 } }

/-! ### Answers and diagnostics -/

/-- The result of GET_REPORT (R170): NoReport, or a report's first len bytes (R42, R83). -/
inductive Answer where
  | noReport
  | report (bytes : List Byte)
deriving DecidableEq, Repr

/-- The error conditions of R191. -/
inductive DiagCode where
  | ledSpeedClamped | ledChannelIgnored | ledOutMapRange | ledModeOffValue
  | panKeysTruncated | panShiftIndexRange | panMfIndexRange | panKeycodeReserved
  | panDeltaSaturated
deriving DecidableEq, Repr

/-- The codes of R191. -/
def DiagCode.code : DiagCode → Byte
  | .ledSpeedClamped => 0x01#8
  | .ledChannelIgnored => 0x02#8
  | .ledOutMapRange => 0x03#8
  | .ledModeOffValue => 0x04#8
  | .panKeysTruncated => 0x10#8
  | .panShiftIndexRange => 0x11#8
  | .panMfIndexRange => 0x12#8
  | .panKeycodeReserved => 0x13#8
  | .panDeltaSaturated => 0x14#8

end Sys2Proof.Machine
end

