-- ==== Sys2Proof/Machine/Flags.lean ====
section
/-! DEFINITION. The only flags of the block, the seven dirty bits (R33, R41): reading, marking and
clearing one, and their OR (R183).  The LED unit has no flags (R28) and no saturation or overflow
sets one (R41). -/

namespace Sys2Proof.Machine

/-- dirty[c] (R33). -/
def Dirty.get (d : Dirty) : Category → Bool
  | .keyboard => d.keyboard
  | .consumer => d.consumer
  | .joystick1 => d.joystick1
  | .joystick2 => d.joystick2
  | .joystick3 => d.joystick3
  | .joystick4 => d.joystick4
  | .mouse => d.mouse

/-- dirty[c] <- v. -/
def Dirty.set (d : Dirty) (c : Category) (v : Bool) : Dirty :=
  match c with
  | .keyboard => { d with keyboard := v }
  | .consumer => { d with consumer := v }
  | .joystick1 => { d with joystick1 := v }
  | .joystick2 => { d with joystick2 := v }
  | .joystick3 => { d with joystick3 := v }
  | .joystick4 => { d with joystick4 := v }
  | .mouse => { d with mouse := v }

/-- The OR of the dirty bits, report_pending (R40, R183). -/
def Dirty.any (d : Dirty) : Bool := Category.all.any d.get

/-- `mark(c)`: sets dirty[c] unless c is none (R145). -/
def Panel.mark (p : Panel) : Option Category → Panel
  | none => p
  | some c => { p with dirty := p.dirty.set c true }

/-- Clears dirty[c], as GET_REPORT does for the category it emits (R170). -/
def Panel.clearDirty (p : Panel) (c : Category) : Panel := { p with dirty := p.dirty.set c false }

end Sys2Proof.Machine
end

