-- ==== Sys2Proof/Machine/Operands.lean ====
section
/-! DEFINITION. Operand forms: command operands (R76), the brightness lookup (R121, R125), logical key
codes (R80, R81), the valid shift and multifire inputs (R143, R150). -/

namespace Sys2Proof.Machine

/-! ### Command operands -/

/-- clamp(v, lo, hi) (R12). -/
def clampNat (v lo hi : Nat) : Nat := if v < lo then lo else if hi < v then hi else v

/-- spd = clamp(zext_8(Cmd(5)), 1, 7), a u3 (R76, R102). -/
def speedOf (spd : Byte) : BitVec 3 := BitVec.ofNat 3 (clampNat spd.toNat 1 7)

/-- en(ch) = Cmd(1 + (ch >> 3))[ch & 7], from the enable bytes Cmd(1..4) (R76). -/
def enableBit (enBytes : List Byte) (ch : Nat) : Bool :=
  (enBytes.getD (ch / 8) 0#8).getLsbD (ch % 8)

/-- An SBA byte aimed at a channel that does not exist is set (R101). -/
def enableBeyond (c : Config) (enBytes : List Byte) : Bool :=
  (List.range 32).any fun ch => decide (c.nCh ≤ ch) && enableBit enBytes ch

/-! ### Brightness -/

/-- The named animation patterns (R123). -/
inductive Pattern where
  | triangle | rectangle | fall | rise
deriving DecidableEq, Repr

/-- The class of a mode byte (R77). -/
inductive ModeClass where
  | constant (b : Nat)
  | pattern (p : Pattern)
  | off
deriving DecidableEq, Repr

/-- The mode byte encoding (R77, R121). -/
def classify (maxB : Nat) (mode : Byte) : ModeClass :=
  if mode.toNat ≤ maxB then .constant mode.toNat
  else if mode = 129#8 then .pattern .triangle
  else if mode = 130#8 then .pattern .rectangle
  else if mode = 131#8 then .pattern .fall
  else if mode = 132#8 then .pattern .rise
  else .off

/-- The default PATTERN_FN (R125); every intermediate value is an unbounded integer. -/
def standardPattern (maxB : Nat) (p : Pattern) (ph : BitVec 16) : Nat :=
  let h := (ph.extractLsb' 8 8).toNat
  let low := ph.extractLsb' 7 8
  let t := if ph.getLsbD 15 then (~~~low).toNat else low.toNat
  match p with
  | .triangle => (t * (maxB + 1)) >>> 8
  | .rectangle => if ph.getLsbD 15 then 0 else maxB
  | .fall => ((255 - h) * (maxB + 1)) >>> 8
  | .rise => (h * (maxB + 1)) >>> 8

/-- PATTERN_FN(mode, phase) of a configuration (R9, R126). -/
def patternValue (f : PatternFn) (maxB : Nat) (p : Pattern) (ph : BitVec 16) : Nat :=
  match f with
  | .standard => standardPattern maxB p ph
  | .table onHigh up down fall rise =>
    match p with
    | .triangle =>
      if ph.getLsbD 15 then down.countP (fun t => decide (ph.toNat < t))
      else up.countP (fun t => decide (t ≤ ph.toNat))
    | .rectangle => if ph.getLsbD 15 = onHigh then maxB else 0
    | .fall => fall.countP (fun t => decide (ph.toNat < t))
    | .rise => rise.countP (fun t => decide (t ≤ ph.toNat))

/-- BRIGHT(mode, phase) (R121). -/
def bright (c : Config) (mode : Byte) (ph : BitVec 16) : Nat :=
  match classify c.maxB mode with
  | .constant b => b
  | .pattern p => patternValue c.pattern c.maxB p ph
  | .off => 0

/-! ### Logical key codes -/

/-- Joystick directions (R80). -/
inductive Dir where
  | up | down | left | right
deriving DecidableEq, Repr

/-- The phases of a quadrature input (R80, R155). -/
inductive QuadPhase where
  | a | b
deriving DecidableEq, Repr

/-- A logical function: a key code with its ignored bits cleared, in the words of R80.  NONE is
`Option.none` in `func`. -/
inductive Function where
  /-- KEY, HID usage u ≠ 0 -/
  | key (u : Byte)
  /-- MOD, keyboard modifier bit m -/
  | modifier (m : BitVec 3)
  /-- CONS, consumer-control bit k -/
  | consumer (k : BitVec 3)
  /-- JOY, a direction of Joystick n+1 -/
  | joyDir (n : BitVec 2) (d : Dir)
  /-- JOY, Button k+1 of Joystick n+1 -/
  | joyButton (n : BitVec 2) (k : BitVec 3)
  /-- MOUSE, a quadrature phase of an axis -/
  | phase (a : Axis) (p : QuadPhase)
  /-- MOUSE, Button k+1, k = 0..2 -/
  | mouseButton (k : BitVec 2)
deriving DecidableEq, Repr

/-- The class field of a key code, bits 15:12 (R80). -/
def codeClass (code : KeyCode) : BitVec 4 := code.extractLsb' 12 4

/-- JOY payload f in bits 3:0 (R80); f = 12..15 is NONE. -/
def joyFunction (n : BitVec 2) (f : BitVec 4) : Option Function :=
  match f.toNat with
  | 0 => some (.joyDir n .up)
  | 1 => some (.joyDir n .down)
  | 2 => some (.joyDir n .left)
  | 3 => some (.joyDir n .right)
  | k + 4 => if k < 8 then some (.joyButton n (BitVec.ofNat 3 k)) else none

/-- MOUSE payload f in bits 3:0 (R80); f = 7..15 is NONE. -/
def mouseFunction (f : BitVec 4) : Option Function :=
  match f.toNat with
  | 0 => some (.phase .x .a)
  | 1 => some (.phase .x .b)
  | 2 => some (.phase .y .a)
  | 3 => some (.phase .y .b)
  | k + 4 => if k < 3 then some (.mouseButton (BitVec.ofNat 2 k)) else none

/-- func(code) (R81); `none` is NONE, for a reserved class too (R82). -/
def func (code : KeyCode) : Option Function :=
  match (codeClass code).toNat with
  | 1 => if code.extractLsb' 0 8 = 0#8 then none else some (.key (code.extractLsb' 0 8))
  | 2 => some (.modifier (code.extractLsb' 0 3))
  | 3 => some (.consumer (code.extractLsb' 0 3))
  | 4 => joyFunction (code.extractLsb' 8 2) (code.extractLsb' 0 4)
  | 5 => mouseFunction (code.extractLsb' 0 4)
  | _ => none

/-- The category of a function (R81). -/
def Function.category : Function → Category
  | .key _ => .keyboard
  | .modifier _ => .keyboard
  | .consumer _ => .consumer
  | .joyDir n _ => Category.joystick n
  | .joyButton n _ => Category.joystick n
  | .phase _ _ => .mouse
  | .mouseButton _ => .mouse

/-- category(code) (R81). -/
def category (code : KeyCode) : Option Category := (func code).map Function.category

/-- A key code of a reserved class, 0x6..0xF (R80, R191 code 0x13). -/
def reservedClass (code : KeyCode) : Bool := decide (6 ≤ (codeClass code).toNat)

/-! ### Valid indices and table entries -/

/-- An index parameter that names an input; `none` when it is NONE or at or above N_IN. -/
def validIndex (c : Config) : Option Nat → Option Nat
  | none => none
  | some i => if i < c.nIn then some i else none

/-- The shift input when SH_VALID holds (R143). -/
def shiftAt (c : Config) : Option Nat := validIndex c c.shiftIndex

/-- The multifire input when MF_VALID holds (R150). -/
def multifireAt (c : Config) : Option Nat := validIndex c c.mfIndex

/-- The generic inputs G, ascending (R141). -/
def genericInputs (c : Config) : List Nat :=
  (List.range c.nIn).filter fun i => decide (multifireAt c ≠ some i)

/-- Entry i of a mapping table (R80). -/
def codeAt (table : List KeyCode) (i : Nat) : KeyCode := table.getD i 0#16

end Sys2Proof.Machine
end

