-- ==== Sys2Proof/Machine/State.lean ====
section
/-! DEFINITION. The machine's state as plain data, its state right after reset, and why a step can
stop. -/

namespace Sys2Proof.Machine

/-- What the environment and the scheduler present next (R15, R16, R214).  The block runs no program:
its inputs are the events of its ports, in the order in which they happen. -/
inductive Input where
  /-- A unit's ports present `e`.  `plan` says where the command agent is preempted while it applies a
  command this event delivers: `none` when it is not, `some ks` when it performs outstanding writes
  `ks` first and is then preempted (R55).  `tie` picks the order of events presented at the same
  time (R195). -/
  | bus (e : BusEvent) (plan : Option (List Nat)) (tie : Nat)
  /-- The preempted command agent performs its k-th outstanding write (R55). -/
  | finish (k : Nat)
  /-- The configuration is loaded (R59, R214 step 1). -/
  | load (c : Config)
deriving DecidableEq, Repr

/-- The state of the whole block. -/
structure State where
  /-- The implementation parameters (R9).  No operation writes them (R59). -/
  cfg : Config
  /-- The LED unit has had its first RESET (R213). -/
  ledStarted : Bool
  /-- The Panel unit has had its first RESET (R213). -/
  panStarted : Bool
  /-- S_led (R20) -/
  led : Led
  /-- S_pan (R30) -/
  pan : Panel
  /-- The writes that the command in progress still owes (R55); cmd_busy = 1 while there are any (R70). -/
  pending : List FieldWrite
  /-- The scheduler's choice for the event being processed (`Input.bus`); the model's own field. -/
  plan : Option (List Nat)
  /-- The answer to the last rep_req (R71): rep_valid, rep_len and the report's bytes. -/
  answer : Answer
  /-- The conditions of R191 that the LED unit's last operation met; a command counts at its delivery
  (DESIGN CHOICE, log entry 11). -/
  ledDiag : List DiagCode
  /-- The conditions of R191 that the Panel unit's last operation met. -/
  panDiag : List DiagCode
  /-- How many operations the LED unit has performed: the index of its next free value; the model's
  own field. -/
  ledOps : Nat
  /-- The same for the Panel unit; the model's own field. -/
  panOps : Nat
  /-- What the environment presents from here on, the next first. -/
  inputs : List Input
deriving DecidableEq, Repr

/-- Why the machine stops with a fault: never.  The block raises no exception, trap or fault and
every error has a fallback (R190), so no constructor exists.  Safe: nothing is left out. -/
inductive Fault where
deriving DecidableEq, Repr

/-- Why a presentation has no meaning in the model. -/
inductive Refusal where
  /-- An instruction without a meaning, rejected by name in `exec`.  No arm of this model raises it. -/
  | notModelled (mnemonic : String)
  /-- Every operation, and the loading of a configuration, under a configuration that breaks R10.
  Safe: the spec asks the model to refuse it (R10, R190). -/
  | illFormedConfig
  /-- An operation of a unit before that unit's first RESET.  Safe: "an operation before RESET has no
  meaning" (R45, R213). -/
  | beforeFirstReset
  /-- A command delivered while cmd_busy = 1.  Safe: a broken host duty (R58 (b)), refused by
  93_implementation_defined.md. -/
  | commandWhileBusy
  /-- A delivery whose length is not 8 bytes.  Safe: not a step of the model (R54). -/
  | wrongCommandLength
  /-- The term PBA with first byte 0x40, which is no operation of the block and which no event decodes
  to (R75, R78).  Safe: raised for a term only. -/
  | pbaMarkerByte
  /-- A configuration presented after a unit's first RESET.  Safe: "A model refuses a change of
  configuration during a run" (R59). -/
  | configChange
deriving DecidableEq, Repr

/-- Both units right after their RESET under configuration c (R211, R212), with nothing presented.
The model's own fields start empty (log entry 4). -/
def State.resetWith (c : Config) : State :=
  { cfg := c
    ledStarted := true
    panStarted := true
    led := Led.resetValues c
    pan := Panel.resetValues c
    pending := []
    plan := none
    answer := .noReport
    ledDiag := []
    panDiag := []
    ledOps := 0
    panOps := 0
    inputs := [] }

/-- The block before any RESET (R213, R214): the units have not started, so no operation reads what
stands in their fields. -/
def State.powerOn (c : Config) (inputs : List Input) : State :=
  { State.resetWith c with ledStarted := false, panStarted := false, inputs := inputs }

/-- The machine right after reset, under the configuration of the test vectors (log entry 2). -/
def State.reset : State := State.resetWith Config.vectors

end Sys2Proof.Machine
end

