-- ==== Sys2Proof/Machine/Ops.lean ====
section
/-! DEFINITION. The named operations over the state that the meanings share.

The block has no addressable memory (R51) and no exception, trap or return from one (R190, R196), so
there is no memory operation and no exception entry here.  State arrays are reached by index (R50):
reading past an array's end is never done by an operation under a well-formed configuration, and a
write past it writes nothing (R29). -/

namespace Sys2Proof.Machine

/-! ### Reading arrays -/

/-- enabled[ch]. -/
def Led.enabledAt (l : Led) (ch : Nat) : Bool := l.enabled.getD ch false

/-- mode[ch]. -/
def Led.modeAt (l : Led) (ch : Nat) : Byte := l.mode.getD ch 0#8

/-- ch_out[ch]. -/
def Led.outAt (l : Led) (ch : Nat) : Bool := l.chOut.getD ch false

/-- level[i]. -/
def Panel.levelAt (p : Panel) (i : Nat) : Bool := p.level.getD i false

/-- cnt[i]. -/
def Panel.cntAt (p : Panel) (i : Nat) : BitVec 7 := p.cnt.getD i 0#7

/-- The element of an axis pair. -/
def PerAxis.get {α : Type} (v : PerAxis α) : Axis → α
  | .x => v.x
  | .y => v.y

/-- Writes the element of an axis pair. -/
def PerAxis.set {α : Type} (v : PerAxis α) (a : Axis) (e : α) : PerAxis α :=
  match a with
  | .x => { v with x := e }
  | .y => { v with y := e }

/-- level[i] <- v. -/
def Panel.setLevel (p : Panel) (i : Nat) (v : Bool) : Panel := { p with level := p.level.set i v }

/-- cnt[i] <- v. -/
def Panel.setCnt (p : Panel) (i : Nat) (v : BitVec 7) : Panel := { p with cnt := p.cnt.set i v }

/-! ### Guards -/

/-- An operation of the LED unit runs under a well-formed configuration (R10) after the unit's first
RESET (R213). -/
def whenLed (s : State) (run : Host.Outcome State Fault Refusal) : Host.Outcome State Fault Refusal :=
  if s.cfg.wf = false then .refused .illFormedConfig
  else if s.ledStarted = false then .refused .beforeFirstReset
  else run

/-- The same for the Panel unit. -/
def whenPanel (s : State) (run : Host.Outcome State Fault Refusal) : Host.Outcome State Fault Refusal :=
  if s.cfg.wf = false then .refused .illFormedConfig
  else if s.panStarted = false then .refused .beforeFirstReset
  else run

/-- RESET needs a well-formed configuration only (R10, R214). -/
def whenConfigured (s : State) (run : Host.Outcome State Fault Refusal) :
    Host.Outcome State Fault Refusal :=
  if s.cfg.wf = false then .refused .illFormedConfig else run

/-- A command is delivered only while cmd_busy = 0 (R58 (b), R70). -/
def whenIdle (s : State) (run : Host.Outcome State Fault Refusal) : Host.Outcome State Fault Refusal :=
  if s.pending = [] then run else .refused .commandWhileBusy

/-! ### Commands as sets of atomic field writes (R55) -/

/-- One atomic write takes effect. -/
def FieldWrite.apply (w : FieldWrite) (l : Led) : Led :=
  match w with
  | .enables en => { l with enabled := en }
  | .speed v => { l with pulseSpeed := v }
  | .mode ch v => { l with mode := l.mode.set ch v }
  | .bank v => { l with bankPtr := v }

/-- The writes of an SBA (R101). -/
def sbaWrites (c : Config) (enBytes : List Byte) (spd : Byte) : List FieldWrite :=
  [.enables ((List.range c.nCh).map (enableBit enBytes)), .speed (speedOf spd), .bank 0#2]

/-- W_MODE[k] of a PBA, when its channel exists (R104). -/
def modeWrite (c : Config) (bk : BitVec 2) (ms : List Byte) (k : Nat) : Option FieldWrite :=
  if bk.toNat * 8 + k < c.nCh then some (.mode (bk.toNat * 8 + k) (ms.getD k 0#8)) else none

/-- The writes of a PBA that finds bank_ptr = bk (R104). -/
def pbaWrites (c : Config) (bk : BitVec 2) (ms : List Byte) : List FieldWrite :=
  (List.range 8).filterMap (modeWrite c bk ms) ++ [.bank (bk + 1#2)]

/-- The command agent performs its k-th outstanding write; nothing happens where there is none. -/
def perform (k : Nat) (s : State) : State :=
  match s.pending[k]? with
  | none => s
  | some w => { s with led := w.apply s.led, pending := s.pending.eraseIdx k }

/-- The command agent performs every outstanding write. -/
def settle (s : State) : State :=
  { s with led := s.pending.foldl (fun l w => w.apply l) s.led, pending := [] }

/-- The command agent runs until it is done or preempted. -/
def runAgent (plan : Option (List Nat)) (s : State) : State :=
  match plan with
  | none => settle s
  | some ks => ks.foldl (fun s k => perform k s) s

/-- Delivers a command: its writes become outstanding and the command agent runs as the scheduler
lets it (R55, R101, R104).  The command's conditions are recorded here, at its delivery, also when it is
preempted: R192 says only "during the operation".  DESIGN CHOICE (log entry 11). -/
def deliver (ws : List FieldWrite) (diag : List DiagCode) (s : State) : State :=
  runAgent s.plan
    { s with pending := ws, plan := none, ledDiag := diag, ledOps := s.ledOps + 1 }

/-! ### The active table and effective levels (R143, R144) -/

/-- shift_on(S) (R143). -/
def shiftOn (c : Config) (p : Panel) : Bool :=
  match shiftAt c with
  | none => false
  | some i => p.levelAt i

/-- The active table T(S) (R143). -/
def activeTable (c : Config) (p : Panel) : List KeyCode :=
  if shiftOn c p then c.mapShift else c.mapNormal

/-- lvl(S, i) (R144). -/
def effLevel (c : Config) (p : Panel) (i : Nat) : Bool :=
  if multifireAt c = some i then p.mfS else p.levelAt i

/-- Input i is read for reports: it is pressed and it is not the shift input (R144). -/
def pressed (c : Config) (p : Panel) (i : Nat) : Bool :=
  decide (shiftAt c ≠ some i) && effLevel c p i

/-- active(S, f) (R144). -/
def active (c : Config) (p : Panel) (f : Function) : Bool :=
  (List.range c.nIn).any fun i =>
    pressed c p i && decide (func (codeAt (activeTable c p) i) = some f)

/-- The quadrature state of an axis, phase A in bit 1 and phase B in bit 0 (R155). -/
def quadState (c : Config) (p : Panel) (a : Axis) : BitVec 2 :=
  BitVec.ofBool (active c p (.phase a .a)) ++ BitVec.ofBool (active c p (.phase a .b))

end Sys2Proof.Machine
end

