-- ==== Sys2Proof/Machine/LedCommands.lean ====
section
/-! DEFINITION. The LED unit's commands: SBA (R101) and PBA (R104). -/

namespace Sys2Proof.Machine

/-- The conditions an SBA meets (R101, R191). -/
def sbaDiag (c : Config) (enBytes : List Byte) (spd : Byte) : List DiagCode :=
  (if spd.toNat = 0 ∨ 7 < spd.toNat then [DiagCode.ledSpeedClamped] else []) ++
  (if enableBeyond c enBytes then [DiagCode.ledChannelIgnored] else [])

/-- The condition byte k of a PBA meets (R104, R191). -/
def modeDiag (c : Config) (bk : BitVec 2) (ms : List Byte) (k : Nat) : Option DiagCode :=
  if bk.toNat * 8 + k < c.nCh then
    if classify c.maxB (ms.getD k 0#8) = .off then some .ledModeOffValue else none
  else some .ledChannelIgnored

/-- The conditions a PBA meets. -/
def pbaDiag (c : Config) (bk : BitVec 2) (ms : List Byte) : List DiagCode :=
  (List.range 8).filterMap (modeDiag c bk ms)

/-- SBA (R101): all enable bits, the clamped pulse speed, and bank_ptr <- 0.  Cmd(6) and Cmd(7) are
ignored (R74). -/
def execSba (en0 en1 en2 en3 spd : Byte) (s : State) : Host.Outcome State Fault Refusal :=
  whenLed s <| whenIdle s <|
    .next (deliver (sbaWrites s.cfg [en0, en1, en2, en3] spd)
      (sbaDiag s.cfg [en0, en1, en2, en3] spd) s)

/-- PBA (R104): byte k goes to channel bank_ptr×8+k as it is, where that channel exists, and
bank_ptr advances modulo 4. -/
def execPba (m0 m1 m2 m3 m4 m5 m6 m7 : Byte) (s : State) : Host.Outcome State Fault Refusal :=
  if m0 = 0x40#8 then .refused .pbaMarkerByte
  else
    whenLed s <| whenIdle s <|
      .next (deliver (pbaWrites s.cfg s.led.bankPtr [m0, m1, m2, m3, m4, m5, m6, m7])
        (pbaDiag s.cfg s.led.bankPtr [m0, m1, m2, m3, m4, m5, m6, m7]) s)

end Sys2Proof.Machine
end

