-- ==== Sys2Proof/Machine/PwmTick.lean ====
section
/-! DEFINITION. PWM_TICK (R127). -/

namespace Sys2Proof.Machine

/-- ch_out[ch] as this tick computes it (R127, R124). -/
def channelOn (c : Config) (l : Led) (ch : Nat) : Bool :=
  l.enabledAt ch && decide (l.pwmCounter.toNat < bright c (l.modeAt ch) l.phase)

/-- The phase step (pulse_speed × PHASE_SCALE) mod 2^16 (R130). -/
def phaseStep (c : Config) (l : Led) : BitVec 16 :=
  BitVec.ofNat 16 (l.pulseSpeed.toNat * c.phaseScale)

/-- The outputs of this tick, from the counter and the phase before it (R127). -/
def tickOutputs (c : Config) (l : Led) : Led :=
  { l with chOut := (List.range c.nCh).map (channelOn c l) }

/-- The counter steps down; at 0 it reloads MAXB - 1 and the phase advances (R127). -/
def tickCounters (c : Config) (l : Led) : Led :=
  if l.pwmCounter = 0#8 then
    { l with pwmCounter := BitVec.ofNat 8 (c.maxB - 1), phase := l.phase + phaseStep c l }
  else { l with pwmCounter := l.pwmCounter - 1#8 }

/-- One PWM_TICK of the LED unit (R127): outputs first, then the counters. -/
def pwmTick (c : Config) (l : Led) : Led := tickCounters c (tickOutputs c l)

/-- PWM_TICK (R127).  It may fall between the writes of a command (R55).  It meets no condition of R191,
and as the LED unit's last operation it leaves `ledDiag` empty, a preempted command's conditions
included: R192 does not say when within a command they are shown.  DESIGN CHOICE (log entry 11). -/
def execPwmTick (s : State) : Host.Outcome State Fault Refusal :=
  whenLed s <|
    .next { s with led := pwmTick s.cfg s.led, ledDiag := [], ledOps := s.ledOps + 1 }

end Sys2Proof.Machine
end

