-- ==== Sys2Proof/Machine/Reports.lean ====
section
/-! DEFINITION. GET_REPORT (R170): arbitration (R171, R172) and serialisation (R174 to R177). -/

namespace Sys2Proof.Machine

/-- REPORT_ID[c] (R83, R84). -/
def reportIdOf (c : Config) : Category → Byte
  | .keyboard => c.reportId.keyboard
  | .consumer => c.reportId.consumer
  | .joystick1 => c.reportId.joystick1
  | .joystick2 => c.reportId.joystick2
  | .joystick3 => c.reportId.joystick3
  | .joystick4 => c.reportId.joystick4
  | .mouse => c.reportId.mouse

/-! ### Serialisation -/

/-- The byte whose bit k is f k, for k below n. -/
def bitsOf (n : Nat) (f : Nat → Bool) : Byte :=
  (List.range n).foldl (fun b k => if f k then b ||| (1#8 <<< k) else b) 0#8

/-- What KBD_BYTES accumulates (R174): the modifier byte, the key slots filled so far, and how many
keys found them full. -/
structure KeyScan where
  mods    : Byte
  keys    : List Byte
  dropped : Nat
deriving DecidableEq, Repr

/-- One pressed function in the keyboard scan (R174). -/
def scanFunction (acc : KeyScan) : Option Function → KeyScan
  | some (.modifier m) => { acc with mods := acc.mods ||| (1#8 <<< m.toNat) }
  | some (.key u) =>
    if u ∈ acc.keys then acc
    else if acc.keys.length < 6 then { acc with keys := acc.keys ++ [u] }
    else { acc with dropped := acc.dropped + 1 }
  | _ => acc

/-- One input in the keyboard scan (R174). -/
def scanInput (c : Config) (p : Panel) (acc : KeyScan) (i : Nat) : KeyScan :=
  if pressed c p i then scanFunction acc (func (codeAt (activeTable c p) i)) else acc

/-- The keyboard scan over the inputs, ascending (R174). -/
def keyScan (c : Config) (p : Panel) : KeyScan :=
  (List.range c.nIn).foldl (scanInput c p) { mods := 0#8, keys := [], dropped := 0 }

/-- KBD_BYTES (R174): identifier, modifiers, six key slots padded with 0x00. -/
def keyboardBytes (c : Config) (p : Panel) : List Byte :=
  [reportIdOf c .keyboard, (keyScan c p).mods] ++ (keyScan c p).keys ++
    List.replicate (6 - (keyScan c p).keys.length) 0x00#8

/-- CONS_BYTES (R175). -/
def consumerBytes (c : Config) (p : Panel) : List Byte :=
  [reportIdOf c .consumer, bitsOf 8 fun k => active c p (.consumer (BitVec.ofNat 3 k))]

/-- (plus ? 1 : 0) - (minus ? 1 : 0), as a 4-bit two's-complement value (R176). -/
def axisNibble (plus minus : Bool) : BitVec 4 :=
  BitVec.ofInt 4 ((if plus then 1 else 0) - (if minus then 1 else 0))

/-- The direction byte of joystick index j: y in bits 7:4, x in bits 3:0 (R88, R176). -/
def directionByte (c : Config) (p : Panel) (j : BitVec 2) : Byte :=
  axisNibble (active c p (.joyDir j .down)) (active c p (.joyDir j .up)) ++
    axisNibble (active c p (.joyDir j .right)) (active c p (.joyDir j .left))

/-- JOY_BYTES of joystick index j (R176). -/
def joystickBytes (c : Config) (p : Panel) (j : BitVec 2) : List Byte :=
  [reportIdOf c (Category.joystick j), directionByte c p j,
    bitsOf 8 fun k => active c p (.joyButton j (BitVec.ofNat 3 k))]

/-- MOUSE_BYTES (R177). -/
def mouseBytes (c : Config) (p : Panel) : List Byte :=
  [reportIdOf c .mouse, bitsOf 3 fun k => active c p (.mouseButton (BitVec.ofNat 2 k)),
    p.delta.x, p.delta.y]

/-! ### Arbitration -/

/-- The joystick indices in the order in which the search visits them (R172). -/
def joystickOrder (last : BitVec 2) : List (BitVec 2) := [last + 1#2, last + 2#2, last + 3#2, last]

/-- The joystick that the round-robin picks, if any is dirty (R172). -/
def pickJoystick (p : Panel) : Option (BitVec 2) :=
  (joystickOrder p.lastJoy).find? fun j => p.dirty.get (Category.joystick j)

/-- What GET_REPORT returns, with the Panel unit after it and the conditions it meets. -/
structure Emission where
  answer : Answer
  panel  : Panel
  diag   : List DiagCode
deriving DecidableEq, Repr

/-- A joystick report (R170). -/
def emitJoystick (c : Config) (p : Panel) (j : BitVec 2) : Emission :=
  { answer := .report (joystickBytes c p j)
    panel := { p.clearDirty (Category.joystick j) with lastJoy := j }
    diag := [] }

/-- A Mouse report; the deltas are read before they are cleared (R170, R177). -/
def emitMouse (c : Config) (p : Panel) : Emission :=
  { answer := .report (mouseBytes c p)
    panel := { p.clearDirty .mouse with delta := { x := 0#8, y := 0#8 } }
    diag := [] }

/-- A Keyboard report (R170); each key left out is a truncation (R180). -/
def emitKeyboard (c : Config) (p : Panel) : Emission :=
  { answer := .report (keyboardBytes c p)
    panel := p.clearDirty .keyboard
    diag := List.replicate (keyScan c p).dropped .panKeysTruncated }

/-- A Consumer report (R170). -/
def emitConsumer (c : Config) (p : Panel) : Emission :=
  { answer := .report (consumerBytes c p)
    panel := p.clearDirty .consumer
    diag := [] }

/-- GET_REPORT of the Panel unit (R170): joysticks in round-robin, then Mouse, then Keyboard, then
Consumer (R171). -/
def getReport (c : Config) (p : Panel) : Emission :=
  match pickJoystick p with
  | some j => emitJoystick c p j
  | none =>
    if p.dirty.mouse then emitMouse c p
    else if p.dirty.keyboard then emitKeyboard c p
    else if p.dirty.consumer then emitConsumer c p
    else { answer := .noReport, panel := p, diag := [] }

/-- GET_REPORT (R170). -/
def execGetReport (s : State) : Host.Outcome State Fault Refusal :=
  whenPanel s <|
    .next { s with pan := (getReport s.cfg s.pan).panel
                   answer := (getReport s.cfg s.pan).answer
                   panDiag := (getReport s.cfg s.pan).diag
                   panOps := s.panOps + 1 }

end Sys2Proof.Machine
end

