-- ==== Sys2Proof/Machine/Resets.lean ====
section
/-! DEFINITION. RESET of each unit (R210 to R212). -/

namespace Sys2Proof.Machine

/-- The write would take bank_ptr or an enable bit away from its reset value.  After a RESET the first
PBA loads bank 0 and the j-th loads bank j mod 4 (R105, R106), and with no command every output stays
inactive and every channel disabled (R210, R211, R214); so a RESET drops such a write of a half-applied
command.  DEDUCED (log entry 8). -/
def FieldWrite.undoesReset : FieldWrite → Bool
  | .enables en => en.any id
  | .bank v => decide (v ≠ 0#2)
  | .speed _ => false
  | .mode _ _ => false

/-- The writes of a half-applied command after a RESET of the LED unit: those that would undo the reset
of bank_ptr or of the enables are dropped; each other one is kept or dropped, as a free value says
(R210 and R55 leave it open; DESIGN CHOICE, log entry 8). -/
def writesAfterReset (s : State) : List FieldWrite :=
  (s.pending.zipIdx.filter fun w =>
    Config.resetKeepsWrite s.ledOps w.2 && !w.1.undoesReset).map Prod.fst

/-- The configuration conditions reported at RESET of the LED unit (R191 code 0x03). -/
def resetLedDiag (c : Config) : List DiagCode :=
  ((List.range c.nOut).filter fun p => decide (c.nCh ≤ c.outMap.getD p 0)).map
    fun _ => .ledOutMapRange

/-- An index parameter names no input although it is not NONE (R191). -/
def indexBeyond (c : Config) : Option Nat → Bool
  | none => false
  | some i => decide (c.nIn ≤ i)

/-- The configuration conditions reported at RESET of the Panel unit (R191 codes 0x11 to 0x13). -/
def resetPanDiag (c : Config) : List DiagCode :=
  (if indexBeyond c c.shiftIndex then [DiagCode.panShiftIndexRange] else []) ++
  (if indexBeyond c c.mfIndex then [DiagCode.panMfIndexRange] else []) ++
  ((c.mapNormal ++ c.mapShift).filter reservedClass).map fun _ => .panKeycodeReserved

/-- RESET of the LED unit (R210, R211). -/
def execResetLed (s : State) : Host.Outcome State Fault Refusal :=
  whenConfigured s <|
    .next { s with led := Led.resetValues s.cfg
                   ledStarted := true
                   pending := writesAfterReset s
                   ledDiag := resetLedDiag s.cfg
                   ledOps := s.ledOps + 1 }

/-- RESET of the Panel unit (R210, R212). -/
def execResetPan (s : State) : Host.Outcome State Fault Refusal :=
  whenConfigured s <|
    .next { s with pan := Panel.resetValues s.cfg
                   panStarted := true
                   answer := .noReport
                   panDiag := resetPanDiag s.cfg
                   panOps := s.panOps + 1 }

end Sys2Proof.Machine
end

