-- ==== Sys2Proof/Machine/Sampling.lean ====
section
/-! DEFINITION. SAMPLE_TICK (R140 to R158): debounce, multifire, shift cleanup, quadrature. -/

namespace Sys2Proof.Machine

/-! ### Debounce (R142, R145) -/

/-- DEBOUNCE(i) accepts a change: the raw level differs and the count reaches D (R142). -/
def accepts (c : Config) (raw : RawIn) (i : Nat) (p : Panel) : Bool :=
  raw.getLsbD i != p.levelAt i && decide (c.debounce ≤ min ((p.cntAt i).toNat + 1) 127)

/-- DEBOUNCE(i): the level and the count after this sample (R142). -/
def debounce (c : Config) (raw : RawIn) (i : Nat) (p : Panel) : Panel :=
  if raw.getLsbD i = p.levelAt i then p.setCnt i 0#7
  else if c.debounce ≤ min ((p.cntAt i).toNat + 1) 127 then
    (p.setLevel i (raw.getLsbD i)).setCnt i 0#7
  else p.setCnt i (BitVec.ofNat 7 (min ((p.cntAt i).toNat + 1) 127))

/-- Debounce of one generic input, marking the category it had under the table at the start of the
step; the valid shift input marks nothing (R145, R146). -/
def debounceInput (c : Config) (tOld : List KeyCode) (raw : RawIn) (p : Panel) (i : Nat) : Panel :=
  if accepts c raw i p ∧ shiftAt c ≠ some i then
    (debounce c raw i p).mark (category (codeAt tOld i))
  else debounce c raw i p

/-- Phase 1 of R140. -/
def debounceAll (c : Config) (tOld : List KeyCode) (raw : RawIn) (p : Panel) : Panel :=
  (genericInputs c).foldl (debounceInput c tOld raw) p

/-! ### Multifire (R151 to R153) -/

/-- The length of a burst, MF_COUNT × MF_CYCLE samples (R152). -/
def burstLength (c : Config) : Nat := c.mfCount * c.mfCycle

/-- MF_GATE (R151), with the raw level of the multifire input. -/
def mfGateStep (c : Config) (raw : Bool) (p : Panel) : Panel :=
  if raw = false then { p with mfGate := 0#8 }
  else if p.mfBurst = 0#16 ∧ p.mfGate.toNat < c.mfLatency then
    if p.mfGate.toNat + 1 = c.mfLatency then
      { p with mfGate := p.mfGate + 1#8, mfBurst := BitVec.ofNat 16 (burstLength c) }
    else { p with mfGate := p.mfGate + 1#8 }
  else p

/-- s_new of MF_BURST (R152): pressed for the first half of each cycle of a running burst. -/
def syntheticLevel (c : Config) (p : Panel) : Bool :=
  decide (0 < p.mfBurst.toNat) &&
  decide ((burstLength c - p.mfBurst.toNat) % c.mfCycle < c.mfCycle / 2)

/-- The burst-cycle counter of MF_BURST (R152). -/
def mfBurstStep (p : Panel) : Panel :=
  if p.mfBurst = 0#16 then p else { p with mfBurst := p.mfBurst - 1#16 }

/-- MF_MARK (R153). -/
def mfMark (sNew : Bool) (cat : Option Category) (p : Panel) : Panel :=
  if sNew = p.mfS then p else ({ p with mfS := sNew } : Panel).mark cat

/-- The multifire step of the input m (R151 to R153). -/
def multifireStep (c : Config) (tOld : List KeyCode) (raw : RawIn) (m : Nat) (p : Panel) : Panel :=
  let gated := mfGateStep c (raw.getLsbD m) p
  mfMark (syntheticLevel c gated) (category (codeAt tOld m)) (mfBurstStep gated)

/-- Phase 2 of R140: nothing when there is no valid multifire input (R150). -/
def multifire (c : Config) (tOld : List KeyCode) (raw : RawIn) (p : Panel) : Panel :=
  match multifireAt c with
  | none => p
  | some m => multifireStep c tOld raw m p

/-! ### Shift cleanup (R147, R148) -/

/-- The input's function differs between the two tables (R81, R147). -/
def remapped (tOld tNew : List KeyCode) (i : Nat) : Bool :=
  decide (func (codeAt tOld i) ≠ func (codeAt tNew i))

/-- The synthesised release of one generic input (R147). -/
def cleanupInput (tOld tNew : List KeyCode) (p : Panel) (i : Nat) : Panel :=
  if remapped tOld tNew i ∧ p.levelAt i then
    ((p.setLevel i false).setCnt i 0#7).mark (category (codeAt tOld i))
  else p

/-- SHIFT_CLEANUP_GENERIC (R147). -/
def cleanupGeneric (c : Config) (tOld tNew : List KeyCode) (p : Panel) : Panel :=
  ((genericInputs c).filter fun i => decide (shiftAt c ≠ some i)).foldl (cleanupInput tOld tNew) p

/-- The cleanup's marks for the multifire input (R148). -/
def cleanupMultifire (c : Config) (tOld tNew : List KeyCode) (p : Panel) : Panel :=
  match multifireAt c with
  | none => p
  | some m =>
    if p.mfS ∧ remapped tOld tNew m then
      (p.mark (category (codeAt tOld m))).mark (category (codeAt tNew m))
    else p

/-- Phase 3 of R140: it runs when shift_on has changed since the step began. -/
def shiftCleanup (c : Config) (tOld : List KeyCode) (shOld : Bool) (p : Panel) : Panel :=
  if shiftOn c p = shOld then p
  else cleanupMultifire c tOld (activeTable c p) (cleanupGeneric c tOld (activeTable c p) p)

/-! ### Quadrature (R155 to R157) -/

/-- The Gray-code order idx(00) = 0, idx(10) = 1, idx(11) = 2, idx(01) = 3 of the pair (A, B) (R156). -/
def grayIndex (q : BitVec 2) : Nat :=
  if q = 0b00#2 then 0 else if q = 0b10#2 then 1 else if q = 0b11#2 then 2 else 3

/-- QSTEP(prev, q) (R156). -/
def qstep (prev q : BitVec 2) : Int :=
  let d := ((grayIndex q : Int) - (grayIndex prev : Int)) % 4
  if d = 1 then 1 else if d = 3 then -1 else 0

/-- clamp(v, -127, 127) of an integer (R12). -/
def clampS8 (v : Int) : Int := if v < -127 then -127 else if 127 < v then 127 else v

/-- sat_s8 as an s8 value (R12, R157). -/
def satS8 (v : Int) : BitVec 8 := BitVec.ofInt 8 (clampS8 v)

/-- The sum delta[a] + d before it is clamped (R157). -/
def deltaSum (c : Config) (a : Axis) (p : Panel) : Int :=
  (p.delta.get a).toInt + qstep (p.qprev.get a) (quadState c p a)

/-- QUAD for one axis (R157). -/
def quadAxis (c : Config) (a : Axis) (p : Panel) : Panel :=
  let q := quadState c p a
  if qstep (p.qprev.get a) q = 0 then { p with qprev := p.qprev.set a q }
  else ({ p with delta := p.delta.set a (satS8 (deltaSum c a p))
                 qprev := p.qprev.set a q } : Panel).mark (some .mouse)

/-- Phase 4 of R140 (R157). -/
def quadrature (c : Config) (p : Panel) : Panel := quadAxis c .y (quadAxis c .x p)

/-- A quadrature step would take delta[a] beyond ±127 (R191 code 0x14). -/
def saturates (c : Config) (p : Panel) (a : Axis) : Bool :=
  decide (qstep (p.qprev.get a) (quadState c p a) ≠ 0) && decide (127 < (deltaSum c a p).natAbs)

/-! ### The whole operation (R158) -/

/-- Phases 1 to 3 of R140. -/
def sampleLevels (c : Config) (raw : RawIn) (p : Panel) : Panel :=
  let tOld := activeTable c p
  shiftCleanup c tOld (shiftOn c p) (multifire c tOld raw (debounceAll c tOld raw p))

/-- One SAMPLE_TICK of the Panel unit (R158). -/
def sampleTick (c : Config) (raw : RawIn) (p : Panel) : Panel :=
  quadrature c (sampleLevels c raw p)

/-- The conditions a SAMPLE_TICK meets (R191). -/
def sampleDiag (c : Config) (raw : RawIn) (p : Panel) : List DiagCode :=
  ([Axis.x, Axis.y].filter (saturates c (sampleLevels c raw p))).map fun _ => .panDeltaSaturated

/-- SAMPLE_TICK (R158). -/
def execSampleTick (raw : RawIn) (s : State) : Host.Outcome State Fault Refusal :=
  whenPanel s <|
    .next { s with pan := sampleTick s.cfg raw s.pan
                   panDiag := sampleDiag s.cfg raw s.pan
                   panOps := s.panOps + 1 }

end Sys2Proof.Machine
end

