-- ==== Sys2Proof/Machine/Dispatch.lean ====
section
/-! DEFINITION. One arm per operation of the opcode table. -/

namespace Sys2Proof.Machine

def exec (i : Instr) (s : State) : Host.Outcome State Fault Refusal :=
  match i with
  | .sba en0 en1 en2 en3 spd _ _ => Sys2Proof.Machine.execSba en0 en1 en2 en3 spd s
  | .pba m0 m1 m2 m3 m4 m5 m6 m7 => Sys2Proof.Machine.execPba m0 m1 m2 m3 m4 m5 m6 m7 s
  | .pwmTick => Sys2Proof.Machine.execPwmTick s
  | .resetLed => Sys2Proof.Machine.execResetLed s
  | .sampleTick raw => Sys2Proof.Machine.execSampleTick raw s
  | .getReport => Sys2Proof.Machine.execGetReport s
  | .resetPan => Sys2Proof.Machine.execResetPan s

end Sys2Proof.Machine
end

