-- ==== Sys2Proof/Machine/Fetch.lean ====
section
/-! DEFINITION. How the next input is taken and what the wires present: the block fetches no program
(R28, R59), it processes the events of its ports one after the other (R16, R60, R195). -/

namespace Sys2Proof.Machine

/-- What the next input asks for: an operation to run in a state, or an outcome that needs none. -/
inductive Fetched where
  | run (i : Instr) (s : State)
  | done (o : Host.Outcome State Fault Refusal)

/-- Puts the elements into one of their orders: every order of up to three elements is a rotation of
the list or of its reverse, and `tie` picks which. -/
def arrange {α : Type} (tie : Nat) (l : List α) : List α :=
  (if tie % 2 = 0 then l else l.reverse).rotate (tie / 2)

/-- The same wires with only these lines raised. -/
def BusEvent.withLines (e : BusEvent) (l : Lines) : BusEvent :=
  match e with
  | .led _ cmd => .led l cmd
  | .panel _ raw => .panel l raw

/-- The lines that are raised. -/
def BusEvent.lines : BusEvent → Lines
  | .led l _ => l
  | .panel l _ => l

/-- Events presented at the same time, one after the other in an order that the model leaves open
(R195). -/
def serialise (e : BusEvent) (plan : Option (List Nat)) (tie : Nat) : List Input :=
  (arrange tie (raisedLines (BusEvent.lines e))).map fun l => .bus (BusEvent.withLines e l) plan tie

/-- The loading of a configuration (R59, R214): before the first RESET only, and only a well-formed
one (R10). -/
def loadConfig (c : Config) (s : State) : Host.Outcome State Fault Refusal :=
  if s.ledStarted ∨ s.panStarted then .refused .configChange
  else if c.wf = false then .refused .illFormedConfig
  else .next { s with cfg := c }

/-- What an event of the ports asks for.  No raised line is no event (R194). -/
def fetchBus (e : BusEvent) (plan : Option (List Nat)) (tie : Nat) (s : State) : Fetched :=
  match decode e with
  | .ok i => .run i { s with plan := plan }
  | .error .idle => .done (.next s)
  | .error .simultaneous => .done (.next { s with inputs := serialise e plan tie ++ s.inputs })
  | .error .wrongLength => .done (.refused .wrongCommandLength)

/-- Takes the next input.  With no input left the preempted command agent goes on, and without an
outstanding write nothing happens (R194, R220). -/
def fetch (s : State) : Fetched :=
  match s.inputs with
  | [] => .done (.next (perform 0 s))
  | .bus e plan tie :: rest => fetchBus e plan tie { s with inputs := rest }
  | .finish k :: rest => .done (.next (perform k { s with inputs := rest }))
  | .load c :: rest => .done (loadConfig c { s with inputs := rest })

/-- Presents an event as the very next input, with a command agent that is not preempted. -/
def present (e : BusEvent) (s : State) : State := { s with inputs := .bus e none 0 :: s.inputs }

end Sys2Proof.Machine
end

