-- ==== Sys2Proof/Machine/Step.lean ====
section
/-! DEFINITION. One step of the machine: one input, that is one whole operation or one atomic field
write of a command (R8, R13). -/

namespace Sys2Proof.Machine

/-- One step. -/
def step (s : State) : Host.Outcome State Fault Refusal :=
  match fetch s with
  | .run i t => exec i t
  | .done o => o

/-- The opcode-table word w of nbits bits presented on the ports as the next input (log entry 13). -/
def State.withFetchWord (s : State) (nbits w : Nat) : State := present (tableEvent nbits w) s

end Sys2Proof.Machine
end

