-- ==== Sys2Proof/Machine/Ports.lean ====
section
/-! DEFINITION. The output ports of both units, functions of the state (R70, R71, R129, R183, R192). -/

namespace Sys2Proof.Machine

/-- The pin level of physical output p (R129). -/
def outputLevel (c : Config) (l : Led) (p : Nat) : Bool :=
  let lit := decide (c.outMap.getD p 0 < c.nCh) && l.outAt (c.outMap.getD p 0)
  if c.outActiveHigh then lit else !lit

/-- led_out (R70, R129). -/
def ledOut (s : State) : List Bool := (List.range s.cfg.nOut).map (outputLevel s.cfg s.led)

/-- The level of an inactive pin (R129). -/
def inactiveLevel (c : Config) : Bool := !c.outActiveHigh

/-- cmd_busy (R70). -/
def cmdBusy (s : State) : Bool := !s.pending.isEmpty

/-- rep_pending (R183). -/
def repPending (s : State) : Bool := s.pan.dirty.any

/-- rep_valid (R71). -/
def repValid (s : State) : Bool :=
  match s.answer with
  | .noReport => false
  | .report _ => true

/-- rep_len (R71); it has no meaning, so any value, when rep_valid = 0. -/
def repLen (s : State) : BitVec 4 :=
  match s.answer with
  | .noReport => Config.staleLen s.panOps
  | .report bs => BitVec.ofNat 4 bs.length

/-- Byte k of rep_data: the report's byte, or any value past its length (R71, R83). -/
def repByte (s : State) (k : Nat) : Byte :=
  match s.answer with
  | .noReport => Config.staleByte s.panOps k
  | .report bs => bs.getD k (Config.staleByte s.panOps k)

/-- rep_data (R71): byte k in bits [8k+7:8k] (R52). -/
def repData (s : State) : BitVec 64 := busOfBytes ((List.range 8).map (repByte s))

/-- Some of the events, in some order: those at the chosen positions, each position once. -/
def emitted (choice : List Nat) (met : List DiagCode) : List DiagCode :=
  choice.dedup.filterMap fun k => met[k]?

/-- The LED unit's diagnostic events of its last operation (R192). -/
def ledDiagEvents (s : State) : List Byte :=
  (emitted (Config.ledDiagChoice s.ledOps) s.ledDiag).map DiagCode.code

/-- The Panel unit's diagnostic events of its last operation (R192). -/
def panDiagEvents (s : State) : List Byte :=
  (emitted (Config.panDiagChoice s.panOps) s.panDiag).map DiagCode.code

end Sys2Proof.Machine
end

