-- ==== Sys2Proof/Safety.lean ====
section
/-! DEFINITION. What counts as a legal state and a dutiful host, the properties of PATTERN_FN, and the
runs that claims speak of. -/

namespace Sys2Proof.Machine

/-! ### Legal states (the "legal values" of R20 and R30) -/

/-- The LED unit's fields hold legal values: arrays of N_CH entries (R29), pulse_speed in 1..7 (R23),
pwm_counter in 0..MAXB-1 (R25). -/
structure Led.Legal (c : Config) (l : Led) : Prop where
  enabled_length : l.enabled.length = c.nCh
  mode_length : l.mode.length = c.nCh
  chOut_length : l.chOut.length = c.nCh
  speed_pos : l.pulseSpeed ≠ 0#3
  counter_lt : l.pwmCounter.toNat < c.maxB

/-- An outstanding write is one that an SBA or a PBA makes (R101, R104). -/
def FieldWrite.Legal (c : Config) : FieldWrite → Prop
  | .enables en => en.length = c.nCh
  | .speed v => v ≠ 0#3
  | .mode ch _ => ch < c.nCh
  | .bank _ => True

/-- The Panel unit's fields hold legal values (R30), the multifire input is on its own path (R149,
R150), and qprev is the quadrature state of the levels (R38). -/
structure Panel.Legal (c : Config) (p : Panel) : Prop where
  level_length : p.level.length = c.nIn
  cnt_length : p.cnt.length = c.nIn
  cnt_lt : ∀ i, i < c.nIn → (p.cntAt i).toNat < c.debounce
  gate_le : p.mfGate.toNat ≤ c.mfLatency
  burst_le : p.mfBurst.toNat ≤ c.mfCount * c.mfCycle
  rest_released : p.mfBurst = 0#16 → p.mfS = false
  delta_ge : ∀ a, -127 ≤ (p.delta.get a).toInt
  multifire_untouched : ∀ m, multifireAt c = some m → p.levelAt m = false ∧ p.cntAt m = 0#7
  no_multifire : multifireAt c = none → p.mfGate = 0#8 ∧ p.mfBurst = 0#16 ∧ p.mfS = false
  qprev_current : ∀ a, p.qprev.get a = quadState c p a

/-- The length of a category's report (R79). -/
def reportLength : Category → Nat
  | .keyboard => 8
  | .consumer => 2
  | .joystick1 => 3
  | .joystick2 => 3
  | .joystick3 => 3
  | .joystick4 => 3
  | .mouse => 4

/-- An answer is NoReport or a report of one of the categories: its identifier first and its length
(R79, R83). -/
def Answer.Legal (c : Config) : Answer → Prop
  | .noReport => True
  | .report bytes =>
    ∃ cat, bytes.head? = some (reportIdOf c cat) ∧ bytes.length = reportLength cat

/-- A state of the block that R20 and R30 admit. -/
structure State.Legal (s : State) : Prop where
  config : s.cfg.wf = true
  led : s.ledStarted = true → s.led.Legal s.cfg
  pending : ∀ w ∈ s.pending, w.Legal s.cfg
  pending_length : s.pending.length ≤ 9
  unstarted_pending : s.ledStarted = false → s.pending = []
  panel : s.panStarted = true → s.pan.Legal s.cfg
  answer : s.answer.Legal s.cfg
  unstarted_answer : s.panStarted = false → s.answer = .noReport

/-! ### The host's duties (R58, R214) -/

/-- The next input breaks no duty: commands are 8 bytes and are delivered while cmd_busy = 0 (R58),
a unit is used after its first RESET (R213), and a configuration is loaded before any RESET and is
well-formed (R59, R10). -/
def Dutiful (s : State) : Prop :=
  match s.inputs with
  | [] => True
  | .finish _ :: _ => True
  | .load c :: _ => s.ledStarted = false ∧ s.panStarted = false ∧ c.wf = true
  | .bus (.led lines cmd) _ _ :: _ =>
    (lines = 0b010#3 → s.ledStarted = true ∧ s.pending = [] ∧ cmd.length = 8) ∧
    (lines = 0b001#3 → s.ledStarted = true)
  | .bus (.panel lines _) _ _ :: _ =>
    lines = 0b010#3 ∨ lines = 0b001#3 → s.panStarted = true

/-! ### Error conditions (R191) -/

/-- The operation i belongs to the LED unit (R72). -/
def OfLed (i : Instr) : Prop :=
  (∃ a b c d e f g, i = .sba a b c d e f g) ∨ (∃ a b c d e f g h, i = .pba a b c d e f g h) ∨
  i = .pwmTick ∨ i = .resetLed

/-- The operation i belongs to the Panel unit (R72). -/
def OfPanel (i : Instr) : Prop := (∃ raw, i = .sampleTick raw) ∨ i = .getReport ∨ i = .resetPan

/-- The key usages of the pressed inputs, in ascending input order, repeats included (R174). -/
def pressedUsages (c : Config) (p : Panel) : List Byte :=
  (List.range c.nIn).filterMap fun i =>
    if pressed c p i then
      match func (codeAt (activeTable c p) i) with
      | some (.key u) => some u
      | _ => none
    else none

/-- The operation i, from s to t, meets the condition of this code: the table of R191. -/
def DiagCode.Met (i : Instr) (s t : State) : DiagCode → Prop
  | .ledSpeedClamped =>
    ∃ e0 e1 e2 e3 spd x6 x7, i = .sba e0 e1 e2 e3 spd x6 x7 ∧ (spd.toNat = 0 ∨ 7 < spd.toNat)
  | .ledChannelIgnored =>
    (∃ e0 e1 e2 e3 spd x6 x7, i = .sba e0 e1 e2 e3 spd x6 x7 ∧
      ∃ ch, s.cfg.nCh ≤ ch ∧ (e3 ++ e2 ++ e1 ++ e0 : BitVec 32).getLsbD ch = true) ∨
    (∃ m0 m1 m2 m3 m4 m5 m6 m7, i = .pba m0 m1 m2 m3 m4 m5 m6 m7 ∧
      s.cfg.nCh < s.led.bankPtr.toNat * 8 + 8)
  | .ledOutMapRange =>
    i = .resetLed ∧ ∃ p m, p < s.cfg.nOut ∧ s.cfg.outMap[p]? = some m ∧ s.cfg.nCh ≤ m
  | .ledModeOffValue =>
    ∃ m0 m1 m2 m3 m4 m5 m6 m7, i = .pba m0 m1 m2 m3 m4 m5 m6 m7 ∧
      ∃ k b, [m0, m1, m2, m3, m4, m5, m6, m7][k]? = some b ∧
        s.led.bankPtr.toNat * 8 + k < s.cfg.nCh ∧ s.cfg.maxB < b.toNat ∧
        (b.toNat < 129 ∨ 132 < b.toNat)
  | .panKeysTruncated =>
    i = .getReport ∧ (∀ j, s.pan.dirty.get (Category.joystick j) = false) ∧
      s.pan.dirty.get .mouse = false ∧ s.pan.dirty.get .keyboard = true ∧
      6 < (pressedUsages s.cfg s.pan).eraseDups.length
  | .panShiftIndexRange => i = .resetPan ∧ ∃ k, s.cfg.shiftIndex = some k ∧ s.cfg.nIn ≤ k
  | .panMfIndexRange => i = .resetPan ∧ ∃ k, s.cfg.mfIndex = some k ∧ s.cfg.nIn ≤ k
  | .panKeycodeReserved =>
    i = .resetPan ∧ ∃ code ∈ s.cfg.mapNormal ++ s.cfg.mapShift, 6 ≤ (code.extractLsb' 12 4).toNat
  | .panDeltaSaturated =>
    (∃ raw, i = .sampleTick raw) ∧
      ∃ a, let d := qstep (s.pan.qprev.get a) (t.pan.qprev.get a)
        d ≠ 0 ∧ 127 < ((s.pan.delta.get a).toInt + d).natAbs

/-! ### PATTERN_FN (R126) -/

/-- Properties (P1) to (P4) of R126; (P5) is the type: the result depends on the mode and the phase
only. -/
structure LawfulPattern (maxB : Nat) (f : Pattern → BitVec 16 → Nat) : Prop where
  range : ∀ p ph, f p ph ≤ maxB
  rectangle_values : ∀ ph, f .rectangle ph = 0 ∨ f .rectangle ph = maxB
  rectangle_sign_only : ∀ ph ph', ph.getLsbD 15 = ph'.getLsbD 15 → f .rectangle ph = f .rectangle ph'
  rectangle_differs : ∀ ph ph', ph.getLsbD 15 ≠ ph'.getLsbD 15 → f .rectangle ph ≠ f .rectangle ph'
  triangle_up : ∀ ph ph', ph.toNat ≤ ph'.toNat → ph'.toNat ≤ 0x7FFF →
    f .triangle ph ≤ f .triangle ph'
  triangle_down : ∀ ph ph', 0x8000 ≤ ph.toNat → ph.toNat ≤ ph'.toNat →
    f .triangle ph' ≤ f .triangle ph
  fall_antitone : ∀ ph ph', ph.toNat ≤ ph'.toNat → f .fall ph' ≤ f .fall ph
  rise_monotone : ∀ ph ph', ph.toNat ≤ ph'.toNat → f .rise ph ≤ f .rise ph'

/-! ### Runs -/

/-- The operations one after the other, up to the first that does not answer a next state. -/
def runOps : List Instr → State → Host.Outcome State Fault Refusal
  | [], s => .next s
  | i :: is, s =>
    match exec i s with
    | .next t => runOps is t
    | .fault r => .fault r
    | .refused r => .refused r

/-- What may fall between the writes of a command: a PWM_TICK, or an outstanding write (R55). -/
inductive Move where
  | tick
  | write (k : Nat)
deriving DecidableEq, Repr

/-- The state after one such move. -/
def Move.apply (m : Move) (s : State) : State :=
  match m with
  | .tick => { s with led := pwmTick s.cfg s.led, ledDiag := [], ledOps := s.ledOps + 1 }
  | .write k => perform k s

/-- Sample ticks and then one report request (R172, R218). -/
def poll (raws : List RawIn) : List Instr := raws.map Instr.sampleTick ++ [.getReport]

end Sys2Proof.Machine
end

