-- ==== Sys2Proof/Certificates/Slice0/Obligations.lean ====
section
/-! DEFINITION. The statements for the provers, from the numbered rules of spec/. -/

open Sys2Proof Sys2Proof.Machine

/-! ### Decoding and the step -/

/-- DERIVED (R72, R73, R74, R75, R52).  Decoding what the encoder writes gives the operation back; and
for a command, so does decoding the 64-bit bus word that carries its bytes. -/
def Obligations.DecodeEncodeRoundTrip : Prop :=
  ∀ i : Instr, i.wellFormed = true →
    decode (encode i) = .ok i ∧
    ∀ cmd, encode i = .led 0b010#3 cmd → decodeTableWord 64 (busOfBytes cmd).toNat = some i

/-- STATED (R73): a command is decoded on Cmd(0) alone, SBA exactly when it is 0x40.  So "every 8-byte
command value decodes to exactly one of SBA or PBA" (R72); byte k stands in bits [8k+7:8k] of cmd_data
(R52). -/
def Obligations.EveryCommandValueDecodes : Prop :=
  ∀ w : BitVec 64,
    let b := fun k => w.extractLsb' (8 * k) 8
    decode (.led 0b010#3 (bytesOfBus w)) =
      .ok (if b 0 = 0x40#8 then .sba (b 1) (b 2) (b 3) (b 4) (b 5) (b 6) (b 7)
           else .pba (b 0) (b 1) (b 2) (b 3) (b 4) (b 5) (b 6) (b 7)) ∧
    busOfBytes (bytesOfBus w) = w

/-- DERIVED (R72, the opcode table).  The strobes select the other five rows, whatever stands on the
operand wires that they do not sample. -/
def Obligations.StrobesSelectOperations : Prop :=
  ∀ (cmd : List Byte) (raw : RawIn),
    decode (.led 0b001#3 cmd) = .ok .pwmTick ∧ decode (.led 0b100#3 cmd) = .ok .resetLed ∧
    decode (.panel 0b010#3 raw) = .ok (.sampleTick raw) ∧
    decode (.panel 0b001#3 raw) = .ok .getReport ∧ decode (.panel 0b100#3 raw) = .ok .resetPan

/-- DERIVED (R74, R75, R90 and the worked examples of R101 and R104).  Command words written out from the
spec's layouts decode to the operations they stand for.  The last clause is the model's choice (DESIGN
CHOICE, log entry 13): the table's string 001 stands for PWM_TICK and for GET_REPORT, and the strobe word 1
is given to the LED unit. -/
def Obligations.WrittenOutWordsDecode : Prop :=
  decodeTableWord 64 0x0000010000000140 = some (.sba 1 0 0 0 1 0 0) ∧
  decodeTableWord 64 0x55AA07FFFFFFFF40 = some (.sba 0xFF 0xFF 0xFF 0xFF 7 0xAA 0x55) ∧
  decodeTableWord 64 0x000000000000001E = some (.pba 30 0 0 0 0 0 0 0) ∧
  decodeTableWord 64 0x8032318483828180 = some (.pba 0x80 0x81 0x82 0x83 0x84 0x31 0x32 0x80) ∧
  decodeTableWord 8 0x01 = some .pwmTick

/-- DERIVED (R8, R13, R72).  When the ports present an event that decodes to i, the step is i, run in
the state that has taken the event, with the scheduler's plan for it. -/
def Obligations.StepRunsDecodedOperation : Prop :=
  ∀ (s : State) (e : BusEvent) (plan : Option (List Nat)) (tie : Nat) (rest : List Input) (i : Instr),
    s.inputs = .bus e plan tie :: rest → decode e = .ok i →
    step s = exec i { s with inputs := rest, plan := plan }

/-- DERIVED (R195): "Events that a platform presents at the same time are applied one after the other,
in an order the model leaves open".  A presentation with two or more raised lines becomes one event per
raised line, in some order; and every order is a run. -/
def Obligations.SimultaneousEventsInEveryOrder : Prop :=
  ∀ (s : State) (e : BusEvent) (plan : Option (List Nat)) (tie : Nat) (rest : List Input),
    s.inputs = .bus e plan tie :: rest → 2 ≤ (raisedLines (BusEvent.lines e)).length →
    let oneByOne := fun (order : List Lines) (tie : Nat) =>
      order.map fun l => Input.bus (BusEvent.withLines e l) plan tie
    (∃ order, order.Perm (raisedLines (BusEvent.lines e)) ∧
      step s = .next { s with inputs := oneByOne order tie ++ rest }) ∧
    ∀ order, order.Perm (raisedLines (BusEvent.lines e)) →
      ∃ tie', step { s with inputs := .bus e plan tie' :: rest } =
        .next { s with inputs := oneByOne order tie' ++ rest }

/-- DERIVED (R55, R16).  An outstanding write takes effect alone and in one step when the scheduler
lets the command agent go on, also when nothing else is presented (there the model takes the first
outstanding write, DESIGN CHOICE, log entry 7); with no write outstanding nothing happens. -/
def Obligations.OutstandingWriteIsOneStep : Prop :=
  ∀ (s : State) (k : Nat) (rest : List Input),
    (s.inputs = .finish k :: rest → ∀ w, s.pending[k]? = some w →
      step s = .next { s with inputs := rest, led := w.apply s.led, pending := s.pending.eraseIdx k }) ∧
    (s.inputs = [] → ∀ w ws, s.pending = w :: ws →
      step s = .next { s with led := w.apply s.led, pending := ws }) ∧
    (s.inputs = [] → s.pending = [] → step s = .next s)

/-! ### Refusals -/

/-- DERIVED (R54, R58, R75, 93_implementation_defined.md).  A command while cmd_busy = 1 and a delivery
whose length is not 8 have no meaning.  That the term PBA with first byte 0x40 is refused is the model's
reading (DEDUCED, log entry 14): R75 and R105 say only that no such command exists. -/
def Obligations.BrokenDutiesAreRefused : Prop :=
  ∀ s : State,
    (s.cfg.wf = true → s.ledStarted = true → s.pending ≠ [] →
      (∀ e0 e1 e2 e3 spd x6 x7, exec (.sba e0 e1 e2 e3 spd x6 x7) s = .refused .commandWhileBusy) ∧
      (∀ m0 m1 m2 m3 m4 m5 m6 m7, m0 ≠ 0x40#8 →
        exec (.pba m0 m1 m2 m3 m4 m5 m6 m7) s = .refused .commandWhileBusy)) ∧
    (∀ m1 m2 m3 m4 m5 m6 m7, exec (.pba 0x40 m1 m2 m3 m4 m5 m6 m7) s = .refused .pbaMarkerByte) ∧
    (∀ cmd plan tie rest, s.inputs = .bus (.led 0b010#3 cmd) plan tie :: rest → cmd.length ≠ 8 →
      step s = .refused .wrongCommandLength)

/-- DERIVED (R10, R45, R213).  Every operation is refused under an ill-formed configuration, and
before its unit's first RESET every operation but RESET is. -/
def Obligations.OperationsNeedConfigurationAndReset : Prop :=
  ∀ (i : Instr) (s : State), i.wellFormed = true →
    (s.cfg.wf = false → exec i s = .refused .illFormedConfig) ∧
    (s.cfg.wf = true → s.ledStarted = false →
      ((∃ a b c d e f g, i = .sba a b c d e f g) ∨ (∃ a b c d e f g h, i = .pba a b c d e f g h) ∨
        i = .pwmTick) → exec i s = .refused .beforeFirstReset) ∧
    (s.cfg.wf = true → s.panStarted = false →
      ((∃ raw, i = .sampleTick raw) ∨ i = .getReport) → exec i s = .refused .beforeFirstReset)

/-! ### SBA and PBA -/

/-- DERIVED (R101, R102, R53, R76).  SBA, not preempted: channel ch takes bit ch of the little-endian
word of bytes 1..4, pulse_speed the clamped byte 5, bank_ptr 0; bytes 6 and 7 are ignored; nothing else
changes but the model's own bookkeeping. -/
def Obligations.SbaEffect : Prop :=
  ∀ (s : State) (en0 en1 en2 en3 spd x6 x7 : Byte),
    s.cfg.wf = true → s.ledStarted = true → s.pending = [] → s.plan = none →
    ∃ diag, exec (.sba en0 en1 en2 en3 spd x6 x7) s =
      .next { s with
        led := { s.led with
          enabled := (List.range s.cfg.nCh).map fun ch =>
            (en3 ++ en2 ++ en1 ++ en0 : BitVec 32).getLsbD ch
          pulseSpeed := BitVec.ofNat 3 (max 1 (min 7 spd.toNat))
          bankPtr := 0#2 }
        ledDiag := diag
        ledOps := s.ledOps + 1 }

/-- DERIVED (R62): "SBA is idempotent: applying the same SBA twice leaves the same state as once"
(the model's own operation count apart). -/
def Obligations.SbaTwiceIsOnce : Prop :=
  ∀ (s t : State) (en0 en1 en2 en3 spd x6 x7 : Byte), s.plan = none →
    exec (.sba en0 en1 en2 en3 spd x6 x7) s = .next t →
    exec (.sba en0 en1 en2 en3 spd x6 x7) t = .next { t with ledOps := t.ledOps + 1 }

/-- DERIVED (R104, R105).  PBA, not preempted: channel bank_ptr×8+k takes byte k as it is, where the
channel exists; every other mode byte is kept; bank_ptr advances modulo 4; nothing else changes but the
model's own bookkeeping. -/
def Obligations.PbaEffect : Prop :=
  ∀ (s : State) (m0 m1 m2 m3 m4 m5 m6 m7 : Byte),
    s.cfg.wf = true → s.ledStarted = true → s.pending = [] → s.plan = none → m0 ≠ 0x40#8 →
    s.led.mode.length = s.cfg.nCh →
    ∃ mode diag, exec (.pba m0 m1 m2 m3 m4 m5 m6 m7) s =
        .next { s with
          led := { s.led with mode := mode, bankPtr := s.led.bankPtr + 1#2 }
          ledDiag := diag
          ledOps := s.ledOps + 1 } ∧
      mode.length = s.cfg.nCh ∧
      ∀ ch, ch < s.cfg.nCh → mode[ch]? =
        if ch / 8 = s.led.bankPtr.toNat then [m0, m1, m2, m3, m4, m5, m6, m7][ch % 8]?
        else s.led.mode[ch]?

/-- DERIVED (R105, R78).  A PBA aimed at a bank wholly beyond the channel count writes no mode;
bank_ptr still advances. -/
def Obligations.PbaBeyondChannelsWritesNoMode : Prop :=
  ∀ (s : State) (m0 m1 m2 m3 m4 m5 m6 m7 : Byte),
    s.cfg.wf = true → s.ledStarted = true → s.pending = [] → s.plan = none → m0 ≠ 0x40#8 →
    s.cfg.nCh ≤ s.led.bankPtr.toNat * 8 →
    ∃ diag, exec (.pba m0 m1 m2 m3 m4 m5 m6 m7) s =
      .next { s with
        led := { s.led with bankPtr := s.led.bankPtr + 1#2 }
        ledDiag := diag
        ledOps := s.ledOps + 1 }

/-- DERIVED (R106, R55): "after RESET or an SBA, the j-th PBA (j = 0, 1, 2, ...) with no SBA between loads
bank (j mod 4)".  The RESET may fall in the middle of a command and the SBA may be preempted; once what
is outstanding is done, and whatever other operations of either unit fall between (PWM_TICKs, and samples,
requests and resets of the Panel unit), after j PBAs that are not preempted the next PBA writes the mode
bytes of exactly the channels of bank j mod 4.  That it holds of a RESET in the middle of a command is the
model's reading (DEDUCED, log entry 8): R106 does not speak of a half-applied command, and the model drops
the bank write which that command still owes. -/
def Obligations.PbasLoadBanksRoundRobin : Prop :=
  ∀ (first : Instr) (moves : List Move) (between : List Instr) (s : State)
      (m0 m1 m2 m3 m4 m5 m6 m7 : Byte),
    s.cfg.wf = true →
    ((first = .resetLed ∧ s.plan = none) ∨
      (s.ledStarted = true ∧ s.pending = [] ∧ s.led.mode.length = s.cfg.nCh ∧
        ∃ a b c d e f g, first = .sba a b c d e f g)) →
    (∀ i ∈ between, i.wellFormed = true ∧ i ≠ .resetLed ∧
      (¬ ∃ a b c d e f g, i = .sba a b c d e f g) ∧ (OfPanel i → s.panStarted = true)) →
    m0 ≠ 0x40#8 →
    let isPba : Instr → Bool := fun
      | .pba _ _ _ _ _ _ _ _ => true
      | _ => false
    let j := between.countP isPba
    ∃ r t u, exec first s = .next r ∧
      runOps between (settle (moves.foldl (fun x m => m.apply x) r)) = .next t ∧
      t.led.bankPtr.toNat = j % 4 ∧
      exec (.pba m0 m1 m2 m3 m4 m5 m6 m7) t = .next u ∧ u.led.mode.length = s.cfg.nCh ∧
      ∀ ch, ch < s.cfg.nCh → u.led.mode[ch]? =
        if ch / 8 = j % 4 then [m0, m1, m2, m3, m4, m5, m6, m7][ch % 8]? else t.led.mode[ch]?

/-- DERIVED (R91, R106).  LOADALL enables the channels of its mask, loads every channel's mode byte, and
leaves bank_ptr = 0. -/
def Obligations.LoadAllLoadsEveryChannel : Prop :=
  ∀ (s : State) (w : BitVec 32) (spd : Byte) (modes : List Byte) (is : List Instr),
    s.cfg.wf = true → s.ledStarted = true → s.pending = [] → s.plan = none →
    s.led.mode.length = s.cfg.nCh → expand s.cfg (.loadAll w spd modes) = some is →
    ∃ t, runOps is s = .next t ∧ t.led.bankPtr = 0#2 ∧ t.pending = [] ∧
      ∀ ch, ch < s.cfg.nCh →
        t.led.enabled[ch]? = some (w.getLsbD ch) ∧ t.led.mode[ch]? = modes[ch]?

/-- DERIVED (R103): "An SBA or PBA changes no output at once."  Whatever the scheduler's plan, ch_out,
the physical outputs, the phase and the counter are as before. -/
def Obligations.CommandsChangeNoOutputAtOnce : Prop :=
  ∀ (s t : State) (i : Instr),
    ((∃ a b c d e f g, i = .sba a b c d e f g) ∨ ∃ a b c d e f g h, i = .pba a b c d e f g h) →
    exec i s = .next t →
    t.led.chOut = s.led.chOut ∧ ledOut t = ledOut s ∧ t.led.phase = s.led.phase ∧
      t.led.pwmCounter = s.led.pwmCounter

/-- DERIVED (R55, R57, R70, R215, R216).  A command is a set of atomic writes.  Under every plan of the
scheduler, and whatever ticks and outstanding writes then fall in, in any order: at each moment every
field holds its old or its new value (an enable mask is never torn), and once the last write is done the
fields that commands write are those of the command applied in one go.  cmd_busy is 0 before the delivery,
1 from it while a write is outstanding, and 0 as soon as the last one is done. -/
def Obligations.InterleavedCommandConverges : Prop :=
  ∀ (s : State) (i : Instr) (plan : Option (List Nat)) (moves : List Move),
    ((∃ a b c d e f g, i = .sba a b c d e f g) ∨ ∃ a b c d e f g h, i = .pba a b c d e f g h) →
    i.wellFormed = true → s.cfg.wf = true → s.ledStarted = true → s.pending = [] →
    ∃ t u, exec i { s with plan := plan } = .next t ∧ exec i { s with plan := none } = .next u ∧
      let mid := moves.foldl (fun x m => m.apply x) t
      let done := settle mid
      (mid.led.enabled = s.led.enabled ∨ mid.led.enabled = u.led.enabled) ∧
      (mid.led.pulseSpeed = s.led.pulseSpeed ∨ mid.led.pulseSpeed = u.led.pulseSpeed) ∧
      (mid.led.bankPtr = s.led.bankPtr ∨ mid.led.bankPtr = u.led.bankPtr) ∧
      (∀ ch, mid.led.modeAt ch = s.led.modeAt ch ∨ mid.led.modeAt ch = u.led.modeAt ch) ∧
      done.led.enabled = u.led.enabled ∧ done.led.pulseSpeed = u.led.pulseSpeed ∧
      done.led.bankPtr = u.led.bankPtr ∧ done.led.mode = u.led.mode ∧ done.pending = [] ∧
      done.pan = s.pan ∧
      cmdBusy s = false ∧ (plan = some [] → cmdBusy t = true) ∧ (plan = none → cmdBusy t = false) ∧
      (cmdBusy mid = true ↔ mid.pending ≠ []) ∧
      (∀ w, mid.pending = [w] → cmdBusy (perform 0 mid) = false) ∧
      (∀ k, 2 ≤ mid.pending.length → cmdBusy (perform k mid) = true) ∧
      (cmdBusy mid = false → mid.led.enabled = u.led.enabled ∧ mid.led.pulseSpeed = u.led.pulseSpeed ∧
        mid.led.bankPtr = u.led.bankPtr ∧ mid.led.mode = u.led.mode) ∧ cmdBusy done = false

/-! ### PWM_TICK -/

/-- STATED (R127): the outputs from the counter and phase before the tick, then the counter and, at its
wrap, the phase; nothing else changes but the model's own bookkeeping. -/
def Obligations.PwmTickEffect : Prop :=
  ∀ s : State, s.cfg.wf = true → s.ledStarted = true →
    exec .pwmTick s =
      .next { s with
        led := { s.led with
          chOut := (List.range s.cfg.nCh).map fun ch =>
            s.led.enabledAt ch &&
              decide (s.led.pwmCounter.toNat < bright s.cfg (s.led.modeAt ch) s.led.phase)
          pwmCounter :=
            if s.led.pwmCounter = 0#8 then BitVec.ofNat 8 (s.cfg.maxB - 1)
            else s.led.pwmCounter - 1#8
          phase :=
            if s.led.pwmCounter = 0#8 then
              BitVec.ofNat 16 (s.led.phase.toNat + s.led.pulseSpeed.toNat * s.cfg.phaseScale)
            else s.led.phase }
        ledDiag := []
        ledOps := s.ledOps + 1 }

/-- STATED (R124): "A disabled channel's output is 0 at every PWM_TICK, whatever its mode and whatever
BRIGHT returns". -/
def Obligations.DisabledChannelsStayDark : Prop :=
  ∀ (s t : State) (ch : Nat), exec .pwmTick s = .next t → s.led.enabledAt ch = false →
    t.led.outAt ch = false

/-- DERIVED (R131): "Every enabled channel in the same pattern mode has the same output at every
PWM_TICK." -/
def Obligations.SamePatternSameOutput : Prop :=
  ∀ (s t : State) (ch ch' : Nat), exec .pwmTick s = .next t → ch < s.cfg.nCh → ch' < s.cfg.nCh →
    s.led.enabledAt ch = true → s.led.enabledAt ch' = true →
    129 ≤ (s.led.modeAt ch).toNat → (s.led.modeAt ch).toNat ≤ 132 →
    s.led.modeAt ch = s.led.modeAt ch' → t.led.outAt ch = t.led.outAt ch'

/-- STATED (R121): the lookup BRIGHT: a constant up to MAXB, PATTERN_FN for 129..132, 0 otherwise; and
its result lies in 0..MAXB (R120). -/
def Obligations.BrightnessLookup : Prop :=
  ∀ (c : Config) (mode : Byte) (ph : BitVec 16), c.wf = true →
    bright c mode ph =
      (if mode.toNat ≤ c.maxB then mode.toNat
       else if mode.toNat = 129 then patternValue c.pattern c.maxB .triangle ph
       else if mode.toNat = 130 then patternValue c.pattern c.maxB .rectangle ph
       else if mode.toNat = 131 then patternValue c.pattern c.maxB .fall ph
       else if mode.toNat = 132 then patternValue c.pattern c.maxB .rise ph
       else 0) ∧
    bright c mode ph ≤ c.maxB

/-- STATED (R126): every PATTERN_FN of a well-formed configuration has the properties (P1) to (P5). -/
def Obligations.PatternFunctionsAreLawful : Prop :=
  ∀ c : Config, c.wf = true → LawfulPattern c.maxB (patternValue c.pattern c.maxB)

/-- DERIVED (R9, R126).  The model shuts out no PATTERN_FN: every function with the properties of R126
is that of some well-formed `PatternFn`. -/
def Obligations.EveryLawfulPatternIsAvailable : Prop :=
  ∀ (maxB : Nat) (f : Pattern → BitVec 16 → Nat), 1 ≤ maxB → LawfulPattern maxB f →
    ∃ pf : PatternFn, pf.wf maxB = true ∧ ∀ p ph, patternValue pf maxB p ph = f p ph

/-- DERIVED (R125).  The default PATTERN_FN reaches both 0 and MAXB in each pattern. -/
def Obligations.StandardPatternReachesBothEnds : Prop :=
  ∀ (maxB : Nat) (p : Pattern), 1 ≤ maxB → maxB ≤ 128 →
    (∃ ph, patternValue .standard maxB p ph = 0) ∧ ∃ ph, patternValue .standard maxB p ph = maxB

/-- STATED (R128): the MAXB ticks that begin with pwm_counter = MAXB-1, with any field writes of commands
between them that change neither enabled[ch] nor mode[ch].  The phase is the same at every tick, the
channel is on exactly at the last b ticks, b its brightness, so at b of the MAXB ticks when it is enabled
and at none when it is not; and the next PWM cycle begins. -/
def Obligations.DutyCycleLaw : Prop :=
  ∀ (s : State) (ch : Nat) (writes : Nat → List FieldWrite), s.cfg.wf = true → s.ledStarted = true →
    s.led.pwmCounter.toNat = s.cfg.maxB - 1 → ch < s.cfg.nCh →
    ∃ before after : Nat → State, before 0 = s ∧
      (∀ n, exec .pwmTick (before n) = .next (after n) ∧
        before (n + 1) = { after n with led := (writes n).foldl (fun l w => w.apply l) (after n).led }) ∧
      ((∀ n, n < s.cfg.maxB → (before n).led.enabledAt ch = s.led.enabledAt ch ∧
          (before n).led.modeAt ch = s.led.modeAt ch) →
        let b := if s.led.enabledAt ch then bright s.cfg (s.led.modeAt ch) s.led.phase else 0
        (∀ n, n < s.cfg.maxB → (before n).led.phase = s.led.phase ∧
          (after n).led.outAt ch = decide (s.cfg.maxB - b ≤ n)) ∧
        ((List.range s.cfg.maxB).countP fun n => (after n).led.outAt ch) = b ∧
        (before s.cfg.maxB).led.pwmCounter = s.led.pwmCounter)

/-- STATED (R129): each physical output is its channel's registered output under the pin polarity, and
an output whose map entry names no channel is held inactive. -/
def Obligations.OutputFollowsMap : Prop :=
  ∀ (s : State) (p m : Nat), p < s.cfg.nOut → s.cfg.outMap[p]? = some m →
    (ledOut s).length = s.cfg.nOut ∧
    (m < s.cfg.nCh → (ledOut s)[p]? = some (s.led.outAt m == s.cfg.outActiveHigh)) ∧
    (s.cfg.nCh ≤ m → (ledOut s)[p]? = some (inactiveLevel s.cfg))

/-! ### RESET -/

/-- DERIVED (R211, R129).  The LED unit's reset values, whatever the previous state; every physical output
is inactive after it; the Panel unit is untouched.  No write that a half-applied command still owes can then
enable a channel or move bank_ptr (DEDUCED, log entry 8); that each other one is kept or dropped (a free
value) is the model's choice (DESIGN CHOICE, log entry 8). -/
def Obligations.ResetLedEffect : Prop :=
  ∀ s : State, s.cfg.wf = true →
    ∃ pending diag t, pending.Sublist s.pending ∧
      (∀ en, .enables en ∈ pending → ∀ b ∈ en, b = false) ∧
      (∀ v, .bank v ∈ pending → v = 0#2) ∧ exec .resetLed s = .next t ∧
      t = { s with
        led :=
          { enabled := List.replicate s.cfg.nCh false
            mode := List.replicate s.cfg.nCh s.cfg.ledModeReset
            pulseSpeed := 1#3
            bankPtr := 0#2
            pwmCounter := BitVec.ofNat 8 (s.cfg.maxB - 1)
            phase := 0#16
            chOut := List.replicate s.cfg.nCh false }
        ledStarted := true
        pending := pending
        ledDiag := diag
        ledOps := s.ledOps + 1 } ∧
      ∀ p, p < s.cfg.nOut → (ledOut t)[p]? = some (inactiveLevel s.cfg)

/-- DERIVED (R210, R211, R129): "RESET.LED then any number of PWM_TICKs with no command leaves every
led_out inactive."  That holds also of a RESET in the middle of a command, whatever writes of that command
survive it and fall between the ticks (DEDUCED, log entry 8). -/
def Obligations.ResetThenTicksStaysInactive : Prop :=
  ∀ (s : State), s.cfg.wf = true →
    (∀ n : Nat, ∃ t, runOps (.resetLed :: List.replicate n .pwmTick) s = .next t ∧
      ∀ p, p < t.cfg.nOut → (ledOut t)[p]? = some (inactiveLevel t.cfg)) ∧
    ∃ r, exec .resetLed s = .next r ∧ ∀ moves : List Move,
      let t := moves.foldl (fun x m => m.apply x) r
      ∀ p, p < s.cfg.nOut → (ledOut t)[p]? = some (inactiveLevel s.cfg)

/-- DERIVED (R212): the Panel unit's reset values, whatever the previous state; the LED unit is untouched.
(That the answer held on the report port becomes NoReport is the model's choice, log entry 5.) -/
def Obligations.ResetPanelEffect : Prop :=
  ∀ s : State, s.cfg.wf = true →
    ∃ diag answer, exec .resetPan s =
      .next { s with
        pan :=
          { level := List.replicate s.cfg.nIn false
            cnt := List.replicate s.cfg.nIn 0#7
            dirty := { keyboard := false, consumer := false, joystick1 := false, joystick2 := false,
                       joystick3 := false, joystick4 := false, mouse := false }
            lastJoy := 3#2
            mfGate := 0#8
            mfBurst := 0#16
            mfS := false
            qprev := { x := 0b00#2, y := 0b00#2 }
            delta := { x := 0#8, y := 0#8 } }
        panStarted := true
        answer := answer
        panDiag := diag
        panOps := s.panOps + 1 }

/-- DERIVED (R214, R59, R211, R212).  The boot order: from power-on, loading a well-formed configuration
and resetting each unit leaves both units at their reset values under it. -/
def Obligations.BootOrderReachesReset : Prop :=
  ∀ (c0 c : Config) (cmd : List Byte) (raw : RawIn) (p1 p2 : Option (List Nat)) (t1 t2 : Nat),
    c.wf = true →
    ∃ a b t, step (State.powerOn c0 [.load c, .bus (.led 0b100#3 cmd) p1 t1,
        .bus (.panel 0b100#3 raw) p2 t2]) = .next a ∧
      step a = .next b ∧ step b = .next t ∧ t.cfg = c ∧ t.ledStarted = true ∧ t.panStarted = true ∧
      t.led = (State.resetWith c).led ∧ t.pan = (State.resetWith c).pan ∧ t.pending = [] ∧
      t.inputs = []

/-! ### SAMPLE_TICK -/

/-- DERIVED (R158, R172, R145).  SAMPLE_TICK goes on for every raw vector, changes the Panel unit only,
leaves last_joy alone and never clears a dirty bit. -/
def Obligations.SampleTickOnlySetsDirtyBits : Prop :=
  ∀ (s : State) (raw : RawIn), s.cfg.wf = true → s.panStarted = true →
    ∃ pan diag, exec (.sampleTick raw) s =
        .next { s with pan := pan, panDiag := diag, panOps := s.panOps + 1 } ∧
      pan.lastJoy = s.pan.lastJoy ∧
      ∀ cat, s.pan.dirty.get cat = true → pan.dirty.get cat = true

/-- DERIVED (R142, R147, R149).  The levels and counts after a SAMPLE_TICK: each generic input is
debounced; where the shift level changed, an input that the two tables map to different functions and
that is then pressed is released; the multifire input's level and count stay. -/
def Obligations.LevelsAfterSample : Prop :=
  ∀ (s t : State) (raw : RawIn), exec (.sampleTick raw) s = .next t →
    s.pan.level.length = s.cfg.nIn → s.pan.cnt.length = s.cfg.nIn →
    (∀ i, i < s.cfg.nIn → multifireAt s.cfg ≠ some i →
      let old := s.pan.levelAt i
      let n := min ((s.pan.cntAt i).toNat + 1) 127
      let accepted := raw.getLsbD i ≠ old ∧ s.cfg.debounce ≤ n
      let lv := if accepted then raw.getLsbD i else old
      let released := shiftOn s.cfg t.pan ≠ shiftOn s.cfg s.pan ∧ shiftAt s.cfg ≠ some i ∧
        func (codeAt (activeTable s.cfg s.pan) i) ≠ func (codeAt (activeTable s.cfg t.pan) i) ∧
        lv = true
      (released → t.pan.levelAt i = false ∧ t.pan.cntAt i = 0#7) ∧
      (¬ released → t.pan.levelAt i = lv ∧
        (t.pan.cntAt i).toNat = if raw.getLsbD i = old ∨ accepted then 0 else n)) ∧
    ∀ m, multifireAt s.cfg = some m →
      t.pan.levelAt m = s.pan.levelAt m ∧ t.pan.cntAt m = s.pan.cntAt m

/-- DERIVED (R145, R146, R147, R148, R153, R157).  Exactly what a SAMPLE_TICK marks: a bit is set after it
if and only if it was set before, or an accepted change of a generic input that is not the shift input, a
change of the synthetic level, the release of a remapped input, a remapped multifire input while pressed,
or a quadrature step marks its category. -/
def Obligations.SampleTickMarksExactly : Prop :=
  ∀ (s t : State) (raw : RawIn), exec (.sampleTick raw) s = .next t →
    s.pan.level.length = s.cfg.nIn → s.pan.cnt.length = s.cfg.nIn →
    let c := s.cfg
    let tOld := activeTable c s.pan
    let tNew := activeTable c t.pan
    let generic := fun i => i < c.nIn ∧ multifireAt c ≠ some i ∧ shiftAt c ≠ some i
    let accepted := fun i => raw.getLsbD i ≠ s.pan.levelAt i ∧
      c.debounce ≤ min ((s.pan.cntAt i).toNat + 1) 127
    let lv := fun i => if accepted i then raw.getLsbD i else s.pan.levelAt i
    let shifted := shiftOn c t.pan ≠ shiftOn c s.pan
    let remap := fun i => func (codeAt tOld i) ≠ func (codeAt tNew i)
    ∀ cat, t.pan.dirty.get cat = true ↔
      s.pan.dirty.get cat = true ∨
      (∃ i, generic i ∧ accepted i ∧ category (codeAt tOld i) = some cat) ∨
      (∃ m, multifireAt c = some m ∧ t.pan.mfS ≠ s.pan.mfS ∧
        category (codeAt tOld m) = some cat) ∨
      (∃ i, generic i ∧ shifted ∧ remap i ∧ lv i = true ∧ category (codeAt tOld i) = some cat) ∨
      (∃ m, multifireAt c = some m ∧ shifted ∧ remap m ∧ t.pan.mfS = true ∧
        (category (codeAt tOld m) = some cat ∨ category (codeAt tNew m) = some cat)) ∨
      (cat = .mouse ∧ ∃ a, qstep (s.pan.qprev.get a) (t.pan.qprev.get a) ≠ 0)

/-- STATED (R143, R144): "The shift table is active exactly while the shift input's debounced level is 1, so
the shift key is momentary", and without a valid shift input MAP_NORMAL is always active.  The multifire
input is read as mf_s, every other input by its level; the shift input is never read; a function is active
when any input that the active table maps to it is (an OR). -/
def Obligations.ShiftTableWhileShiftHeld : Prop :=
  ∀ (c : Config) (p : Panel),
    (∀ i, c.shiftIndex = some i → i < c.nIn →
      activeTable c p = if p.levelAt i = true then c.mapShift else c.mapNormal) ∧
    ((∀ i, c.shiftIndex = some i → c.nIn ≤ i) → activeTable c p = c.mapNormal) ∧
    (shiftOn c p = true ↔ ∃ i, c.shiftIndex = some i ∧ i < c.nIn ∧ p.levelAt i = true) ∧
    (∀ i, i < c.nIn →
      effLevel c p i = (if c.mfIndex = some i then p.mfS else p.levelAt i) ∧
      pressed c p i = (decide (c.shiftIndex ≠ some i) && effLevel c p i)) ∧
    ∀ f, active c p f = true ↔ ∃ i, i < c.nIn ∧ c.shiftIndex ≠ some i ∧
      (if c.mfIndex = some i then p.mfS else p.levelAt i) = true ∧
      func (codeAt (activeTable c p) i) = some f

/-- DERIVED (R150, R151, R152).  The gate, the burst counter and the synthetic level after a SAMPLE_TICK;
without a valid multifire input they stay. -/
def Obligations.MultifireMachineStep : Prop :=
  ∀ (s t : State) (raw : RawIn), exec (.sampleTick raw) s = .next t →
    (multifireAt s.cfg = none → t.pan.mfGate = s.pan.mfGate ∧ t.pan.mfBurst = s.pan.mfBurst ∧
      t.pan.mfS = s.pan.mfS) ∧
    ∀ m, multifireAt s.cfg = some m →
      let total := s.cfg.mfCount * s.cfg.mfCycle
      let counts := raw.getLsbD m = true ∧ s.pan.mfBurst.toNat = 0 ∧
        s.pan.mfGate.toNat < s.cfg.mfLatency
      let gate := if raw.getLsbD m = false then 0
        else if counts then s.pan.mfGate.toNat + 1 else s.pan.mfGate.toNat
      let burst := if counts ∧ gate = s.cfg.mfLatency then total else s.pan.mfBurst.toNat
      t.pan.mfGate.toNat = gate ∧ t.pan.mfBurst.toNat = burst - 1 ∧
      t.pan.mfS = decide (0 < burst ∧ (total - burst) % s.cfg.mfCycle < s.cfg.mfCycle / 2)

/-- DERIVED (R154, R151, R152).  A multifire input held from rest, whatever the other inputs do: after n
samples the synthetic level is 1 exactly in the first halves of the MF_COUNT cycles that begin at sample
MF_LATENCY. -/
def Obligations.BurstLaw : Prop :=
  ∀ (raws : List RawIn) (s : State) (m : Nat),
    s.cfg.wf = true → s.panStarted = true → multifireAt s.cfg = some m →
    s.pan.mfGate = 0#8 → s.pan.mfBurst = 0#16 → s.pan.mfS = false →
    (∀ r ∈ raws, r.getLsbD m = true) →
    ∃ t, runOps (raws.map .sampleTick) s = .next t ∧
      t.pan.mfS = decide (s.cfg.mfLatency ≤ raws.length ∧
        raws.length < s.cfg.mfLatency + s.cfg.mfCount * s.cfg.mfCycle ∧
        (raws.length - s.cfg.mfLatency) % s.cfg.mfCycle < s.cfg.mfCycle / 2)

/-- DERIVED (R154).  A held multifire input gives exactly MF_COUNT synthetic presses and MF_COUNT
synthetic releases, however long it is held beyond the burst. -/
def Obligations.HeldMultifirePressesCountTimes : Prop :=
  ∀ (raws : List RawIn) (s : State) (m : Nat),
    s.cfg.wf = true → s.panStarted = true → multifireAt s.cfg = some m →
    s.pan.mfGate = 0#8 → s.pan.mfBurst = 0#16 → s.pan.mfS = false →
    (∀ r ∈ raws, r.getLsbD m = true) →
    s.cfg.mfLatency + s.cfg.mfCount * s.cfg.mfCycle - 1 ≤ raws.length →
    let on : Nat → Bool := fun n => match runOps ((raws.take n).map .sampleTick) s with
      | .next t => t.pan.mfS
      | _ => false
    ((List.range raws.length).countP fun n => !on n && on (n + 1)) = s.cfg.mfCount ∧
    ((List.range raws.length).countP fun n => on n && !on (n + 1)) = s.cfg.mfCount

/-- STATED (R156): the quadrature step, entry for entry; a double change counts 0. -/
def Obligations.QuadratureStepTable : Prop :=
  [0b00#2, 0b10#2, 0b11#2, 0b01#2].map (fun prev =>
      [0b00#2, 0b10#2, 0b11#2, 0b01#2].map fun q => qstep prev q) =
    [[0, 1, 0, -1], [-1, 0, 1, 0], [0, -1, 0, 1], [1, 0, -1, 0]]

/-- DERIVED (R155, R157, R38).  After a SAMPLE_TICK qprev is the quadrature state of the levels and table
at its end, phase A in bit 1 and phase B in bit 0, and delta has moved by the quadrature step, clamped to
-127..127. -/
def Obligations.QuadratureAccumulates : Prop :=
  ∀ (s t : State) (raw : RawIn) (a : Axis), exec (.sampleTick raw) s = .next t →
    t.pan.qprev.get a = quadState s.cfg t.pan a ∧
    (t.pan.qprev.get a).getLsbD 1 = active s.cfg t.pan (.phase a .a) ∧
    (t.pan.qprev.get a).getLsbD 0 = active s.cfg t.pan (.phase a .b) ∧
    (let d := qstep (s.pan.qprev.get a) (t.pan.qprev.get a)
     (t.pan.delta.get a).toInt =
       if d = 0 then (s.pan.delta.get a).toInt
       else max (-127) (min 127 ((s.pan.delta.get a).toInt + d)))

/-- DERIVED (R160, R142).  A generic input that is not the shift input, held at v for at least D samples
with no shift cleanup: its level is v and stays so, at most one change was accepted (the level flips once
at most), and a further sample at v accepts none. -/
def Obligations.DebounceIdempotence : Prop :=
  ∀ (raws : List RawIn) (s : State) (i : Nat) (v : Bool),
    s.cfg.wf = true → s.panStarted = true → s.pan.level.length = s.cfg.nIn →
    s.pan.cnt.length = s.cfg.nIn → i < s.cfg.nIn → multifireAt s.cfg ≠ some i →
    shiftAt s.cfg ≠ some i → (∀ r ∈ raws, r.getLsbD i = v) → s.cfg.debounce ≤ raws.length →
    (∀ n u, runOps ((raws.take n).map .sampleTick) s = .next u →
      shiftOn s.cfg u.pan = shiftOn s.cfg s.pan) →
    ∃ t, runOps (raws.map .sampleTick) s = .next t ∧ t.pan.levelAt i = v ∧ t.pan.cntAt i = 0#7 ∧
      (∀ raw : RawIn, raw.getLsbD i = v → accepts s.cfg raw i t.pan = false) ∧
      ∃ k, ∀ n u, n ≤ raws.length → runOps ((raws.take n).map .sampleTick) s = .next u →
        u.pan.levelAt i = if n < k then s.pan.levelAt i else v

/-- DERIVED (R161, R147, R142).  Input i is held under the old table's key K1 and the shift level changes:
i is released at once, K1's category is marked, and K1 is active only through another input; if i's raw
level stays 1 for D samples with no further shift change, i is pressed again and the category of its new
key K2 is marked. -/
def Obligations.ShiftOverlayCorrectness : Prop :=
  ∀ (s t : State) (raw : RawIn) (i : Nat) (k1 k2 : Function),
    exec (.sampleTick raw) s = .next t →
    s.pan.level.length = s.cfg.nIn → s.pan.cnt.length = s.cfg.nIn →
    i < s.cfg.nIn → multifireAt s.cfg ≠ some i → shiftAt s.cfg ≠ some i →
    s.pan.levelAt i = true → shiftOn s.cfg t.pan ≠ shiftOn s.cfg s.pan →
    func (codeAt (activeTable s.cfg s.pan) i) = some k1 →
    func (codeAt (activeTable s.cfg t.pan) i) = some k2 → k1 ≠ k2 →
    t.pan.levelAt i = false ∧ t.pan.dirty.get k1.category = true ∧
    (active s.cfg t.pan k1 = true → ∃ j, j ≠ i ∧ j < s.cfg.nIn ∧ pressed s.cfg t.pan j = true ∧
      func (codeAt (activeTable s.cfg t.pan) j) = some k1) ∧
    ∀ raws : List RawIn, raws.length = s.cfg.debounce → (∀ r ∈ raws, r.getLsbD i = true) →
      (∀ n u, runOps ((raws.take n).map .sampleTick) t = .next u →
        shiftOn s.cfg u.pan = shiftOn s.cfg t.pan) →
      ∃ u, runOps (raws.map .sampleTick) t = .next u ∧ u.pan.levelAt i = true ∧
        u.pan.dirty.get k2.category = true

/-! ### GET_REPORT -/

/-- STATED (R178): "When no dirty bit is set, GET_REPORT returns NoReport and changes nothing" (the
model's own bookkeeping apart). -/
def Obligations.NoReportChangesNothing : Prop :=
  ∀ s : State, s.cfg.wf = true → s.panStarted = true → (∀ cat, s.pan.dirty.get cat = false) →
    exec .getReport s =
      .next { s with answer := .noReport, panDiag := [], panOps := s.panOps + 1 }

/-- DERIVED (R173, R170, R79, R83).  With some category dirty GET_REPORT returns the report of one dirty
category, with its identifier first and its length, clears that category's bit and no other; it clears the
deltas for Mouse only, moves last_joy for a joystick only, and changes no other state. -/
def Obligations.ReportClearsItsCategory : Prop :=
  ∀ s : State, s.cfg.wf = true → s.panStarted = true → (∃ cat, s.pan.dirty.get cat = true) →
    ∃ cat bytes pan diag, exec .getReport s =
        .next { s with pan := pan, answer := .report bytes, panDiag := diag,
                       panOps := s.panOps + 1 } ∧
      s.pan.dirty.get cat = true ∧ bytes.head? = some (reportIdOf s.cfg cat) ∧
      bytes.length = reportLength cat ∧
      (∀ d, pan.dirty.get d = (decide (d ≠ cat) && s.pan.dirty.get d)) ∧
      pan = { s.pan with dirty := pan.dirty, lastJoy := pan.lastJoy, delta := pan.delta } ∧
      (cat = .mouse → pan.delta = { x := 0#8, y := 0#8 }) ∧
      (cat ≠ .mouse → pan.delta = s.pan.delta) ∧
      (∀ j, cat = Category.joystick j → pan.lastJoy = j) ∧
      ((∀ j, cat ≠ Category.joystick j) → pan.lastJoy = s.pan.lastJoy)

/-- DERIVED (R171).  The arbitration order: the report is of a dirty category, and no dirty category
stands higher (joysticks, then Mouse, then Keyboard, then Consumer). -/
def Obligations.CategoryPriority : Prop :=
  ∀ (s t : State) (bytes : List Byte), exec .getReport s = .next t → t.answer = .report bytes →
    let rank : Category → Nat := fun
      | .mouse => 1
      | .keyboard => 2
      | .consumer => 3
      | _ => 0
    ∃ cat, s.pan.dirty.get cat = true ∧ bytes.head? = some (reportIdOf s.cfg cat) ∧
      ∀ d, s.pan.dirty.get d = true → rank cat ≤ rank d

/-- DERIVED (R172).  The joystick emitted is the first dirty one of last_joy+1, last_joy+2, last_joy+3,
last_joy, and last_joy becomes it. -/
def Obligations.JoystickRoundRobin : Prop :=
  ∀ (s : State) (k : Nat), s.cfg.wf = true → s.panStarted = true → 1 ≤ k → k ≤ 4 →
    s.pan.dirty.get (Category.joystick (s.pan.lastJoy + BitVec.ofNat 2 k)) = true →
    (∀ k', 1 ≤ k' → k' < k →
      s.pan.dirty.get (Category.joystick (s.pan.lastJoy + BitVec.ofNat 2 k')) = false) →
    ∃ bytes diag, exec .getReport s =
      .next { s with
        pan := { s.pan.clearDirty (Category.joystick (s.pan.lastJoy + BitVec.ofNat 2 k)) with
                 lastJoy := s.pan.lastJoy + BitVec.ofNat 2 k }
        answer := .report bytes, panDiag := diag, panOps := s.panOps + 1 } ∧
      bytes.head? = some
        (reportIdOf s.cfg (Category.joystick (s.pan.lastJoy + BitVec.ofNat 2 k)))

/-- DERIVED (R172, R179).  No joystick is starved by another: a dirty joystick is emitted within four
GET_REPORTs, whatever samples fall before each of them. -/
def Obligations.NoJoystickStarves : Prop :=
  ∀ (s : State) (j : BitVec 2) (r1 r2 r3 r4 : List RawIn), s.cfg.wf = true → s.panStarted = true →
    s.pan.dirty.get (Category.joystick j) = true →
    ∃ t1 t2 t3 t4, runOps (poll r1) s = .next t1 ∧ runOps (poll r2) t1 = .next t2 ∧
      runOps (poll r3) t2 = .next t3 ∧ runOps (poll r4) t3 = .next t4 ∧
      ∃ t ∈ [t1, t2, t3, t4], t.pan.lastJoy = j ∧ ∃ bytes, t.answer = .report bytes ∧
        bytes.head? = some (reportIdOf s.cfg (Category.joystick j))

/-- STATED (R183): "The output rep_pending equals the OR of the seven dirty bits at every moment.  It tells
the host that a GET_REPORT would return a report." -/
def Obligations.RepPendingMeansReport : Prop :=
  ∀ s : State,
    (repPending s = true ↔ ∃ cat, s.pan.dirty.get cat = true) ∧
    (s.cfg.wf = true → s.panStarted = true →
      ∃ t, exec .getReport s = .next t ∧ (repPending s = true ↔ repValid t = true))

/-- DERIVED (R174, R180, R85, R86).  The keyboard report: the identifier, a modifier byte whose bit m says
whether modifier m is pressed, and the first six distinct usages of the pressed keys in ascending input
order, padded with zeros. -/
def Obligations.KeyboardReportBytes : Prop :=
  ∀ s : State, s.cfg.wf = true → s.panStarted = true →
    (∀ j, s.pan.dirty.get (Category.joystick j) = false) → s.pan.dirty.get .mouse = false →
    s.pan.dirty.get .keyboard = true →
    ∃ t mods, exec .getReport s = .next t ∧
      t.answer = .report (s.cfg.reportId.keyboard :: mods ::
        ((pressedUsages s.cfg s.pan).eraseDups ++ List.replicate 6 0x00#8).take 6) ∧
      ∀ m : BitVec 3, mods.getLsbD m.toNat = active s.cfg s.pan (.modifier m)

/-- DERIVED (R175, R87).  The consumer report: bit k says whether CONS k is pressed. -/
def Obligations.ConsumerReportBytes : Prop :=
  ∀ s : State, s.cfg.wf = true → s.panStarted = true →
    (∀ cat, s.pan.dirty.get cat = decide (cat = .consumer)) →
    ∃ t mask, exec .getReport s = .next t ∧
      t.answer = .report [s.cfg.reportId.consumer, mask] ∧
      ∀ k : BitVec 3, mask.getLsbD k.toNat = active s.cfg s.pan (.consumer k)

/-- DERIVED (R176, R88).  The joystick report: x = Right - Left in bits 3:0 and y = Down - Up in bits 7:4
as 4-bit two's-complement values, and a button byte. -/
def Obligations.JoystickReportBytes : Prop :=
  ∀ (s t : State) (j : BitVec 2), exec .getReport s = .next t → pickJoystick s.pan = some j →
    let on := fun d => active s.cfg s.pan (.joyDir j d)
    let diff := fun (plus minus : Bool) => ((if plus then 1 else 0) - (if minus then 1 else 0) : Int)
    ∃ dir btn, t.answer = .report [reportIdOf s.cfg (Category.joystick j), dir, btn] ∧
      (dir.extractLsb' 0 4).toInt = diff (on .right) (on .left) ∧
      (dir.extractLsb' 4 4).toInt = diff (on .down) (on .up) ∧
      ∀ k : BitVec 3, btn.getLsbD k.toNat = active s.cfg s.pan (.joyButton j k)

/-- DERIVED (R177, R89).  The mouse report: three button bits with bits 7:3 zero, and the deltas as they
stood, which are then cleared. -/
def Obligations.MouseReportBytes : Prop :=
  ∀ s : State, s.cfg.wf = true → s.panStarted = true →
    (∀ j, s.pan.dirty.get (Category.joystick j) = false) → s.pan.dirty.get .mouse = true →
    ∃ t btn, exec .getReport s = .next t ∧
      t.answer = .report [s.cfg.reportId.mouse, btn, s.pan.delta.x, s.pan.delta.y] ∧
      (∀ k : Nat, btn.getLsbD k =
        (decide (k < 3) && active s.cfg s.pan (.mouseButton (BitVec.ofNat 2 k)))) ∧
      t.pan.delta = { x := 0#8, y := 0#8 }

/-- DERIVED (R71, R52, R83).  A legal report on the report port: rep_valid = 1, rep_len is its length, and
byte k of rep_data is byte k of the report for every k below the length.  That it stands there at every
moment until the next rep_req, and not only in answer to one, is the model's choice (DESIGN CHOICE, log
entry 5). -/
def Obligations.ReportStandsOnPort : Prop :=
  ∀ (s : State) (bytes : List Byte), s.answer = .report bytes → s.answer.Legal s.cfg →
    repValid s = true ∧ (repLen s).toNat = bytes.length ∧
    ∀ k, k < bytes.length → bytes[k]? = some ((repData s).extractLsb' (8 * k) 8)

/-! ### Whole-machine rules -/

/-- DERIVED (R20, R23, R25, R29, R30, R32, R38, R39, R149, R150).  Every step keeps the state legal: the
arrays' lengths, the legal values of every field, the multifire input on its own path, qprev equal to the
current quadrature state, and the report formats. -/
def Obligations.StepKeepsStateLegal : Prop :=
  ∀ s t : State, s.Legal → step s = .next t → t.Legal

/-- DERIVED (R20, R30, R211, R212, R213).  The states the block starts from are legal.  Their own fields
(nothing outstanding, NoReport before any request) and the configuration of `State.reset` are the model's
choices (DESIGN CHOICE, log entries 4 and 2). -/
def Obligations.StartingStatesAreLegal : Prop :=
  ∀ (c : Config) (inputs : List Input), c.wf = true →
    (State.resetWith c).Legal ∧ (State.powerOn c inputs).Legal ∧ State.reset.Legal

/-- DERIVED (R190, R58, R220).  Under the host's duties the block never stops: from every legal state every
step answers a next state. -/
def Obligations.DutifulStepsGoOn : Prop :=
  ∀ s : State, s.Legal → Dutiful s → ∃ t, step s = .next t

/-- DERIVED (R59, R45).  No step changes the configuration once a unit has had its first RESET. -/
def Obligations.ConfigurationNeverChanges : Prop :=
  ∀ s t : State, s.ledStarted = true ∨ s.panStarted = true → step s = .next t → t.cfg = s.cfg

/-- DERIVED (R2): "They share no state."  An operation of one unit leaves everything of the other as it
was. -/
def Obligations.UnitsShareNoState : Prop :=
  ∀ (i : Instr) (s t : State), exec i s = .next t →
    (((∃ a b c d e f g, i = .sba a b c d e f g) ∨ (∃ a b c d e f g h, i = .pba a b c d e f g h) ∨
        i = .pwmTick ∨ i = .resetLed) →
      t.pan = s.pan ∧ t.panStarted = s.panStarted ∧ t.answer = s.answer ∧ t.panDiag = s.panDiag ∧
        t.panOps = s.panOps) ∧
    (((∃ raw, i = .sampleTick raw) ∨ i = .getReport ∨ i = .resetPan) →
      t.led = s.led ∧ t.ledStarted = s.ledStarted ∧ t.pending = s.pending ∧ t.plan = s.plan ∧
        t.ledDiag = s.ledDiag ∧ t.ledOps = s.ledOps)

/-- DERIVED (R2, R56).  Steps of one unit never observe the other: what an LED operation does depends on
the LED unit only, and what a Panel operation does on the Panel unit only.  The clauses on the
answer after a SAMPLE_TICK (it stays as it was, so it is the same where the answers before it were) and
after RESET.PAN (it is NoReport whatever it was) are the model's choice (DESIGN CHOICE, log entry 5). -/
def Obligations.UnitsDoNotObserveEachOther : Prop :=
  ∀ (i : Instr) (s s' t : State), s'.cfg = s.cfg → exec i s = .next t →
    (((∃ a b c d e f g, i = .sba a b c d e f g) ∨ (∃ a b c d e f g h, i = .pba a b c d e f g h) ∨
        i = .pwmTick ∨ i = .resetLed) →
      s'.led = s.led → s'.ledStarted = s.ledStarted → s'.pending = s.pending → s'.plan = s.plan →
      s'.ledOps = s.ledOps →
      ∃ t', exec i s' = .next t' ∧ t'.led = t.led ∧ t'.pending = t.pending ∧ ledOut t' = ledOut t ∧
        t'.ledDiag = t.ledDiag) ∧
    (((∃ raw, i = .sampleTick raw) ∨ i = .getReport ∨ i = .resetPan) →
      s'.pan = s.pan → s'.panStarted = s.panStarted →
      ∃ t', exec i s' = .next t' ∧ t'.pan = t.pan ∧ t'.panDiag = t.panDiag ∧
        (i = .getReport ∨ i = .resetPan ∨ s'.answer = s.answer → t'.answer = t.answer))

/-- DERIVED (R191, R192).  A recorded condition is one that the operation met, and every condition it met
is recorded; the diagnostic port shows none but those, each at most as often as it is recorded; and
"Diagnostics change no state of the block and affect no other output": what was reported before an
operation changes nothing of what it does.  That a preempted command's conditions are recorded at its
delivery is the model's choice (DESIGN CHOICE, log entry 11). -/
def Obligations.DiagnosticsChangeNothing : Prop :=
  (∀ (i : Instr) (s t : State), exec i s = .next t →
    (OfLed i → ∀ x, x ∈ t.ledDiag ↔ DiagCode.Met i s t x) ∧
    (OfPanel i → ∀ x, x ∈ t.panDiag ↔ DiagCode.Met i s t x)) ∧
  (∀ s : State, (ledDiagEvents s).Subperm (s.ledDiag.map DiagCode.code) ∧
    (panDiagEvents s).Subperm (s.panDiag.map DiagCode.code)) ∧
  ∀ (i : Instr) (s t : State) (d d' : List DiagCode),
    exec i { s with ledDiag := d, panDiag := d' } = .next t →
    ∃ t', exec i s = .next t' ∧
      { t' with ledDiag := [], panDiag := [] } = { t with ledDiag := [], panDiag := [] }

/-! ### Logical key codes -/

/-- DERIVED (R80, R81, R82).  func and category of every 16-bit key code, class by class: NONE for KEY with
usage 0, JOY f = 12..15, MOUSE f = 7..15 and the classes 0x0 and 0x6..0xF; NONE has no category; and payload
bits that the class does not name do not matter.  (A function is a constructor instead of the code with its
ignored bits cleared: DESIGN CHOICE, log entry 22.) -/
def Obligations.KeyCodesNameFunctions : Prop :=
  (∀ code : KeyCode,
    let cls := (code.extractLsb' 12 4).toNat
    let u := code.extractLsb' 0 8
    let low := code.extractLsb' 0 3
    let n := code.extractLsb' 8 2
    let f := (code.extractLsb' 0 4).toNat
    func code =
      (if cls = 1 then (if u = 0#8 then none else some (.key u))
       else if cls = 2 then some (.modifier low)
       else if cls = 3 then some (.consumer low)
       else if cls = 4 then
        (if f = 0 then some (.joyDir n .up) else if f = 1 then some (.joyDir n .down)
         else if f = 2 then some (.joyDir n .left) else if f = 3 then some (.joyDir n .right)
         else if f ≤ 11 then some (.joyButton n (BitVec.ofNat 3 (f - 4))) else none)
       else if cls = 5 then
        (if f = 0 then some (.phase .x .a) else if f = 1 then some (.phase .x .b)
         else if f = 2 then some (.phase .y .a) else if f = 3 then some (.phase .y .b)
         else if f ≤ 6 then some (.mouseButton (BitVec.ofNat 2 (f - 4))) else none)
       else none) ∧
    category code =
      (if (cls = 1 ∧ u ≠ 0#8) ∨ cls = 2 then some .keyboard
       else if cls = 3 then some .consumer
       else if cls = 4 ∧ f ≤ 11 then
        (if n = 0#2 then some .joystick1 else if n = 1#2 then some .joystick2
         else if n = 2#2 then some .joystick3 else some .joystick4)
       else if cls = 5 ∧ f ≤ 6 then some .mouse
       else none)) ∧
  ∀ code code' : KeyCode,
    let cls := (code.extractLsb' 12 4).toNat
    code'.extractLsb' 12 4 = code.extractLsb' 12 4 →
    (cls = 1 → code'.extractLsb' 0 8 = code.extractLsb' 0 8) →
    (cls = 2 ∨ cls = 3 → code'.extractLsb' 0 3 = code.extractLsb' 0 3) →
    (cls = 4 → code'.extractLsb' 8 2 = code.extractLsb' 8 2) →
    (cls = 4 ∨ cls = 5 → code'.extractLsb' 0 4 = code.extractLsb' 0 4) →
    func code' = func code ∧ category code' = category code
end

