-- ==== Sys2Proof/Laws/State.lean ====
section
/-! SUPPORT. The small lemmas of the state: one per field per update, so that no later proof unfolds
an update or a record. -/

namespace Sys2Proof.Machine

/-! ### Dirty bits -/

@[simp] theorem Dirty.get_set (d : Dirty) (c c' : Category) (v : Bool) :
    (d.set c v).get c' = if c' = c then v else d.get c' := by
  cases c <;> cases c' <;> rfl

@[simp] theorem Dirty.get_clean (c : Category) : Dirty.clean.get c = false := by cases c <;> rfl

theorem Dirty.ext_get {d d' : Dirty} (h : ∀ c, d.get c = d'.get c) : d = d' := by
  cases d; cases d'
  have h1 := h .keyboard; have h2 := h .consumer; have h3 := h .joystick1; have h4 := h .joystick2
  have h5 := h .joystick3; have h6 := h .joystick4; have h7 := h .mouse
  simp only [Dirty.get] at h1 h2 h3 h4 h5 h6 h7
  simp only [h1, h2, h3, h4, h5, h6, h7]

theorem Dirty.any_eq_true {d : Dirty} : d.any = true ↔ ∃ c, d.get c = true := by
  constructor
  · intro h
    obtain ⟨c, _, hc⟩ := List.any_eq_true.mp h
    exact ⟨c, hc⟩
  · rintro ⟨c, hc⟩
    exact List.any_eq_true.mpr ⟨c, by cases c <;> simp [Category.all], hc⟩

/-! ### Marking and clearing -/

@[simp] theorem Panel.mark_level (p : Panel) (c : Option Category) : (p.mark c).level = p.level := by
  cases c <;> rfl
@[simp] theorem Panel.mark_cnt (p : Panel) (c : Option Category) : (p.mark c).cnt = p.cnt := by
  cases c <;> rfl
@[simp] theorem Panel.mark_lastJoy (p : Panel) (c : Option Category) :
    (p.mark c).lastJoy = p.lastJoy := by cases c <;> rfl
@[simp] theorem Panel.mark_mfGate (p : Panel) (c : Option Category) : (p.mark c).mfGate = p.mfGate := by
  cases c <;> rfl
@[simp] theorem Panel.mark_mfBurst (p : Panel) (c : Option Category) :
    (p.mark c).mfBurst = p.mfBurst := by cases c <;> rfl
@[simp] theorem Panel.mark_mfS (p : Panel) (c : Option Category) : (p.mark c).mfS = p.mfS := by
  cases c <;> rfl
@[simp] theorem Panel.mark_qprev (p : Panel) (c : Option Category) : (p.mark c).qprev = p.qprev := by
  cases c <;> rfl
@[simp] theorem Panel.mark_delta (p : Panel) (c : Option Category) : (p.mark c).delta = p.delta := by
  cases c <;> rfl
@[simp] theorem Panel.mark_dirty (p : Panel) (c : Option Category) (d : Category) :
    (p.mark c).dirty.get d = (p.dirty.get d || decide (c = some d)) := by
  cases c with
  | none => simp [Panel.mark]
  | some c => by_cases h : d = c <;> simp [Panel.mark, h, eq_comm]

@[simp] theorem Panel.clearDirty_level (p : Panel) (c : Category) : (p.clearDirty c).level = p.level := rfl
@[simp] theorem Panel.clearDirty_cnt (p : Panel) (c : Category) : (p.clearDirty c).cnt = p.cnt := rfl
@[simp] theorem Panel.clearDirty_lastJoy (p : Panel) (c : Category) :
    (p.clearDirty c).lastJoy = p.lastJoy := rfl
@[simp] theorem Panel.clearDirty_mfGate (p : Panel) (c : Category) :
    (p.clearDirty c).mfGate = p.mfGate := rfl
@[simp] theorem Panel.clearDirty_mfBurst (p : Panel) (c : Category) :
    (p.clearDirty c).mfBurst = p.mfBurst := rfl
@[simp] theorem Panel.clearDirty_mfS (p : Panel) (c : Category) : (p.clearDirty c).mfS = p.mfS := rfl
@[simp] theorem Panel.clearDirty_qprev (p : Panel) (c : Category) :
    (p.clearDirty c).qprev = p.qprev := rfl
@[simp] theorem Panel.clearDirty_delta (p : Panel) (c : Category) :
    (p.clearDirty c).delta = p.delta := rfl
@[simp] theorem Panel.clearDirty_dirty (p : Panel) (c d : Category) :
    (p.clearDirty c).dirty.get d = if d = c then false else p.dirty.get d := by
  simp [Panel.clearDirty]

/-! ### Arrays -/

theorem getD_set {α : Type} (l : List α) (i j : Nat) (v d : α) :
    (l.set i v).getD j d = if j = i ∧ i < l.length then v else l.getD j d := by
  simp only [List.getD_eq_getElem?_getD, List.getElem?_set]
  by_cases hij : i = j
  · subst hij
    by_cases hl : i < l.length
    · simp [hl]
    · simp [hl]
  · simp [hij, eq_comm]

@[simp] theorem Panel.setLevel_levelAt (p : Panel) (i j : Nat) (v : Bool) :
    (p.setLevel i v).levelAt j = if j = i ∧ i < p.level.length then v else p.levelAt j :=
  getD_set _ _ _ _ _
@[simp] theorem Panel.setCnt_cntAt (p : Panel) (i j : Nat) (v : BitVec 7) :
    (p.setCnt i v).cntAt j = if j = i ∧ i < p.cnt.length then v else p.cntAt j :=
  getD_set _ _ _ _ _
@[simp] theorem Panel.setCnt_levelAt (p : Panel) (i j : Nat) (v : BitVec 7) :
    (p.setCnt i v).levelAt j = p.levelAt j := rfl
@[simp] theorem Panel.setLevel_cntAt (p : Panel) (i j : Nat) (v : Bool) :
    (p.setLevel i v).cntAt j = p.cntAt j := rfl
@[simp] theorem Panel.mark_levelAt (p : Panel) (c : Option Category) (j : Nat) :
    (p.mark c).levelAt j = p.levelAt j := by cases c <;> rfl
@[simp] theorem Panel.mark_cntAt (p : Panel) (c : Option Category) (j : Nat) :
    (p.mark c).cntAt j = p.cntAt j := by cases c <;> rfl

@[simp] theorem Panel.setLevel_level_length (p : Panel) (i : Nat) (v : Bool) :
    (p.setLevel i v).level.length = p.level.length := by simp [Panel.setLevel]
@[simp] theorem Panel.setLevel_cnt (p : Panel) (i : Nat) (v : Bool) : (p.setLevel i v).cnt = p.cnt := rfl
@[simp] theorem Panel.setLevel_dirty (p : Panel) (i : Nat) (v : Bool) :
    (p.setLevel i v).dirty = p.dirty := rfl
@[simp] theorem Panel.setLevel_lastJoy (p : Panel) (i : Nat) (v : Bool) :
    (p.setLevel i v).lastJoy = p.lastJoy := rfl
@[simp] theorem Panel.setLevel_mfGate (p : Panel) (i : Nat) (v : Bool) :
    (p.setLevel i v).mfGate = p.mfGate := rfl
@[simp] theorem Panel.setLevel_mfBurst (p : Panel) (i : Nat) (v : Bool) :
    (p.setLevel i v).mfBurst = p.mfBurst := rfl
@[simp] theorem Panel.setLevel_mfS (p : Panel) (i : Nat) (v : Bool) :
    (p.setLevel i v).mfS = p.mfS := rfl
@[simp] theorem Panel.setLevel_qprev (p : Panel) (i : Nat) (v : Bool) :
    (p.setLevel i v).qprev = p.qprev := rfl
@[simp] theorem Panel.setLevel_delta (p : Panel) (i : Nat) (v : Bool) :
    (p.setLevel i v).delta = p.delta := rfl

@[simp] theorem Panel.setCnt_level (p : Panel) (i : Nat) (v : BitVec 7) :
    (p.setCnt i v).level = p.level := rfl
@[simp] theorem Panel.setCnt_cnt_length (p : Panel) (i : Nat) (v : BitVec 7) :
    (p.setCnt i v).cnt.length = p.cnt.length := by simp [Panel.setCnt]
@[simp] theorem Panel.setCnt_dirty (p : Panel) (i : Nat) (v : BitVec 7) :
    (p.setCnt i v).dirty = p.dirty := rfl
@[simp] theorem Panel.setCnt_lastJoy (p : Panel) (i : Nat) (v : BitVec 7) :
    (p.setCnt i v).lastJoy = p.lastJoy := rfl
@[simp] theorem Panel.setCnt_mfGate (p : Panel) (i : Nat) (v : BitVec 7) :
    (p.setCnt i v).mfGate = p.mfGate := rfl
@[simp] theorem Panel.setCnt_mfBurst (p : Panel) (i : Nat) (v : BitVec 7) :
    (p.setCnt i v).mfBurst = p.mfBurst := rfl
@[simp] theorem Panel.setCnt_mfS (p : Panel) (i : Nat) (v : BitVec 7) :
    (p.setCnt i v).mfS = p.mfS := rfl
@[simp] theorem Panel.setCnt_qprev (p : Panel) (i : Nat) (v : BitVec 7) :
    (p.setCnt i v).qprev = p.qprev := rfl
@[simp] theorem Panel.setCnt_delta (p : Panel) (i : Nat) (v : BitVec 7) :
    (p.setCnt i v).delta = p.delta := rfl

/-! ### Axis pairs -/

@[simp] theorem PerAxis.get_set {α : Type} (v : PerAxis α) (a b : Axis) (e : α) :
    (v.set a e).get b = if b = a then e else v.get b := by
  cases a <;> cases b <;> rfl

/-! ### Field writes -/

@[simp] theorem FieldWrite.apply_phase (w : FieldWrite) (l : Led) : (w.apply l).phase = l.phase := by
  cases w <;> rfl
@[simp] theorem FieldWrite.apply_pwmCounter (w : FieldWrite) (l : Led) :
    (w.apply l).pwmCounter = l.pwmCounter := by cases w <;> rfl
@[simp] theorem FieldWrite.apply_chOut (w : FieldWrite) (l : Led) : (w.apply l).chOut = l.chOut := by
  cases w <;> rfl
@[simp] theorem FieldWrite.apply_mode_length (w : FieldWrite) (l : Led) :
    (w.apply l).mode.length = l.mode.length := by cases w <;> simp [FieldWrite.apply]

/-! ### PWM_TICK -/

@[simp] theorem pwmTick_enabled (c : Config) (l : Led) : (pwmTick c l).enabled = l.enabled := by
  unfold pwmTick tickCounters; split <;> rfl
@[simp] theorem pwmTick_mode (c : Config) (l : Led) : (pwmTick c l).mode = l.mode := by
  unfold pwmTick tickCounters; split <;> rfl
@[simp] theorem pwmTick_pulseSpeed (c : Config) (l : Led) :
    (pwmTick c l).pulseSpeed = l.pulseSpeed := by unfold pwmTick tickCounters; split <;> rfl
@[simp] theorem pwmTick_bankPtr (c : Config) (l : Led) : (pwmTick c l).bankPtr = l.bankPtr := by
  unfold pwmTick tickCounters; split <;> rfl
@[simp] theorem pwmTick_chOut (c : Config) (l : Led) :
    (pwmTick c l).chOut = (List.range c.nCh).map (channelOn c l) := by
  unfold pwmTick tickCounters; split <;> rfl
theorem pwmTick_pwmCounter (c : Config) (l : Led) :
    (pwmTick c l).pwmCounter =
      if l.pwmCounter = 0#8 then BitVec.ofNat 8 (c.maxB - 1) else l.pwmCounter - 1#8 := by
  unfold pwmTick tickCounters tickOutputs; split <;> rfl
theorem pwmTick_phase (c : Config) (l : Led) :
    (pwmTick c l).phase = if l.pwmCounter = 0#8 then l.phase + phaseStep c l else l.phase := by
  unfold pwmTick tickCounters tickOutputs; split <;> rfl

end Sys2Proof.Machine
end

