-- ==== Sys2Proof/Laws/Ops.lean ====
section
/-! SUPPORT. What each shared operation over the whole state can do, said once. -/

namespace Sys2Proof.Machine

/-! ### Guards -/

theorem whenLed_next {s t : State} {run : Host.Outcome State Fault Refusal} :
    whenLed s run = .next t ↔ s.cfg.wf = true ∧ s.ledStarted = true ∧ run = .next t := by
  unfold whenLed
  cases s.cfg.wf <;> cases s.ledStarted <;> simp

theorem whenPanel_next {s t : State} {run : Host.Outcome State Fault Refusal} :
    whenPanel s run = .next t ↔ s.cfg.wf = true ∧ s.panStarted = true ∧ run = .next t := by
  unfold whenPanel
  cases s.cfg.wf <;> cases s.panStarted <;> simp

theorem whenConfigured_next {s t : State} {run : Host.Outcome State Fault Refusal} :
    whenConfigured s run = .next t ↔ s.cfg.wf = true ∧ run = .next t := by
  unfold whenConfigured
  cases s.cfg.wf <;> simp

theorem whenIdle_next {s t : State} {run : Host.Outcome State Fault Refusal} :
    whenIdle s run = .next t ↔ s.pending = [] ∧ run = .next t := by
  unfold whenIdle
  by_cases h : s.pending = [] <;> simp [h]

theorem whenLed_run {s : State} (hc : s.cfg.wf = true) (hs : s.ledStarted = true)
    (run : Host.Outcome State Fault Refusal) : whenLed s run = run := by
  unfold whenLed; rw [hc, hs]; rfl

theorem whenPanel_run {s : State} (hc : s.cfg.wf = true) (hs : s.panStarted = true)
    (run : Host.Outcome State Fault Refusal) : whenPanel s run = run := by
  unfold whenPanel; rw [hc, hs]; rfl

theorem whenConfigured_run {s : State} (hc : s.cfg.wf = true)
    (run : Host.Outcome State Fault Refusal) : whenConfigured s run = run := by
  unfold whenConfigured; rw [hc]; rfl

theorem whenIdle_run {s : State} (h : s.pending = [])
    (run : Host.Outcome State Fault Refusal) : whenIdle s run = run := by
  unfold whenIdle; rw [if_pos h]

/-! ### Outstanding writes -/

/-- A RESET of the LED unit keeps only outstanding writes, in their order (log entry 8). -/
theorem writesAfterReset_sublist (s : State) : (writesAfterReset s).Sublist s.pending := by
  have h := (List.filter_sublist
    (p := fun w : FieldWrite × Nat => Config.resetKeepsWrite s.ledOps w.2 && !w.1.undoesReset)
    (l := s.pending.zipIdx)).map Prod.fst
  rwa [List.zipIdx_map_fst] at h

/-- What survives a RESET of the LED unit was outstanding and undoes no reset value of bank_ptr or of
the enables. -/
theorem writesAfterReset_mem {s : State} {w : FieldWrite} (h : w ∈ writesAfterReset s) :
    w ∈ s.pending ∧ w.undoesReset = false := by
  refine ⟨(writesAfterReset_sublist s).subset h, ?_⟩
  unfold writesAfterReset at h
  obtain ⟨v, hv, rfl⟩ := List.mem_map.mp h
  simpa using (Bool.and_eq_true_iff.mp (List.mem_filter.mp hv).2).2

theorem writesAfterReset_idle {s : State} (h : s.pending = []) : writesAfterReset s = [] := by
  unfold writesAfterReset; rw [h]; rfl

/-- A command that is not preempted is applied whole. -/
theorem deliver_whole (ws : List FieldWrite) (diag : List DiagCode) {s : State} (h : s.plan = none) :
    deliver ws diag s =
      { s with led := ws.foldl (fun l w => w.apply l) s.led
               pending := []
               ledDiag := diag
               ledOps := s.ledOps + 1 } := by
  unfold deliver runAgent settle
  rw [h]

/-- `perform` does nothing, or one outstanding write and nothing else. -/
theorem perform_cases (k : Nat) (s : State) :
    perform k s = s ∨ ∃ w, s.pending[k]? = some w ∧
      perform k s = { s with led := w.apply s.led, pending := s.pending.eraseIdx k } := by
  unfold perform
  cases h : s.pending[k]? with
  | none => exact .inl rfl
  | some w => exact .inr ⟨w, rfl, rfl⟩

/-- A property of states that every single outstanding write keeps is kept by the command agent,
however the scheduler lets it run. -/
theorem runAgent_induct (P : State → Prop) (plan : Option (List Nat)) (s : State) (hs : P s)
    (hperform : ∀ k t, P t → P (perform k t)) (hsettle : ∀ t, P t → P (settle t)) :
    P (runAgent plan s) := by
  cases plan with
  | none => exact hsettle s hs
  | some ks =>
    show P (ks.foldl (fun s k => perform k s) s)
    induction ks generalizing s with
    | nil => exact hs
    | cons k ks ih => exact ih _ (hperform k s hs)

@[simp] theorem perform_cfg (k : Nat) (s : State) : (perform k s).cfg = s.cfg := by
  rcases perform_cases k s with h | ⟨w, _, h⟩ <;> rw [h]
@[simp] theorem perform_ledStarted (k : Nat) (s : State) :
    (perform k s).ledStarted = s.ledStarted := by
  rcases perform_cases k s with h | ⟨w, _, h⟩ <;> rw [h]
@[simp] theorem perform_panStarted (k : Nat) (s : State) :
    (perform k s).panStarted = s.panStarted := by
  rcases perform_cases k s with h | ⟨w, _, h⟩ <;> rw [h]
@[simp] theorem perform_pan (k : Nat) (s : State) : (perform k s).pan = s.pan := by
  rcases perform_cases k s with h | ⟨w, _, h⟩ <;> rw [h]
@[simp] theorem perform_plan (k : Nat) (s : State) : (perform k s).plan = s.plan := by
  rcases perform_cases k s with h | ⟨w, _, h⟩ <;> rw [h]
@[simp] theorem perform_answer (k : Nat) (s : State) : (perform k s).answer = s.answer := by
  rcases perform_cases k s with h | ⟨w, _, h⟩ <;> rw [h]
@[simp] theorem perform_ledDiag (k : Nat) (s : State) : (perform k s).ledDiag = s.ledDiag := by
  rcases perform_cases k s with h | ⟨w, _, h⟩ <;> rw [h]
@[simp] theorem perform_panDiag (k : Nat) (s : State) : (perform k s).panDiag = s.panDiag := by
  rcases perform_cases k s with h | ⟨w, _, h⟩ <;> rw [h]
@[simp] theorem perform_ledOps (k : Nat) (s : State) : (perform k s).ledOps = s.ledOps := by
  rcases perform_cases k s with h | ⟨w, _, h⟩ <;> rw [h]
@[simp] theorem perform_panOps (k : Nat) (s : State) : (perform k s).panOps = s.panOps := by
  rcases perform_cases k s with h | ⟨w, _, h⟩ <;> rw [h]
@[simp] theorem perform_inputs (k : Nat) (s : State) : (perform k s).inputs = s.inputs := by
  rcases perform_cases k s with h | ⟨w, _, h⟩ <;> rw [h]
@[simp] theorem perform_chOut (k : Nat) (s : State) : (perform k s).led.chOut = s.led.chOut := by
  rcases perform_cases k s with h | ⟨w, _, h⟩ <;> simp [h]
@[simp] theorem perform_phase (k : Nat) (s : State) : (perform k s).led.phase = s.led.phase := by
  rcases perform_cases k s with h | ⟨w, _, h⟩ <;> simp [h]
@[simp] theorem perform_pwmCounter (k : Nat) (s : State) :
    (perform k s).led.pwmCounter = s.led.pwmCounter := by
  rcases perform_cases k s with h | ⟨w, _, h⟩ <;> simp [h]

/-- The writes of a command, all of them in turn, leave phase, counter and outputs alone. -/
theorem foldl_apply_frame (ws : List FieldWrite) (l : Led) :
    (ws.foldl (fun l w => w.apply l) l).phase = l.phase ∧
    (ws.foldl (fun l w => w.apply l) l).pwmCounter = l.pwmCounter ∧
    (ws.foldl (fun l w => w.apply l) l).chOut = l.chOut ∧
    (ws.foldl (fun l w => w.apply l) l).mode.length = l.mode.length := by
  induction ws generalizing l with
  | nil => exact ⟨rfl, rfl, rfl, rfl⟩
  | cons w ws ih => simpa using ih (w.apply l)

/-- Everything `deliver` leaves alone, whatever the scheduler's plan (R101, R104: "Not written"). -/
theorem deliver_frame (ws : List FieldWrite) (diag : List DiagCode) (s : State) :
    (deliver ws diag s).cfg = s.cfg ∧ (deliver ws diag s).ledStarted = s.ledStarted ∧
    (deliver ws diag s).panStarted = s.panStarted ∧ (deliver ws diag s).pan = s.pan ∧
    (deliver ws diag s).answer = s.answer ∧ (deliver ws diag s).panDiag = s.panDiag ∧
    (deliver ws diag s).panOps = s.panOps ∧ (deliver ws diag s).inputs = s.inputs ∧
    (deliver ws diag s).led.chOut = s.led.chOut ∧ (deliver ws diag s).led.phase = s.led.phase ∧
    (deliver ws diag s).led.pwmCounter = s.led.pwmCounter := by
  let P : State → Prop := fun t =>
    t.cfg = s.cfg ∧ t.ledStarted = s.ledStarted ∧ t.panStarted = s.panStarted ∧ t.pan = s.pan ∧
    t.answer = s.answer ∧ t.panDiag = s.panDiag ∧ t.panOps = s.panOps ∧ t.inputs = s.inputs ∧
    t.led.chOut = s.led.chOut ∧ t.led.phase = s.led.phase ∧ t.led.pwmCounter = s.led.pwmCounter
  refine runAgent_induct P s.plan _ ⟨rfl, rfl, rfl, rfl, rfl, rfl, rfl, rfl, rfl, rfl, rfl⟩ ?_ ?_
  · intro k t ht
    simpa [P] using ht
  · intro t ht
    obtain ⟨h1, h2, h3, -⟩ := foldl_apply_frame t.pending t.led
    simpa [P, settle, h1, h2, h3] using ht

/-- A command's conditions are those recorded at its delivery, whatever its plan (log entry 11). -/
@[simp] theorem deliver_ledDiag (ws : List FieldWrite) (diag : List DiagCode) (s : State) :
    (deliver ws diag s).ledDiag = diag := by
  unfold deliver
  apply runAgent_induct (fun t => t.ledDiag = diag) <;> simp_all [settle]

/-! ### The next input -/

/-- What a step that answers a next state did: it ran the decoded operation, let the command agent go
on, split a simultaneous presentation, saw no event, or loaded a configuration. -/
theorem step_cases {s t : State} (h : step s = .next t) :
    (∃ e plan tie rest i, s.inputs = .bus e plan tie :: rest ∧ decode e = .ok i ∧
      exec i { s with inputs := rest, plan := plan } = .next t) ∨
    (s.inputs = [] ∧ t = perform 0 s) ∨
    (∃ k rest, s.inputs = .finish k :: rest ∧ t = perform k { s with inputs := rest }) ∨
    (∃ e plan tie rest, s.inputs = .bus e plan tie :: rest ∧ decode e = .error .simultaneous ∧
      t = { s with inputs := serialise e plan tie ++ rest }) ∨
    (∃ e plan tie rest, s.inputs = .bus e plan tie :: rest ∧ decode e = .error .idle ∧
      t = { s with inputs := rest }) ∨
    (∃ c rest, s.inputs = .load c :: rest ∧ s.ledStarted = false ∧ s.panStarted = false ∧
      c.wf = true ∧ t = { s with inputs := rest, cfg := c }) := by
  unfold step fetch at h
  split at h
  · rename_i i u hf
    split at hf
    · cases hf
    · rename_i e plan tie rest hin
      unfold fetchBus at hf
      split at hf
      · rename_i j hj
        cases hf
        exact .inl ⟨e, plan, tie, rest, _, hin, hj, h⟩
      all_goals cases hf
    · cases hf
    · cases hf
  · rename_i o hf
    split at hf
    · rename_i hin
      cases hf
      cases h
      exact .inr (.inl ⟨hin, rfl⟩)
    · rename_i e plan tie rest hin
      unfold fetchBus at hf
      split at hf
      · cases hf
      · rename_i hd
        cases hf
        cases h
        exact .inr (.inr (.inr (.inr (.inl ⟨e, plan, tie, rest, hin, hd, rfl⟩))))
      · rename_i hd
        cases hf
        cases h
        exact .inr (.inr (.inr (.inl ⟨e, plan, tie, rest, hin, hd, rfl⟩)))
      · cases hf
        cases h
    · rename_i k rest hin
      cases hf
      cases h
      exact .inr (.inr (.inl ⟨k, rest, hin, rfl⟩))
    · rename_i c rest hin
      cases hf
      unfold loadConfig at h
      split at h
      · cases h
      · rename_i hst
        split at h
        · cases h
        · rename_i hwf
          cases h
          simp only [not_or, Bool.not_eq_true] at hst hwf
          refine .inr (.inr (.inr (.inr (.inr ⟨c, rest, hin, hst.1, hst.2, ?_, rfl⟩))))
          simpa using hwf

end Sys2Proof.Machine
end

