-- ==== Sys2Proof/Laws/PerInstr.lean ====
section
/-! SUPPORT. A fact about the syntax of every operation, one lemma per constructor: an operation is
presented by raising exactly one event line (R72, R195). -/

namespace Sys2Proof.Laws

/-- The wires of the operation raise exactly one line, so that they are no simultaneous presentation. -/
def OneLine.Statement (i : Instr) : Prop :=
  ∃ l, Sys2Proof.raisedLines (Machine.BusEvent.lines (encode i)) = [l]

theorem raised_low : raisedLines 0b001#3 = [0b001#3] := by decide
theorem raised_middle : raisedLines 0b010#3 = [0b010#3] := by decide
theorem raised_high : raisedLines 0b100#3 = [0b100#3] := by decide

theorem OneLine.sba (en0 en1 en2 en3 spd x6 x7 : Byte) :
    OneLine.Statement (.sba en0 en1 en2 en3 spd x6 x7) := ⟨_, raised_middle⟩

theorem OneLine.pba (m0 m1 m2 m3 m4 m5 m6 m7 : Byte) :
    OneLine.Statement (.pba m0 m1 m2 m3 m4 m5 m6 m7) := ⟨_, raised_middle⟩

theorem OneLine.pwmTick : OneLine.Statement .pwmTick := ⟨_, raised_low⟩

theorem OneLine.resetLed : OneLine.Statement .resetLed := ⟨_, raised_high⟩

theorem OneLine.sampleTick (raw : RawIn) : OneLine.Statement (.sampleTick raw) := ⟨_, raised_middle⟩

theorem OneLine.getReport : OneLine.Statement .getReport := ⟨_, raised_low⟩

theorem OneLine.resetPan : OneLine.Statement .resetPan := ⟨_, raised_high⟩

end Sys2Proof.Laws
end

