-- ==== Sys2Proof/Laws/Reports.lean ====
section
/-! SUPPORT. What GET_REPORT can do, said once (R170 to R177). -/

namespace Sys2Proof.Machine

variable {c : Config} {p : Panel}

/-- Every joystick category is the category of its index. -/
theorem Category.joystick_eq (j : BitVec 2) :
    (j = 0#2 ∧ Category.joystick j = .joystick1) ∨ (j = 1#2 ∧ Category.joystick j = .joystick2) ∨
    (j = 2#2 ∧ Category.joystick j = .joystick3) ∨ (j = 3#2 ∧ Category.joystick j = .joystick4) := by
  revert j; decide

theorem Category.joystick_inj {i j : BitVec 2} (h : Category.joystick i = Category.joystick j) :
    i = j := by
  revert i j; decide

/-- The search order visits every joystick (R172). -/
theorem mem_joystickOrder (last j : BitVec 2) : j ∈ joystickOrder last := by
  revert last j; decide

/-- What the round-robin picks is dirty, and nothing earlier in the order is (R172). -/
theorem pickJoystick_some {j : BitVec 2} (h : pickJoystick p = some j) :
    p.dirty.get (Category.joystick j) = true ∧
    ∃ before after, joystickOrder p.lastJoy = before ++ j :: after ∧
      ∀ i ∈ before, p.dirty.get (Category.joystick i) = false := by
  obtain ⟨hj, before, after, ho, hb⟩ := List.find?_eq_some_iff_append.mp h
  exact ⟨hj, before, after, ho, fun i hi => by simpa using hb i hi⟩

/-- The round-robin picks nothing exactly when no joystick is dirty. -/
theorem pickJoystick_none : pickJoystick p = none ↔
    ∀ j, p.dirty.get (Category.joystick j) = false := by
  unfold pickJoystick
  rw [List.find?_eq_none]
  constructor
  · intro h j
    simpa using h j (mem_joystickOrder _ _)
  · intro h j _
    simp [h j]

/-- GET_REPORT does one of five things, in the order of R171. -/
theorem getReport_cases (c : Config) (p : Panel) :
    (∃ j, pickJoystick p = some j ∧ getReport c p = emitJoystick c p j) ∨
    (pickJoystick p = none ∧ p.dirty.mouse = true ∧ getReport c p = emitMouse c p) ∨
    (pickJoystick p = none ∧ p.dirty.mouse = false ∧ p.dirty.keyboard = true ∧
      getReport c p = emitKeyboard c p) ∨
    (pickJoystick p = none ∧ p.dirty.mouse = false ∧ p.dirty.keyboard = false ∧
      p.dirty.consumer = true ∧ getReport c p = emitConsumer c p) ∨
    (pickJoystick p = none ∧ p.dirty.mouse = false ∧ p.dirty.keyboard = false ∧
      p.dirty.consumer = false ∧
      getReport c p = { answer := .noReport, panel := p, diag := [] }) := by
  unfold getReport
  cases hj : pickJoystick p with
  | some j => exact .inl ⟨j, rfl, rfl⟩
  | none =>
    cases hm : p.dirty.mouse
    · cases hk : p.dirty.keyboard
      · cases hc : p.dirty.consumer <;> simp
      · simp
    · simp

/-- Bit k of `bitsOf n f` is f k for k below n. -/
theorem bitsOf_getLsbD {n : Nat} (hn : n ≤ 8) (f : Nat → Bool) (k : Nat) :
    (bitsOf n f).getLsbD k = (decide (k < n) && f k) := by
  unfold bitsOf
  induction n with
  | zero => simp
  | succ n ih =>
    rw [List.range_succ, List.foldl_append, List.foldl_cons, List.foldl_nil]
    have hb := ih (by omega)
    have h1 : ((1#8 <<< n) : BitVec 8).getLsbD k = decide (k = n) := by
      rw [BitVec.getLsbD_shiftLeft]
      by_cases hk : k = n
      · subst hk; simp; omega
      · by_cases hlt : k < n
        · simp [hlt, hk]
        · have : (1#8).getLsbD (k - n) = false := by
            rw [BitVec.getLsbD_one]; simp; omega
          simp [this, hk]
    by_cases hf : f n = true
    · rw [if_pos hf, BitVec.getLsbD_or, hb, h1]
      by_cases hk : k = n
      · subst hk; simp [hf]
      · rw [decide_eq_false hk, Bool.or_false]
        congr 1
        exact decide_eq_decide.mpr (by omega)
    · rw [if_neg hf, hb]
      by_cases hk : k = n
      · subst hk; simp [hf]
      · congr 1
        exact decide_eq_decide.mpr (by omega)

end Sys2Proof.Machine
end

