-- ==== Sys2Proof/Laws/Sampling.lean ====
section
/-! SUPPORT. What each phase of SAMPLE_TICK can do, said once (R140 to R158). -/

namespace Sys2Proof.Machine

variable {c : Config} {raw : RawIn} {tOld tNew : List KeyCode}

/-- A list's `any` depends on the predicate at its members only. -/
theorem any_congr_mem {α : Type} {l : List α} {f g : α → Bool} (h : ∀ a ∈ l, f a = g a) :
    l.any f = l.any g := by
  induction l with
  | nil => rfl
  | cons a l ih =>
    rw [List.any_cons, List.any_cons, h a (by simp), ih fun b hb => h b (by simp [hb])]

theorem mem_genericInputs {i : Nat} :
    i ∈ genericInputs c ↔ i < c.nIn ∧ multifireAt c ≠ some i := by
  simp [genericInputs]

theorem genericInputs_nodup (c : Config) : (genericInputs c).Nodup := List.nodup_range.filter _

theorem validIndex_eq_some {k : Option Nat} {i : Nat} :
    validIndex c k = some i ↔ k = some i ∧ i < c.nIn := by
  cases k with
  | none => simp [validIndex]
  | some j =>
    by_cases h : j < c.nIn
    · simp only [validIndex, h, if_true, Option.some.injEq]
      constructor
      · intro e; exact ⟨e, e ▸ h⟩
      · intro e; exact e.1
    · simp only [validIndex, h, if_false, Option.some.injEq]
      constructor
      · intro e; cases e
      · intro e; exact absurd (e.1 ▸ e.2) h

/-! ### Phase 1: debounce -/

/-- level[i] after DEBOUNCE(i) (R142). -/
def levelAfter (c : Config) (raw : RawIn) (i : Nat) (p : Panel) : Bool :=
  if accepts c raw i p then raw.getLsbD i else p.levelAt i

/-- cnt[i] after DEBOUNCE(i) (R142). -/
def cntAfter (c : Config) (raw : RawIn) (i : Nat) (p : Panel) : BitVec 7 :=
  if raw.getLsbD i = p.levelAt i ∨ accepts c raw i p then 0#7
  else BitVec.ofNat 7 (min ((p.cntAt i).toNat + 1) 127)

theorem debounce_levelAt {i j : Nat} {p : Panel} (hi : i < p.level.length) :
    (debounce c raw i p).levelAt j = if j = i then levelAfter c raw i p else p.levelAt j := by
  unfold debounce levelAfter accepts
  by_cases h1 : raw.getLsbD i = p.levelAt i
  · by_cases hj : j = i <;> simp [h1, hj]
  · by_cases h2 : c.debounce ≤ min ((p.cntAt i).toNat + 1) 127
    · by_cases hj : j = i
      · rw [if_neg h1, if_pos h2]; simp only [decide_eq_true h2]; simp [h1, hj, hi]
      · rw [if_neg h1, if_pos h2]; simp [hj]
    · rw [if_neg h1, if_neg h2]; simp only [decide_eq_false h2]; by_cases hj : j = i <;> simp [hj]

theorem debounce_cntAt {i j : Nat} {p : Panel} (hi : i < p.cnt.length) :
    (debounce c raw i p).cntAt j = if j = i then cntAfter c raw i p else p.cntAt j := by
  unfold debounce cntAfter accepts
  by_cases h1 : raw.getLsbD i = p.levelAt i
  · by_cases hj : j = i <;> simp [h1, hj, hi]
  · by_cases h2 : c.debounce ≤ min ((p.cntAt i).toNat + 1) 127
    · rw [if_neg h1, if_pos h2]; simp only [decide_eq_true h2]; by_cases hj : j = i <;> simp [h1, hj, hi]
    · rw [if_neg h1, if_neg h2]; simp only [decide_eq_false h2]; by_cases hj : j = i <;> simp [h1, hj, hi]

/-- `debounce` writes level and cnt only. -/
theorem debounce_frame (i : Nat) (p : Panel) :
    debounce c raw i p =
      { p with level := (debounce c raw i p).level, cnt := (debounce c raw i p).cnt } := by
  unfold debounce
  split
  · rfl
  · split <;> rfl

theorem debounce_lengths (i : Nat) (p : Panel) :
    (debounce c raw i p).level.length = p.level.length ∧
    (debounce c raw i p).cnt.length = p.cnt.length := by
  unfold debounce
  split
  · simp
  · split <;> simp

/-- The fields of the Panel unit that only multifire, quadrature and reports write. -/
def SameRest (p q : Panel) : Prop :=
  q.lastJoy = p.lastJoy ∧ q.mfGate = p.mfGate ∧ q.mfBurst = p.mfBurst ∧ q.mfS = p.mfS ∧
  q.qprev = p.qprev ∧ q.delta = p.delta ∧ q.level.length = p.level.length ∧
  q.cnt.length = p.cnt.length

theorem SameRest.refl (p : Panel) : SameRest p p := ⟨rfl, rfl, rfl, rfl, rfl, rfl, rfl, rfl⟩

theorem SameRest.trans {p q r : Panel} (h : SameRest p q) (h' : SameRest q r) : SameRest p r := by
  obtain ⟨a1, a2, a3, a4, a5, a6, a7, a8⟩ := h
  obtain ⟨b1, b2, b3, b4, b5, b6, b7, b8⟩ := h'
  exact ⟨b1.trans a1, b2.trans a2, b3.trans a3, b4.trans a4, b5.trans a5, b6.trans a6,
    b7.trans a7, b8.trans a8⟩

theorem debounceInput_sameRest (i : Nat) (p : Panel) :
    SameRest p (debounceInput c tOld raw p i) := by
  have hf := debounce_frame (c := c) (raw := raw) i p
  have hl := debounce_lengths (c := c) (raw := raw) i p
  have h : SameRest p (debounce c raw i p) := by
    refine ⟨?_, ?_, ?_, ?_, ?_, ?_, hl.1, hl.2⟩ <;> rw [hf]
  unfold debounceInput
  split
  · exact h.trans ⟨by simp, by simp, by simp, by simp, by simp, by simp, by simp, by simp⟩
  · exact h

theorem debounceInput_levelAt {i j : Nat} {p : Panel} (hi : i < p.level.length) :
    (debounceInput c tOld raw p i).levelAt j =
      if j = i then levelAfter c raw i p else p.levelAt j := by
  unfold debounceInput
  split <;> simp [debounce_levelAt hi]

theorem debounceInput_cntAt {i j : Nat} {p : Panel} (hi : i < p.cnt.length) :
    (debounceInput c tOld raw p i).cntAt j =
      if j = i then cntAfter c raw i p else p.cntAt j := by
  unfold debounceInput
  split <;> simp [debounce_cntAt hi]

/-- Input i marks category d when its change is accepted (R145, R146). -/
def marksOnAccept (c : Config) (tOld : List KeyCode) (raw : RawIn) (p : Panel) (d : Category)
    (i : Nat) : Bool :=
  accepts c raw i p && decide (shiftAt c ≠ some i) && decide (category (codeAt tOld i) = some d)

theorem debounceInput_dirty (i : Nat) (p : Panel) (d : Category) :
    (debounceInput c tOld raw p i).dirty.get d =
      (p.dirty.get d || marksOnAccept c tOld raw p d i) := by
  have hd : (debounce c raw i p).dirty = p.dirty := by rw [debounce_frame]
  unfold debounceInput marksOnAccept
  by_cases ha : accepts c raw i p = true <;> by_cases hs : shiftAt c = some i <;> simp [ha, hs, hd]

/-- An input's debounce reads that input only. -/
theorem accepts_congr {i : Nat} {p q : Panel} (hl : q.levelAt i = p.levelAt i)
    (hc : q.cntAt i = p.cntAt i) : accepts c raw i q = accepts c raw i p := by
  unfold accepts; rw [hl, hc]

theorem levelAfter_congr {i : Nat} {p q : Panel} (hl : q.levelAt i = p.levelAt i)
    (hc : q.cntAt i = p.cntAt i) : levelAfter c raw i q = levelAfter c raw i p := by
  unfold levelAfter; rw [accepts_congr hl hc, hl]

theorem cntAfter_congr {i : Nat} {p q : Panel} (hl : q.levelAt i = p.levelAt i)
    (hc : q.cntAt i = p.cntAt i) : cntAfter c raw i q = cntAfter c raw i p := by
  unfold cntAfter; rw [accepts_congr hl hc, hl, hc]

theorem marksOnAccept_congr {i : Nat} {d : Category} {p q : Panel} (hl : q.levelAt i = p.levelAt i)
    (hc : q.cntAt i = p.cntAt i) :
    marksOnAccept c tOld raw q d i = marksOnAccept c tOld raw p d i := by
  unfold marksOnAccept; rw [accepts_congr hl hc]

/-- Debouncing a list of distinct inputs: each is debounced as if alone, and each accepted change
marks its category. -/
theorem foldl_debounceInput (l : List Nat) (p : Panel) (hn : l.Nodup)
    (hl : ∀ i ∈ l, i < p.level.length) (hc : ∀ i ∈ l, i < p.cnt.length) :
    SameRest p (l.foldl (debounceInput c tOld raw) p) ∧
    (∀ j, (l.foldl (debounceInput c tOld raw) p).levelAt j =
      if j ∈ l then levelAfter c raw j p else p.levelAt j) ∧
    (∀ j, (l.foldl (debounceInput c tOld raw) p).cntAt j =
      if j ∈ l then cntAfter c raw j p else p.cntAt j) ∧
    (∀ d, (l.foldl (debounceInput c tOld raw) p).dirty.get d =
      (p.dirty.get d || l.any (marksOnAccept c tOld raw p d))) := by
  induction l generalizing p with
  | nil => exact ⟨SameRest.refl p, fun j => by simp, fun j => by simp, fun d => by simp⟩
  | cons i l ih =>
    obtain ⟨hil, hn'⟩ := List.nodup_cons.mp hn
    have hi := hl i (by simp)
    have hi' := hc i (by simp)
    have hr := debounceInput_sameRest (c := c) (tOld := tOld) (raw := raw) i p
    have hlen : (debounceInput c tOld raw p i).level.length = p.level.length := hr.2.2.2.2.2.2.1
    have hlen' : (debounceInput c tOld raw p i).cnt.length = p.cnt.length := hr.2.2.2.2.2.2.2
    obtain ⟨r, a, b, e⟩ := ih (debounceInput c tOld raw p i) hn'
      (fun j hj => hlen ▸ hl j (by simp [hj])) (fun j hj => hlen' ▸ hc j (by simp [hj]))
    have other : ∀ j, j ≠ i → (debounceInput c tOld raw p i).levelAt j = p.levelAt j ∧
        (debounceInput c tOld raw p i).cntAt j = p.cntAt j := fun j hj =>
      ⟨by rw [debounceInput_levelAt hi, if_neg hj], by rw [debounceInput_cntAt hi', if_neg hj]⟩
    refine ⟨hr.trans r, fun j => ?_, fun j => ?_, fun d => ?_⟩
    · rw [List.foldl_cons, a j]
      by_cases hj : j = i
      · subst hj; simp [hil, debounceInput_levelAt hi]
      · have o := other j hj
        by_cases hm : j ∈ l
        · simp [hm, levelAfter_congr o.1 o.2]
        · simp [hm, hj, o.1]
    · rw [List.foldl_cons, b j]
      by_cases hj : j = i
      · subst hj; simp [hil, debounceInput_cntAt hi']
      · have o := other j hj
        by_cases hm : j ∈ l
        · simp [hm, cntAfter_congr o.1 o.2]
        · simp [hm, hj, o.2]
    · rw [List.foldl_cons, e d, debounceInput_dirty, List.any_cons, Bool.or_assoc]
      congr 2
      refine any_congr_mem fun j hj => ?_
      have hj' : j ≠ i := fun h => hil (h ▸ hj)
      exact marksOnAccept_congr (other j hj').1 (other j hj').2

/-- Phase 1, said once (R142, R145, R146). -/
theorem debounceAll_spec {p : Panel} (hl : p.level.length = c.nIn) (hc : p.cnt.length = c.nIn) :
    SameRest p (debounceAll c tOld raw p) ∧
    (∀ j, (debounceAll c tOld raw p).levelAt j =
      if j ∈ genericInputs c then levelAfter c raw j p else p.levelAt j) ∧
    (∀ j, (debounceAll c tOld raw p).cntAt j =
      if j ∈ genericInputs c then cntAfter c raw j p else p.cntAt j) ∧
    (∀ d, (debounceAll c tOld raw p).dirty.get d =
      (p.dirty.get d || (genericInputs c).any (marksOnAccept c tOld raw p d))) :=
  foldl_debounceInput _ p (genericInputs_nodup c)
    (fun _ hi => hl ▸ (mem_genericInputs.mp hi).1) (fun _ hi => hc ▸ (mem_genericInputs.mp hi).1)

/-! ### Phase 2: multifire -/

theorem mfGateStep_frame (r : Bool) (p : Panel) :
    mfGateStep c r p = { p with mfGate := (mfGateStep c r p).mfGate
                                mfBurst := (mfGateStep c r p).mfBurst } := by
  unfold mfGateStep
  split
  · rfl
  · split
    · split <;> rfl
    · rfl

theorem mfBurstStep_frame (p : Panel) :
    mfBurstStep p = { p with mfBurst := (mfBurstStep p).mfBurst } := by
  unfold mfBurstStep; split <;> rfl

/-- The multifire step writes the gate, the burst counter, mf_s and dirty bits only; mf_s becomes the
synthetic level, and a change of it marks the input's category (R153). -/
theorem multifireStep_spec (m : Nat) (p : Panel) :
    (multifireStep c tOld raw m p).level = p.level ∧ (multifireStep c tOld raw m p).cnt = p.cnt ∧
    (multifireStep c tOld raw m p).lastJoy = p.lastJoy ∧
    (multifireStep c tOld raw m p).qprev = p.qprev ∧
    (multifireStep c tOld raw m p).delta = p.delta ∧
    (multifireStep c tOld raw m p).mfGate = (mfGateStep c (raw.getLsbD m) p).mfGate ∧
    (multifireStep c tOld raw m p).mfBurst =
      (mfBurstStep (mfGateStep c (raw.getLsbD m) p)).mfBurst ∧
    (multifireStep c tOld raw m p).mfS = syntheticLevel c (mfGateStep c (raw.getLsbD m) p) ∧
    (∀ d, (multifireStep c tOld raw m p).dirty.get d =
      (p.dirty.get d || (syntheticLevel c (mfGateStep c (raw.getLsbD m) p) != p.mfS &&
        decide (category (codeAt tOld m) = some d)))) := by
  have hg := mfGateStep_frame (c := c) (raw.getLsbD m) p
  generalize hG : mfGateStep c (raw.getLsbD m) p = g at hg ⊢
  have hb := mfBurstStep_frame g
  have hgS : (mfBurstStep g).mfS = p.mfS := by rw [hb, hg]
  have hrest : (mfBurstStep g).level = p.level ∧ (mfBurstStep g).cnt = p.cnt ∧
      (mfBurstStep g).lastJoy = p.lastJoy ∧ (mfBurstStep g).qprev = p.qprev ∧
      (mfBurstStep g).delta = p.delta ∧ (mfBurstStep g).mfGate = g.mfGate ∧
      (mfBurstStep g).dirty = p.dirty := by
    rw [hb, hg]; exact ⟨rfl, rfl, rfl, rfl, rfl, rfl, rfl⟩
  obtain ⟨h1, h2, h3, h4, h5, h6, h7⟩ := hrest
  have hstep : multifireStep c tOld raw m p =
      mfMark (syntheticLevel c g) (category (codeAt tOld m)) (mfBurstStep g) := by
    unfold multifireStep; simp only [hG]
  rw [hstep]
  unfold mfMark
  split
  · rename_i h
    exact ⟨h1, h2, h3, h4, h5, h6, rfl, h.symm, fun d => by simp [h7, h, hgS]⟩
  · rename_i h
    have h' : (syntheticLevel c g != p.mfS) = true := by
      rw [bne_iff_ne]; rw [hgS] at h; exact h
    exact ⟨by simp [h1], by simp [h2], by simp [h3], by simp [h4], by simp [h5], by simp [h6],
      by simp, by simp, fun d => by simp [h7, h']⟩

/-- Without a valid multifire input phase 2 does nothing (R150). -/
theorem multifire_none (h : multifireAt c = none) (p : Panel) : multifire c tOld raw p = p := by
  unfold multifire; rw [h]

theorem multifire_some {m : Nat} (h : multifireAt c = some m) (p : Panel) :
    multifire c tOld raw p = multifireStep c tOld raw m p := by
  unfold multifire; rw [h]

/-! ### Phase 3: shift cleanup -/

theorem cleanupInput_sameRest (i : Nat) (p : Panel) : SameRest p (cleanupInput tOld tNew p i) := by
  unfold cleanupInput
  split
  · exact ⟨by simp, by simp, by simp, by simp, by simp, by simp, by simp, by simp⟩
  · exact SameRest.refl p

/-- Input i is released by the cleanup (R147). -/
def releases (tOld tNew : List KeyCode) (p : Panel) (i : Nat) : Bool :=
  remapped tOld tNew i && p.levelAt i

theorem cleanupInput_spec {i : Nat} {p : Panel} (hi : i < p.level.length) (hi' : i < p.cnt.length) :
    (∀ j, (cleanupInput tOld tNew p i).levelAt j =
      if j = i ∧ releases tOld tNew p i then false else p.levelAt j) ∧
    (∀ j, (cleanupInput tOld tNew p i).cntAt j =
      if j = i ∧ releases tOld tNew p i then 0#7 else p.cntAt j) ∧
    (∀ d, (cleanupInput tOld tNew p i).dirty.get d =
      (p.dirty.get d || (releases tOld tNew p i && decide (category (codeAt tOld i) = some d)))) := by
  unfold cleanupInput releases
  by_cases h : remapped tOld tNew i = true ∧ p.levelAt i = true
  · rw [if_pos h]
    refine ⟨fun j => ?_, fun j => ?_, fun d => ?_⟩
    · by_cases hj : j = i <;> simp [hj, hi, h]
    · by_cases hj : j = i <;> simp [hj, hi', h]
    · simp [h]
  · rw [if_neg h]
    have h' : (remapped tOld tNew i && p.levelAt i) = false := by
      rw [Bool.and_eq_false_iff]
      by_contra hc
      rw [not_or, Bool.not_eq_false, Bool.not_eq_false] at hc
      exact h hc
    simp [h']

theorem releases_congr {i : Nat} {p q : Panel} (hl : q.levelAt i = p.levelAt i) :
    releases tOld tNew q i = releases tOld tNew p i := by unfold releases; rw [hl]

/-- The cleanup of a list of distinct inputs. -/
theorem foldl_cleanupInput (l : List Nat) (p : Panel) (hn : l.Nodup)
    (hl : ∀ i ∈ l, i < p.level.length) (hc : ∀ i ∈ l, i < p.cnt.length) :
    SameRest p (l.foldl (cleanupInput tOld tNew) p) ∧
    (∀ j, (l.foldl (cleanupInput tOld tNew) p).levelAt j =
      if j ∈ l ∧ releases tOld tNew p j then false else p.levelAt j) ∧
    (∀ j, (l.foldl (cleanupInput tOld tNew) p).cntAt j =
      if j ∈ l ∧ releases tOld tNew p j then 0#7 else p.cntAt j) ∧
    (∀ d, (l.foldl (cleanupInput tOld tNew) p).dirty.get d =
      (p.dirty.get d || l.any fun i =>
        releases tOld tNew p i && decide (category (codeAt tOld i) = some d))) := by
  induction l generalizing p with
  | nil => exact ⟨SameRest.refl p, fun j => by simp, fun j => by simp, fun d => by simp⟩
  | cons i l ih =>
    obtain ⟨hil, hn'⟩ := List.nodup_cons.mp hn
    have hr := cleanupInput_sameRest (tOld := tOld) (tNew := tNew) i p
    have hlen : (cleanupInput tOld tNew p i).level.length = p.level.length := hr.2.2.2.2.2.2.1
    have hlen' : (cleanupInput tOld tNew p i).cnt.length = p.cnt.length := hr.2.2.2.2.2.2.2
    obtain ⟨s1, s2, s3⟩ :=
      cleanupInput_spec (tOld := tOld) (tNew := tNew) (hl i (by simp)) (hc i (by simp))
    obtain ⟨r, a, b, e⟩ := ih (cleanupInput tOld tNew p i) hn'
      (fun j hj => hlen ▸ hl j (by simp [hj])) (fun j hj => hlen' ▸ hc j (by simp [hj]))
    have other : ∀ j, j ≠ i → (cleanupInput tOld tNew p i).levelAt j = p.levelAt j ∧
        (cleanupInput tOld tNew p i).cntAt j = p.cntAt j := fun j hj =>
      ⟨by rw [s1, if_neg (fun h => hj h.1)], by rw [s2, if_neg (fun h => hj h.1)]⟩
    refine ⟨hr.trans r, fun j => ?_, fun j => ?_, fun d => ?_⟩
    · rw [List.foldl_cons, a j]
      by_cases hj : j = i
      · subst hj; simp [hil, s1]
      · have o := other j hj
        rw [releases_congr o.1, o.1]
        simp [hj]
    · rw [List.foldl_cons, b j]
      by_cases hj : j = i
      · subst hj; simp [hil, s2]
      · have o := other j hj
        rw [releases_congr o.1, o.2]
        simp [hj]
    · rw [List.foldl_cons, e d, s3, List.any_cons, Bool.or_assoc]
      congr 2
      refine any_congr_mem fun j hj => ?_
      have hj' : j ≠ i := fun h => hil (h ▸ hj)
      rw [releases_congr (other j hj').1]

/-- Input j is one the cleanup visits: generic and not the valid shift input (R147). -/
def cleanable (c : Config) (j : Nat) : Prop :=
  j < c.nIn ∧ multifireAt c ≠ some j ∧ shiftAt c ≠ some j

theorem cleanupGeneric_spec {p : Panel} (hl : p.level.length = c.nIn) (hc : p.cnt.length = c.nIn) :
    SameRest p (cleanupGeneric c tOld tNew p) ∧
    (∀ j, (cleanable c j → releases tOld tNew p j = true →
      (cleanupGeneric c tOld tNew p).levelAt j = false ∧
      (cleanupGeneric c tOld tNew p).cntAt j = 0#7) ∧
      (¬ (cleanable c j ∧ releases tOld tNew p j = true) →
      (cleanupGeneric c tOld tNew p).levelAt j = p.levelAt j ∧
      (cleanupGeneric c tOld tNew p).cntAt j = p.cntAt j)) ∧
    (∀ d, (cleanupGeneric c tOld tNew p).dirty.get d = true ↔
      p.dirty.get d = true ∨ ∃ j, cleanable c j ∧ releases tOld tNew p j = true ∧
        category (codeAt tOld j) = some d) := by
  have hmem : ∀ j, j ∈ (genericInputs c).filter (fun i => decide (shiftAt c ≠ some i)) ↔
      cleanable c j := fun j => by
    simp [mem_genericInputs, cleanable, and_assoc]
  obtain ⟨r, a, b, e⟩ := foldl_cleanupInput (tOld := tOld) (tNew := tNew)
    ((genericInputs c).filter fun i => decide (shiftAt c ≠ some i)) p
    ((genericInputs_nodup c).filter _)
    (fun i hi => hl ▸ ((hmem i).mp hi).1) (fun i hi => hc ▸ ((hmem i).mp hi).1)
  refine ⟨r, fun j => ⟨fun h1 h2 => ?_, fun h => ?_⟩, fun d => ?_⟩
  · exact ⟨(a j).trans (if_pos ⟨(hmem j).mpr h1, h2⟩), (b j).trans (if_pos ⟨(hmem j).mpr h1, h2⟩)⟩
  · have hn : ¬ (j ∈ (genericInputs c).filter (fun i => decide (shiftAt c ≠ some i)) ∧
        releases tOld tNew p j = true) := fun hh => h ⟨(hmem j).mp hh.1, hh.2⟩
    exact ⟨(a j).trans (if_neg hn), (b j).trans (if_neg hn)⟩
  · unfold cleanupGeneric
    rw [e d, Bool.or_eq_true, List.any_eq_true]
    refine or_congr Iff.rfl ⟨?_, ?_⟩
    · rintro ⟨j, hj, h⟩
      simp only [Bool.and_eq_true, decide_eq_true_eq] at h
      exact ⟨j, (hmem j).mp hj, h.1, h.2⟩
    · rintro ⟨j, hj, h1, h2⟩
      exact ⟨j, (hmem j).mpr hj, by simp [h1, h2]⟩

/-- The multifire part of the cleanup marks dirty bits only (R148). -/
theorem cleanupMultifire_spec (p : Panel) :
    (∃ d, cleanupMultifire c tOld tNew p = { p with dirty := d }) ∧
    (∀ d, (cleanupMultifire c tOld tNew p).dirty.get d = true ↔
      p.dirty.get d = true ∨ ∃ m, multifireAt c = some m ∧ p.mfS = true ∧
        remapped tOld tNew m = true ∧
        (category (codeAt tOld m) = some d ∨ category (codeAt tNew m) = some d)) := by
  have hmark : ∀ (q : Panel) (o : Option Category), ∃ d, q.mark o = { q with dirty := d } := by
    intro q o
    cases o with
    | none => exact ⟨q.dirty, rfl⟩
    | some e => exact ⟨_, rfl⟩
  unfold cleanupMultifire
  cases hm : multifireAt c with
  | none => exact ⟨⟨p.dirty, rfl⟩, fun d => by simp⟩
  | some m =>
    by_cases h : p.mfS = true ∧ remapped tOld tNew m = true
    · dsimp only
      rw [if_pos h]
      refine ⟨?_, fun d => ?_⟩
      · obtain ⟨d1, h1⟩ := hmark p (category (codeAt tOld m))
        obtain ⟨d2, h2⟩ := hmark (p.mark (category (codeAt tOld m))) (category (codeAt tNew m))
        exact ⟨d2, by rw [h2, h1]⟩
      · simp [or_assoc, h]
    · simp only [h, if_false]
      refine ⟨⟨p.dirty, rfl⟩, fun d => ?_⟩
      constructor
      · exact Or.inl
      · rintro (h' | ⟨m', hm', h1, h2, _⟩)
        · exact h'
        · cases hm'; exact absurd ⟨h1, h2⟩ h

/-! ### Phase 4: quadrature -/

theorem quadState_congr {p q : Panel} (hl : q.level = p.level) (hm : q.mfS = p.mfS) (a : Axis) :
    quadState c q a = quadState c p a := by
  have h1 : shiftOn c q = shiftOn c p := by unfold shiftOn Panel.levelAt; rw [hl]
  have h2 : ∀ i, pressed c q i = pressed c p i := fun i => by
    unfold pressed effLevel Panel.levelAt; rw [hl, hm]
  unfold quadState active activeTable
  simp only [h1, h2]

/-- One axis of QUAD, said once (R157): it writes that axis of qprev and delta and marks Mouse. -/
theorem quadAxis_spec (a : Axis) (p : Panel) :
    (quadAxis c a p).level = p.level ∧ (quadAxis c a p).cnt = p.cnt ∧
    (quadAxis c a p).lastJoy = p.lastJoy ∧ (quadAxis c a p).mfGate = p.mfGate ∧
    (quadAxis c a p).mfBurst = p.mfBurst ∧ (quadAxis c a p).mfS = p.mfS ∧
    (quadAxis c a p).qprev = p.qprev.set a (quadState c p a) ∧
    (quadAxis c a p).delta =
      (if qstep (p.qprev.get a) (quadState c p a) = 0 then p.delta
        else p.delta.set a (satS8 (deltaSum c a p))) ∧
    (∀ d, (quadAxis c a p).dirty.get d = (p.dirty.get d ||
      (decide (qstep (p.qprev.get a) (quadState c p a) ≠ 0) && decide (d = .mouse)))) := by
  by_cases h : qstep (p.qprev.get a) (quadState c p a) = 0
  · have hq : quadAxis c a p = { p with qprev := p.qprev.set a (quadState c p a) } := by
      unfold quadAxis; simp only [h, if_true]
    rw [hq]
    exact ⟨rfl, rfl, rfl, rfl, rfl, rfl, rfl, by simp [h], fun d => by simp [h]⟩
  · have hq : quadAxis c a p = ({ p with delta := p.delta.set a (satS8 (deltaSum c a p))
                                         qprev := p.qprev.set a (quadState c p a) } : Panel).mark
        (some .mouse) := by
      unfold quadAxis; simp only [h, if_false]
    rw [hq]
    exact ⟨rfl, rfl, rfl, rfl, rfl, rfl, rfl, by simp [h, Panel.mark],
      fun d => by simp [h, eq_comm]⟩

/-- QUAD, said once (R157): both axes, each from the levels it finds. -/
theorem quadrature_spec (p : Panel) :
    (quadrature c p).level = p.level ∧ (quadrature c p).cnt = p.cnt ∧
    (quadrature c p).lastJoy = p.lastJoy ∧ (quadrature c p).mfGate = p.mfGate ∧
    (quadrature c p).mfBurst = p.mfBurst ∧ (quadrature c p).mfS = p.mfS ∧
    (∀ a, (quadrature c p).qprev.get a = quadState c p a) ∧
    (∀ a, (quadrature c p).delta.get a =
      if qstep (p.qprev.get a) (quadState c p a) = 0 then p.delta.get a
      else satS8 ((p.delta.get a).toInt + qstep (p.qprev.get a) (quadState c p a))) ∧
    (∀ d, (quadrature c p).dirty.get d = true ↔ p.dirty.get d = true ∨
      (d = .mouse ∧ ∃ a, qstep (p.qprev.get a) (quadState c p a) ≠ 0)) := by
  obtain ⟨x1, x2, x3, x4, x5, x6, x7, x8, x9⟩ := quadAxis_spec (c := c) .x p
  obtain ⟨y1, y2, y3, y4, y5, y6, y7, y8, y9⟩ := quadAxis_spec (c := c) .y (quadAxis c .x p)
  have hq : ∀ a, quadState c (quadAxis c .x p) a = quadState c p a := quadState_congr x1 x6
  unfold quadrature
  refine ⟨y1.trans x1, y2.trans x2, y3.trans x3, y4.trans x4, y5.trans x5, y6.trans x6, ?_, ?_, ?_⟩
  · intro a; rw [y7, x7, hq]; cases a <;> simp
  · intro a
    rw [y8, x8, x7, hq]
    cases a
    · split <;> split <;> simp_all [deltaSum]
    · split <;> split <;> simp_all [deltaSum]
  · intro d
    rw [y9, x9, x7, hq]
    simp only [PerAxis.get_set, reduceCtorEq, if_false, Bool.or_eq_true, Bool.and_eq_true,
      decide_eq_true_eq, ne_eq]
    constructor
    · rintro ((h | h) | h)
      · exact .inl h
      · exact .inr ⟨h.2, .x, h.1⟩
      · exact .inr ⟨h.2, .y, h.1⟩
    · rintro (h | ⟨hd, a, ha⟩)
      · exact .inl (.inl h)
      · cases a
        · exact .inl (.inr ⟨ha, hd⟩)
        · exact .inr ⟨ha, hd⟩

/-! ### Phases 1 to 3 together -/

/-- Phase 2 leaves levels, counts, last_joy, qprev and delta alone. -/
theorem multifire_levels (c : Config) (tOld : List KeyCode) (raw : RawIn) (p : Panel) :
    (multifire c tOld raw p).level = p.level ∧ (multifire c tOld raw p).cnt = p.cnt ∧
    (multifire c tOld raw p).lastJoy = p.lastJoy ∧ (multifire c tOld raw p).qprev = p.qprev ∧
    (multifire c tOld raw p).delta = p.delta := by
  cases h : multifireAt c with
  | none => rw [multifire_none h]; simp
  | some m =>
    rw [multifire_some h]
    obtain ⟨h1, h2, h3, h4, h5, -⟩ := multifireStep_spec (c := c) (tOld := tOld) (raw := raw) m p
    exact ⟨h1, h2, h3, h4, h5⟩

/-- shift_on depends on the shift input's level only (R143). -/
theorem shiftOn_congr {p q : Panel} (h : ∀ i, shiftAt c = some i → q.levelAt i = p.levelAt i) :
    shiftOn c q = shiftOn c p := by
  unfold shiftOn
  cases h' : shiftAt c with
  | none => rfl
  | some i => exact h i h'

/-- The active table depends on shift_on only (R143). -/
theorem table_congr {p q : Panel} (h : shiftOn c q = shiftOn c p) :
    activeTable c q = activeTable c p := by
  unfold activeTable; rw [h]

theorem foldl_sameRest {f : Panel → Nat → Panel} (hf : ∀ p i, SameRest p (f p i)) (l : List Nat)
    (p : Panel) : SameRest p (l.foldl f p) := by
  induction l generalizing p with
  | nil => exact SameRest.refl p
  | cons i l ih => exact (hf p i).trans (ih (f p i))

theorem foldl_keeps_dirty {f : Panel → Nat → Panel}
    (hf : ∀ p i d, p.dirty.get d = true → (f p i).dirty.get d = true) (l : List Nat) (p : Panel)
    (d : Category) (h : p.dirty.get d = true) : (l.foldl f p).dirty.get d = true := by
  induction l generalizing p with
  | nil => exact h
  | cons i l ih => exact ih (f p i) (hf p i d h)

/-- MF_GATE reads the gate and the burst counter only (R151). -/
theorem mfGateStep_congr {p q : Panel} (hg : q.mfGate = p.mfGate) (hb : q.mfBurst = p.mfBurst)
    (b : Bool) : (mfGateStep c b q).mfGate = (mfGateStep c b p).mfGate ∧
      (mfGateStep c b q).mfBurst = (mfGateStep c b p).mfBurst := by
  unfold mfGateStep
  rw [hg, hb]
  split
  · exact ⟨rfl, rfl⟩
  · split
    · split <;> exact ⟨rfl, rfl⟩
    · exact ⟨hg, hb⟩

/-- Phases 1 to 3, whatever the levels: last_joy, qprev and delta stay; the multifire machine moves as
R151 and R152 say; no dirty bit is cleared. -/
theorem sampleLevels_frame (c : Config) (raw : RawIn) (p : Panel) :
    (sampleLevels c raw p).lastJoy = p.lastJoy ∧ (sampleLevels c raw p).qprev = p.qprev ∧
    (sampleLevels c raw p).delta = p.delta ∧
    (multifireAt c = none → (sampleLevels c raw p).mfS = p.mfS ∧
      (sampleLevels c raw p).mfGate = p.mfGate ∧ (sampleLevels c raw p).mfBurst = p.mfBurst) ∧
    (∀ m, multifireAt c = some m →
      (sampleLevels c raw p).mfS = syntheticLevel c (mfGateStep c (raw.getLsbD m) p) ∧
      (sampleLevels c raw p).mfGate = (mfGateStep c (raw.getLsbD m) p).mfGate ∧
      (sampleLevels c raw p).mfBurst = (mfBurstStep (mfGateStep c (raw.getLsbD m) p)).mfBurst) ∧
    (∀ d, p.dirty.get d = true → (sampleLevels c raw p).dirty.get d = true) := by
  obtain ⟨a1, a2, a3, a4, a5, a6, -, -⟩ := foldl_sameRest
    (fun q i => debounceInput_sameRest (c := c) (tOld := activeTable c p) (raw := raw) i q)
    (genericInputs c) p
  have a7 := foldl_keeps_dirty (f := debounceInput c (activeTable c p) raw)
    (fun q i d h => by rw [debounceInput_dirty, h]; rfl) (genericInputs c) p
  change (debounceAll c (activeTable c p) raw p).lastJoy = _ at a1
  change (debounceAll c (activeTable c p) raw p).mfGate = _ at a2
  change (debounceAll c (activeTable c p) raw p).mfBurst = _ at a3
  change (debounceAll c (activeTable c p) raw p).mfS = _ at a4
  change (debounceAll c (activeTable c p) raw p).qprev = _ at a5
  change (debounceAll c (activeTable c p) raw p).delta = _ at a6
  change ∀ d, _ → (debounceAll c (activeTable c p) raw p).dirty.get d = true at a7
  have hs : sampleLevels c raw p = shiftCleanup c (activeTable c p) (shiftOn c p)
      (multifire c (activeTable c p) raw (debounceAll c (activeTable c p) raw p)) := rfl
  generalize debounceAll c (activeTable c p) raw p = p1 at *
  generalize activeTable c p = tOld at *
  obtain ⟨-, -, m3, m4, m5⟩ := multifire_levels c tOld raw p1
  have hm : ∀ d, p1.dirty.get d = true → (multifire c tOld raw p1).dirty.get d = true := by
    intro d h
    cases hv : multifireAt c with
    | none => rw [multifire_none hv]; exact h
    | some m =>
      rw [multifire_some hv, (multifireStep_spec m p1).2.2.2.2.2.2.2.2 d, h]; rfl
  have hclean : ∀ q, (shiftCleanup c tOld (shiftOn c p) q).lastJoy = q.lastJoy ∧
      (shiftCleanup c tOld (shiftOn c p) q).qprev = q.qprev ∧
      (shiftCleanup c tOld (shiftOn c p) q).delta = q.delta ∧
      (shiftCleanup c tOld (shiftOn c p) q).mfS = q.mfS ∧
      (shiftCleanup c tOld (shiftOn c p) q).mfGate = q.mfGate ∧
      (shiftCleanup c tOld (shiftOn c p) q).mfBurst = q.mfBurst ∧
      ∀ d, q.dirty.get d = true → (shiftCleanup c tOld (shiftOn c p) q).dirty.get d = true := by
    intro q
    unfold shiftCleanup
    split
    · exact ⟨rfl, rfl, rfl, rfl, rfl, rfl, fun _ h => h⟩
    · obtain ⟨b1, b2, b3, b4, b5, b6, -, -⟩ := foldl_sameRest
        (fun r i => cleanupInput_sameRest (tOld := tOld) (tNew := activeTable c q) i r)
        ((genericInputs c).filter fun i => decide (shiftAt c ≠ some i)) q
      have b7 := foldl_keeps_dirty (f := cleanupInput tOld (activeTable c q))
        (fun r i d h => by
          unfold cleanupInput
          split
          · simp [h]
          · exact h) ((genericInputs c).filter fun i => decide (shiftAt c ≠ some i)) q
      obtain ⟨⟨d', e1⟩, e2⟩ := cleanupMultifire_spec (c := c) (tOld := tOld)
        (tNew := activeTable c q) (cleanupGeneric c tOld (activeTable c q) q)
      refine ⟨?_, ?_, ?_, ?_, ?_, ?_, fun d h => (e2 d).mpr (.inl (b7 d h))⟩ <;> rw [e1]
      · exact b1
      · exact b5
      · exact b6
      · exact b4
      · exact b2
      · exact b3
  obtain ⟨s1, s2, s3, s4, s5, s6, s7⟩ := hclean (multifire c tOld raw p1)
  rw [hs]
  refine ⟨s1.trans (m3.trans a1), s2.trans (m4.trans a5), s3.trans (m5.trans a6), fun hv => ?_,
    fun m hv => ?_, fun d h => s7 d (hm d (a7 d h))⟩
  · rw [s4, s5, s6, multifire_none hv]; exact ⟨a4, a2, a3⟩
  · obtain ⟨-, -, -, -, -, g1, g2, g3, -⟩ := multifireStep_spec (c := c) (tOld := tOld) (raw := raw) m p1
    obtain ⟨k1, k2⟩ := mfGateStep_congr (c := c) a2 a3 (raw.getLsbD m)
    rw [s4, s5, s6, multifire_some hv, g1, g2, g3, k1]
    unfold syntheticLevel mfBurstStep
    rw [k2]
    refine ⟨rfl, rfl, ?_⟩
    split
    · exact k2
    · rfl

/-- level[j] after phase 1 (R142). -/
def levelAfterDebounce (c : Config) (raw : RawIn) (p : Panel) (j : Nat) : Bool :=
  if j ∈ genericInputs c then levelAfter c raw j p else p.levelAt j

/-- cnt[j] after phase 1 (R142). -/
def cntAfterDebounce (c : Config) (raw : RawIn) (p : Panel) (j : Nat) : BitVec 7 :=
  if j ∈ genericInputs c then cntAfter c raw j p else p.cntAt j

/-- Input j is released by the shift cleanup of this sample (R147). -/
def Released (c : Config) (raw : RawIn) (p : Panel) (j : Nat) : Prop :=
  shiftOn c (sampleLevels c raw p) ≠ shiftOn c p ∧ cleanable c j ∧
  remapped (activeTable c p) (activeTable c (sampleLevels c raw p)) j = true ∧
  levelAfterDebounce c raw p j = true

/-- Phases 1 to 3, said once (R142, R145 to R148, R153): every level and count, and exactly which dirty
bits are set. -/
theorem sampleLevels_spec (c : Config) (raw : RawIn) (p : Panel) (hl : p.level.length = c.nIn)
    (hc : p.cnt.length = c.nIn) :
    (∀ j, (Released c raw p j → (sampleLevels c raw p).levelAt j = false ∧
        (sampleLevels c raw p).cntAt j = 0#7) ∧
      (¬ Released c raw p j → (sampleLevels c raw p).levelAt j = levelAfterDebounce c raw p j ∧
        (sampleLevels c raw p).cntAt j = cntAfterDebounce c raw p j)) ∧
    (sampleLevels c raw p).level.length = c.nIn ∧ (sampleLevels c raw p).cnt.length = c.nIn ∧
    (∀ d, (sampleLevels c raw p).dirty.get d = true ↔ p.dirty.get d = true ∨
      (∃ j, j ∈ genericInputs c ∧ marksOnAccept c (activeTable c p) raw p d j = true) ∨
      (∃ m, multifireAt c = some m ∧ (sampleLevels c raw p).mfS ≠ p.mfS ∧
        category (codeAt (activeTable c p) m) = some d) ∨
      (∃ j, Released c raw p j ∧ category (codeAt (activeTable c p) j) = some d) ∨
      (∃ m, multifireAt c = some m ∧ shiftOn c (sampleLevels c raw p) ≠ shiftOn c p ∧
        remapped (activeTable c p) (activeTable c (sampleLevels c raw p)) m = true ∧
        (sampleLevels c raw p).mfS = true ∧
        (category (codeAt (activeTable c p) m) = some d ∨
          category (codeAt (activeTable c (sampleLevels c raw p)) m) = some d))) := by
  obtain ⟨d1, d2, d3, d4⟩ := debounceAll_spec (tOld := activeTable c p) (raw := raw) hl hc
  have hq : sampleLevels c raw p = shiftCleanup c (activeTable c p) (shiftOn c p)
      (multifire c (activeTable c p) raw (debounceAll c (activeTable c p) raw p)) := rfl
  unfold Released
  generalize sampleLevels c raw p = q at *
  generalize debounceAll c (activeTable c p) raw p = p1 at *
  obtain ⟨m1, m2, -, -, -⟩ := multifire_levels c (activeTable c p) raw p1
  have dirt2 : ∀ d, (multifire c (activeTable c p) raw p1).dirty.get d = true ↔
      p.dirty.get d = true ∨
      (∃ j, j ∈ genericInputs c ∧ marksOnAccept c (activeTable c p) raw p d j = true) ∨
      (∃ m, multifireAt c = some m ∧ (multifire c (activeTable c p) raw p1).mfS ≠ p.mfS ∧
        category (codeAt (activeTable c p) m) = some d) := by
    intro d
    have e1 := d4 d
    cases hm : multifireAt c with
    | none => rw [multifire_none hm, e1]; simp [List.any_eq_true]
    | some m =>
      obtain ⟨-, -, -, -, -, -, -, s1, s2⟩ :=
        multifireStep_spec (c := c) (tOld := activeTable c p) (raw := raw) m p1
      rw [multifire_some hm, s2, e1, s1, d1.2.2.2.1]
      simp only [Bool.or_eq_true, List.any_eq_true, Bool.and_eq_true, bne_iff_ne, decide_eq_true_eq]
      simp [or_assoc]
  generalize multifire c (activeTable c p) raw p1 = p2 at *
  have l2 : p2.level.length = c.nIn := by rw [m1, d1.2.2.2.2.2.2.1, hl]
  have c2 : p2.cnt.length = c.nIn := by rw [m2, d1.2.2.2.2.2.2.2, hc]
  have lev2 : ∀ j, p2.levelAt j = levelAfterDebounce c raw p j := fun j => by
    show p2.level.getD j false = _; rw [m1]; exact d2 j
  have cnt2 : ∀ j, p2.cntAt j = cntAfterDebounce c raw p j := fun j => by
    show p2.cnt.getD j 0#7 = _; rw [m2]; exact d3 j
  unfold shiftCleanup at hq
  by_cases hsh : shiftOn c p2 = shiftOn c p
  · rw [if_pos hsh] at hq
    subst hq
    refine ⟨fun j => ⟨fun h => absurd hsh h.1, fun _ => ⟨lev2 j, cnt2 j⟩⟩, l2, c2, fun d => ?_⟩
    rw [dirt2]; simp [hsh]
  · rw [if_neg hsh] at hq
    obtain ⟨⟨-, -, -, a4, -, -, a7, a8⟩, b, b3⟩ :=
      cleanupGeneric_spec (tOld := activeTable c p) (tNew := activeTable c p2) l2 c2
    generalize cleanupGeneric c (activeTable c p) (activeTable c p2) p2 = p3 at *
    obtain ⟨⟨dd, e1⟩, e2⟩ :=
      cleanupMultifire_spec (c := c) (tOld := activeTable c p) (tNew := activeTable c p2) p3
    rw [← hq] at e1 e2
    have ql : ∀ j, q.levelAt j = p3.levelAt j := fun j => by rw [e1]; rfl
    have qc : ∀ j, q.cntAt j = p3.cntAt j := fun j => by rw [e1]; rfl
    have shq : shiftOn c q = shiftOn c p2 := shiftOn_congr fun i hi => by
      rw [ql]; exact ((b i).2 fun h => h.1.2.2 hi).1
    have sh : shiftOn c q ≠ shiftOn c p := by rw [shq]; exact hsh
    rw [← table_congr shq] at b b3 e2
    have relq : ∀ j, (shiftOn c q ≠ shiftOn c p ∧ cleanable c j ∧
        remapped (activeTable c p) (activeTable c q) j = true ∧ levelAfterDebounce c raw p j = true) ↔
        cleanable c j ∧ releases (activeTable c p) (activeTable c q) p2 j = true := fun j => by
      unfold releases
      rw [Bool.and_eq_true, lev2 j]
      exact ⟨fun h => h.2, fun h => ⟨sh, h⟩⟩
    have qS : q.mfS = p2.mfS := by rw [e1]; exact a4
    refine ⟨fun j => ⟨fun h => ?_, fun h => ?_⟩, by rw [e1]; exact a7.trans l2,
      by rw [e1]; exact a8.trans c2, fun d => ?_⟩
    · rw [ql, qc]; exact (b j).1 ((relq j).mp h).1 ((relq j).mp h).2
    · rw [ql, qc]
      obtain ⟨h1, h2⟩ := (b j).2 fun h' => h ((relq j).mpr h')
      rw [h1, h2]; exact ⟨lev2 j, cnt2 j⟩
    · rw [e2, b3, dirt2, a4, qS]
      simp only [relq]
      constructor
      · rintro (((h | h | h) | ⟨j, h1, h2, h3⟩) | ⟨m, h1, h2, h3, h4⟩)
        · exact .inl h
        · exact .inr (.inl h)
        · exact .inr (.inr (.inl h))
        · exact .inr (.inr (.inr (.inl ⟨j, ⟨h1, h2⟩, h3⟩)))
        · exact .inr (.inr (.inr (.inr ⟨m, h1, sh, h3, h2, h4⟩)))
      · rintro (h | h | h | ⟨j, ⟨h1, h2⟩, h3⟩ | ⟨m, h1, _, h3, h2, h4⟩)
        · exact .inl (.inl (.inl h))
        · exact .inl (.inl (.inr (.inl h)))
        · exact .inl (.inl (.inr (.inr h)))
        · exact .inl (.inr ⟨j, h1, h2, h3⟩)
        · exact .inr ⟨m, h1, h2, h3, h4⟩

/-- Phase 4 leaves alone what phases 1 to 3 settle; so the table and the quadrature state after the
whole sample are those after phase 3. -/
theorem sampleTick_levels (c : Config) (raw : RawIn) (p : Panel) :
    (∀ j, (sampleTick c raw p).levelAt j = (sampleLevels c raw p).levelAt j) ∧
    (∀ j, (sampleTick c raw p).cntAt j = (sampleLevels c raw p).cntAt j) ∧
    shiftOn c (sampleTick c raw p) = shiftOn c (sampleLevels c raw p) ∧
    activeTable c (sampleTick c raw p) = activeTable c (sampleLevels c raw p) ∧
    (∀ a, quadState c (sampleTick c raw p) a = quadState c (sampleLevels c raw p) a) := by
  obtain ⟨h1, h2, -, -, -, h6, -⟩ := quadrature_spec (c := c) (sampleLevels c raw p)
  change (sampleTick c raw p).level = _ at h1
  change (sampleTick c raw p).cnt = _ at h2
  change (sampleTick c raw p).mfS = _ at h6
  have l : ∀ j, (sampleTick c raw p).levelAt j = (sampleLevels c raw p).levelAt j := fun j => by
    unfold Panel.levelAt; rw [h1]
  have s : shiftOn c (sampleTick c raw p) = shiftOn c (sampleLevels c raw p) :=
    shiftOn_congr fun i _ => l i
  exact ⟨l, fun j => by unfold Panel.cntAt; rw [h2], s, table_congr s, fun a => quadState_congr h1 h6 a⟩

end Sys2Proof.Machine
end

