-- ==== Sys2Proof/Tests/Slice0.lean ====
section
/-! SUPPORT. The model's own tests: refusals of ill-formed terms, words written out from the spec's
layouts, vectors of 95_test_vectors.md (named in each comment), and one witness for the hypotheses of
every statement that has any. -/

namespace Sys2Proof.Tests

open Sys2Proof Sys2Proof.Machine

/-! ### Helpers -/

/-- The state after the operations; the state itself where one of them is refused. -/
def after (is : List Instr) (s : State) : State :=
  match runOps is s with
  | .next t => t
  | _ => s

/-- Both units after reset, with one panel input per key code and debounce threshold d. -/
def panelWith (codes : List KeyCode) (d : Nat) : State :=
  State.resetWith
    { Config.vectors with nIn := codes.length, mapNormal := codes, mapShift := codes, debounce := d }

/-- Two channels, MAXB = 2, two inputs: a configuration small enough for the kernel. -/
def small : Config :=
  { Config.vectors with nCh := 2, nOut := 2, outMap := [1, 7], maxB := 2, debounce := 1 }

def smallState : State := State.resetWith small

/-- A multifire input (index 0) and a plain one, MF_LATENCY = 1, two presses of two samples. -/
def burstConfig : Config :=
  { small with mfIndex := some 0, mfLatency := 1, mfCount := 2, mfCycle := 2 }

/-- Program P4 with threshold 1: input 0 is the key A, input 1 the shift key. -/
def overlay : State :=
  State.resetWith { small with shiftIndex := some 1, mapNormal := [0x1004#16, 0#16],
                               mapShift := [0x1005#16, 0#16] }

def sba1 : Instr := .sba 1 0 0 0 1 0 0
def pba30 : Instr := .pba 30 0 0 0 0 0 0 0

/-! ### WellFormed: an ill-formed term for each check -/

theorem test_pba_marker_illformed : (Instr.pba 0x40 0 0 0 0 0 0 0).wellFormed = false := by decide
theorem test_pba_other_wellformed : (Instr.pba 0x41 0 0 0 0 0 0 0).wellFormed = true := by decide
theorem test_raw_too_wide : (Instr.sampleTick 4).fits Config.vectors = false := by decide
theorem test_raw_fits : (Instr.sampleTick 3).fits Config.vectors = true := by decide
theorem test_loadall_short :
    (Pseudo.loadAll 0 1 (List.replicate 31 0)).wellFormed = false := by decide
theorem test_loadall_openers : [0, 8, 16, 24].all (fun k =>
    (Pseudo.loadAll 0 1 ((List.replicate 32 0).set k 0x40)).wellFormed == false) = true := by decide
theorem test_loadall_64_inside :
    (Pseudo.loadAll 0 1 ((List.replicate 32 0).set 1 0x40)).wellFormed = true := by decide
theorem test_config_default : Config.vectors.wf = true := by decide

/-- One violation for each constraint of R10, at the value next to the bound. -/
theorem test_config_violations :
    [{ Config.vectors with nCh := 0 }, { Config.vectors with nCh := 33 },
     { Config.vectors with nOut := 0, outMap := [] },
     { Config.vectors with nOut := 33, outMap := List.range 33 },
     { Config.vectors with outMap := List.range 31 },
     { Config.vectors with outMap := (List.range 32).set 0 256 },
     { Config.vectors with maxB := 0 }, { Config.vectors with maxB := 129 },
     { Config.vectors with phaseScale := 65536 },
     { Config.vectors with maxB := 1, pattern := .table true [1, 2] [] [] [] },
     { Config.vectors with nIn := 0, mapNormal := [], mapShift := [] },
     { Config.vectors with nIn := 256, mapNormal := List.replicate 256 0,
                           mapShift := List.replicate 256 0 },
     { Config.vectors with debounce := 0 }, { Config.vectors with debounce := 128 },
     { Config.vectors with mapNormal := [0] }, { Config.vectors with mapShift := [0] },
     { Config.vectors with shiftIndex := some 256 }, { Config.vectors with mfIndex := some 256 },
     { Config.vectors with mfLatency := 0 }, { Config.vectors with mfLatency := 256 },
     { Config.vectors with mfCount := 0 }, { Config.vectors with mfCount := 256 },
     { Config.vectors with mfCycle := 1 }, { Config.vectors with mfCycle := 256 },
     { Config.vectors with shiftIndex := some 1, mfIndex := some 1 },
     { Config.vectors with reportId := { ReportIds.default with mouse := 1 } }].all
      (fun c => c.wf == false) = true := by decide +kernel

/-- Out-of-range indices and map entries are well-formed (R10). -/
theorem test_config_fallbacks_wellformed :
    ({ Config.vectors with shiftIndex := some 2, mfIndex := some 2,
                           outMap := (List.range 32).set 0 255 } : Config).wf = true := by decide

/-! ### Decoding: words written out from the layouts of R74, R75 and the opcode table -/

/-- SBA-4 of 95_test_vectors.md: 40 05 00 00 80 09 00 00, byte 0 in the low bits. -/
theorem test_decode_sba :
    decodeTableWord 64 0x0000098000000540 = some (.sba 5 0 0 0x80 9 0 0) := by decide
/-- PBA-1: 1E 00 00 00 00 00 00 00. -/
theorem test_decode_pba : decodeTableWord 64 0x1E = some pba30 := by decide
/-- A PBA with a different byte in each place. -/
theorem test_decode_pba_order :
    decodeTableWord 64 0x0807060504030201 = some (.pba 1 2 3 4 5 6 7 8) := by decide
/-- The strobe strings of the opcode table: 001, 100 of the LED unit; 010 of the Panel unit. -/
theorem test_decode_strobes : [decodeTableWord 8 1, decodeTableWord 8 4, decodeTableWord 8 2] =
    [some .pwmTick, some .resetLed, some (.sampleTick 0)] := by decide
/-- 001 and 100 of the Panel unit: GET_REPORT and RESET.PAN (log entry 13). -/
theorem test_decode_panel_strobes :
    [decode (.panel 0b001#3 7), decode (.panel 0b100#3 7), decode (.panel 0b010#3 7)].map
      (fun r => match r with
        | .ok i => some i
        | .error _ => none) = [some .getReport, some .resetPan, some (.sampleTick 7)] ∧
    decodeTableWord 8 9 = some .getReport ∧ decodeTableWord 8 12 = some .resetPan := by decide
theorem test_decode_rejects : [decode (.led 0b000#3 []), decode (.led 0b011#3 []),
    decode (.led 0b010#3 (List.replicate 7 0)), decode (.led 0b010#3 (List.replicate 9 0)),
    decode (.panel 0b111#3 0)].map (fun r => match r with
        | .ok _ => none
        | .error e => some e) =
    [some .idle, some .simultaneous, some .wrongLength, some .wrongLength, some .simultaneous] := by
  decide
theorem test_text_form : asmText (.sba 1 0 0 0 1 0 0) = "SBA 1, 0, 0, 0, 1" := by decide +kernel

/-! ### The step -/

theorem test_fetch_word_runs :
    (match step (State.reset.withFetchWord 64 0x0000010000000140) with
      | .next t => t.led.enabledAt 0 && !t.led.enabledAt 1
      | _ => false) = true := by decide

/-! ### SBA and PBA -/

/-- SBA-4: enables 0x80000005, speed 9 clamped to 7, bank_ptr 0 after 2. -/
theorem test_sba_4 :
    let t := (after [pba30, pba30, .sba 5 0 0 0x80 9 0 0] State.reset).led
    ((List.range 32).filter t.enabledAt, t.pulseSpeed, t.bankPtr) = ([0, 2, 31], 7#3, 0#2) := by
  decide
/-- SBA-6: N_CH = 20, condition 0x02. -/
theorem test_sba_6 :
    let t := after [.sba 0xFF 0xFF 0xFF 0xFF 3 0 0] (State.resetWith { Config.vectors with nCh := 20 })
    (t.led.enabled, t.led.pulseSpeed, t.ledDiag) =
      (List.replicate 20 true, 3#3, [DiagCode.ledChannelIgnored]) := by decide
/-- PBA-2: N_CH = 20, the third and fourth PBA. -/
theorem test_pba_2 :
    let s := State.resetWith { Config.vectors with nCh := 20 }
    let t := after [.pba 10 11 12 13 14 15 16 17, .pba 20 21 22 23 24 25 26 27,
      .pba 30 31 32 33 34 35 36 37, .pba 40 41 42 43 44 45 46 47] s
    (t.led.mode, t.led.bankPtr) =
      ([10, 11, 12, 13, 14, 15, 16, 17, 20, 21, 22, 23, 24, 25, 26, 27, 30, 31, 32, 33], 0#2) := by
  decide
/-- R55: a tick between the writes of a PBA sees a half-loaded bank. -/
theorem test_half_applied_command :
    let s := after [.sba 3 0 0 0 1 0 0] smallState
    let t := after [.pba 2 2 0 0 0 0 0 0] { s with plan := some [1] }
    (t.led.mode, t.pending.length, (after [.pwmTick] t).led.chOut, (settle t).led.mode) =
      ([0, 2], 2, [false, true], [2, 2]) := by decide

/-! ### PWM_TICK and RESET.LED -/

/-- T-7, T-10 and T-12 of 95_test_vectors.md. -/
theorem test_pwm_ticks :
    let c := { Config.vectors with nCh := 1 }
    let row := fun (mode : Byte) (counter : BitVec 8) (phase : BitVec 16) (speed : BitVec 3) =>
      let l := pwmTick c { (Led.resetValues c) with
        enabled := [true], mode := [mode], pwmCounter := counter, phase := phase, pulseSpeed := speed }
      (l.chOut, l.pwmCounter, l.phase)
    [row 129 10 0x4000 3, row 131 0 0xFFFF 7, row 49 0 0xFF80 2] =
      [([true], 9, 0x4000), ([false], 48, 0x037F), ([true], 48, 0x0080)] := by decide
/-- B-2 of 95_test_vectors.md, the rows 0x1000, 0x7FFF, 0x8000 and 0xFB00. -/
theorem test_bright :
    [0x1000, 0x7FFF, 0x8000, 0xFB00].map (fun ph => [129, 130, 131, 132, 50, 49].map fun m =>
      bright Config.vectors (BitVec.ofNat 8 m) (BitVec.ofNat 16 ph)) =
    [[6, 49, 46, 3, 0, 49], [49, 49, 25, 24, 0, 49], [49, 0, 24, 25, 0, 49], [1, 0, 0, 49, 0, 49]] := by
  decide
/-- T-13: OUT_MAP = [5, 40], active low, ch_out[5] = 1; X-1 for RESET.LED. -/
theorem test_output_map :
    let c := { Config.vectors with nOut := 2, outMap := [5, 40], outActiveHigh := false }
    let s := State.resetWith c
    (ledOut { s with led := { s.led with chOut := (List.replicate 32 false).set 5 true } } =
      [false, true]) ∧ ledOut (after [.resetLed] s) = [true, true] ∧
    (after [.resetLed] s).ledDiag = [.ledOutMapRange] ∧
    (after [.resetLed] s).led.pwmCounter = 48#8 := by decide

/-! ### SAMPLE_TICK, GET_REPORT and RESET.PAN -/

/-- Program P3: the source's scenario of joystick left and button 1. -/
theorem test_program_p3 :
    let s := after (List.replicate 3 (.sampleTick 3) ++ [.getReport]) State.reset
    (s.answer, s.pan.lastJoy, (after [.getReport] s).answer,
      (after (List.replicate 3 (.sampleTick 0) ++ [.getReport]) s).answer) =
    (.report [3, 0x0F, 1], 0#2, .noReport, .report [3, 0, 0]) := by decide +kernel
/-- Program P4 with D = 1: A pressed, shift pressed: A released, then pressed as K2. -/
theorem test_program_p4 :
    let s := after [.sampleTick 1, .getReport, .sampleTick 3] overlay
    (s.pan.level, (after [.getReport] s).answer,
      (after [.getReport, .sampleTick 3, .getReport] s).answer) =
    ([false, true], .report [1, 0, 0, 0, 0, 0, 0, 0], .report [1, 0, 5, 0, 0, 0, 0, 0]) := by decide
/-- R-PRI of 95_test_vectors.md: Joystick1, Joystick3, Mouse, Keyboard, Consumer, then nothing. -/
theorem test_report_priority :
    let s := after [.sampleTick 63]
      (panelWith [0x1004, 0x3000, 0x4000, 0x4200, 0x5004, 0x2001] 1)
    [1, 2, 3, 4, 5, 6].map (fun n => (after (List.replicate n .getReport) s).answer) =
    [.report [3, 0xF0, 0], .report [5, 0xF0, 0], .report [7, 1, 0, 0],
      .report [1, 2, 4, 0, 0, 0, 0, 0], .report [2, 1], .noReport] := by decide
/-- Q-1 of 95_test_vectors.md: A leads B counts +4; X-2 for RESET.PAN. -/
theorem test_quadrature :
    let s := after [.sampleTick 1, .sampleTick 3, .sampleTick 2, .sampleTick 0]
      (panelWith [0x5000, 0x5001] 1)
    (s.pan.delta.x, (after [.getReport] s).answer, (after [.resetPan] s).pan.delta.x,
      (after [.resetPan] s).pan.lastJoy) = (4#8, .report [7, 0, 4, 0], 0#8, 3#2) := by decide +kernel
/-- The burst of program P5, as R154 states it: presses at samples 2, 6 and 10, each two samples long. -/
theorem test_burst :
    let s := State.resetWith { small with mfIndex := some 0, mfLatency := 2, mfCount := 3, mfCycle := 4 }
    ((List.range 16).map fun n => (after (List.replicate n (.sampleTick 1)) s).pan.mfS).findIdxs id =
      [2, 3, 6, 7, 10, 11] := by decide +kernel

/-! ### Witnesses: the hypotheses of each statement are met together -/

/-- The small machine with something presented. -/
def presenting (l : List Input) : State := { smallState with inputs := l }

/-- The small machine in the middle of an SBA: enables written, speed and bank pointer outstanding. -/
def halfWay : State := after [sba1] { smallState with plan := some [0] }

/-- The small machine at bank 1, beyond its two channels. -/
def bankOne : State := after [pba30] smallState

/-- The overlay machine with A held. -/
def heldA : State := after [.sampleTick 1] overlay

/-- The overlay machine at the sample that accepts the shift key. -/
def shifted : State := after [.sampleTick 3] heldA

/-- Joystick1 dirty, last_joy = 3, the first of the search order. -/
def joyFirst : State := after [.sampleTick 1] (panelWith [0x4000] 1)

/-- Joystick1 dirty, last_joy = 0, the last of the search order. -/
def joyLast : State := after [.getReport, .sampleTick 0] joyFirst

theorem witness_DecodeEncodeRoundTrip : sba1.wellFormed = true ∧ pba30.wellFormed = true ∧
    encode sba1 = .led 0b010#3 [0x40, 1, 0, 0, 0, 1, 0, 0] ∧
    encode pba30 = .led 0b010#3 [30, 0, 0, 0, 0, 0, 0, 0] := by decide

theorem witness_StepRunsDecodedOperation :
    (presenting [.bus (.led 0b001#3 []) none 0]).inputs = .bus (.led 0b001#3 []) none 0 :: [] ∧
    decode (.led 0b001#3 []) = .ok .pwmTick := ⟨rfl, rfl⟩

theorem witness_SimultaneousEventsInEveryOrder : ∀ l ∈ [0b011#3, 0b111#3],
    (presenting [.bus (.panel l 1) none 0]).inputs = .bus (.panel l 1) none 0 :: [] ∧
    2 ≤ (raisedLines (BusEvent.lines (.panel l 1))).length := by decide

theorem witness_OutstandingWriteIsOneStep :
    ({ halfWay with inputs := [.finish 1] } : State).inputs = .finish 1 :: [] ∧
    halfWay.pending[1]? = some (.bank 0) ∧ halfWay.inputs = [] ∧
    halfWay.pending = .speed 1 :: [.bank 0] ∧ smallState.inputs = [] ∧ smallState.pending = [] := by
  decide

theorem witness_BrokenDutiesAreRefused : halfWay.cfg.wf = true ∧ halfWay.ledStarted = true ∧
    halfWay.pending ≠ [] ∧ (0x41#8 : Byte) ≠ 0x40#8 ∧
    (presenting [.bus (.led 0b010#3 (List.replicate 7 0)) none 0]).inputs =
      .bus (.led 0b010#3 (List.replicate 7 0)) none 0 :: [] ∧
    (List.replicate 7 (0 : Byte)).length ≠ 8 ∧ (List.replicate 9 (0 : Byte)).length ≠ 8 := by decide

theorem witness_OperationsNeedConfigurationAndReset : sba1.wellFormed = true ∧
    (State.resetWith { small with maxB := 0 }).cfg.wf = false ∧
    (State.powerOn small []).cfg.wf = true ∧ (State.powerOn small []).ledStarted = false ∧
    (State.powerOn small []).panStarted = false := by decide

theorem witness_SbaEffect : smallState.cfg.wf = true ∧ smallState.ledStarted = true ∧
    smallState.pending = [] ∧ smallState.plan = none := by decide

theorem witness_SbaTwiceIsOnce : smallState.plan = none ∧
    exec sba1 smallState = .next (after [sba1] smallState) := ⟨rfl, rfl⟩

theorem witness_PbaEffect : smallState.cfg.wf = true ∧ smallState.ledStarted = true ∧
    smallState.pending = [] ∧ smallState.plan = none ∧ (30#8 : Byte) ≠ 0x40#8 ∧
    smallState.led.mode.length = smallState.cfg.nCh := by decide

theorem witness_PbaBeyondChannelsWritesNoMode : bankOne.cfg.wf = true ∧ bankOne.ledStarted = true ∧
    bankOne.pending = [] ∧ bankOne.plan = none ∧ (30#8 : Byte) ≠ 0x40#8 ∧
    bankOne.cfg.nCh ≤ bankOne.led.bankPtr.toNat * 8 := by decide

/-- A RESET in the middle of a PBA, and an SBA. -/
theorem witness_PbasLoadBanksRoundRobin :
    (let s := after [pba30] { smallState with plan := some [0] }
     s.cfg.wf = true ∧ s.plan = none ∧ s.pending = [.mode 1 0, .bank 1]) ∧
    smallState.cfg.wf = true ∧ smallState.ledStarted = true ∧ smallState.pending = [] ∧
    smallState.led.mode.length = smallState.cfg.nCh ∧
    (∀ i ∈ [pba30, .pwmTick, pba30, .sampleTick 1], i.wellFormed = true ∧ i ≠ .resetLed ∧
      (¬ ∃ a b c d e f g, i = .sba a b c d e f g) ∧ (OfPanel i → smallState.panStarted = true)) ∧
    (30#8 : Byte) ≠ 0x40#8 :=
  ⟨by decide, by decide, rfl, rfl, rfl, by simp [pba30, Instr.wellFormed, smallState, State.resetWith],
    by decide⟩

theorem witness_LoadAllLoadsEveryChannel : smallState.cfg.wf = true ∧ smallState.ledStarted = true ∧
    smallState.pending = [] ∧ smallState.plan = none ∧
    smallState.led.mode.length = smallState.cfg.nCh ∧
    ((expand smallState.cfg (.loadAll 3 1 (List.replicate 32 7))).map List.length) = some 5 := by
  decide

theorem witness_CommandsChangeNoOutputAtOnce :
    exec sba1 { smallState with plan := some [2] } =
      .next (after [sba1] { smallState with plan := some [2] }) ∧
    exec pba30 smallState = .next (after [pba30] smallState) := ⟨rfl, rfl⟩

/-- Its clauses on cmd_busy: preempted at once, with one write left, and with two or more left. -/
theorem witness_InterleavedCommandConverges : sba1.wellFormed = true ∧ pba30.wellFormed = true ∧
    smallState.cfg.wf = true ∧ smallState.ledStarted = true ∧ smallState.pending = [] ∧
    let t := after [sba1] { smallState with plan := some [] }
    t.pending.length = 3 ∧
    (([.tick, .write 0, .write 1] : List Move).foldl (fun x m => m.apply x) t).pending = [.speed 1] := by
  decide

theorem witness_PwmTickEffect : smallState.cfg.wf = true ∧ smallState.ledStarted = true := by decide

theorem witness_DisabledChannelsStayDark :
    exec .pwmTick smallState = .next (after [.pwmTick] smallState) ∧
    smallState.led.enabledAt 0 = false ∧ smallState.led.enabledAt 2 = false := ⟨rfl, rfl, rfl⟩

theorem witness_SamePatternSameOutput : ∀ m ∈ [129, 130, 131, 132],
    let s := after [.sba 3 0 0 0 1 0 0, .pba (BitVec.ofNat 8 m) (BitVec.ofNat 8 m) 0 0 0 0 0 0] smallState
    (match exec .pwmTick s with
      | .next _ => true
      | _ => false) = true ∧ 0 < s.cfg.nCh ∧ 1 < s.cfg.nCh ∧ s.led.enabledAt 0 = true ∧
    s.led.enabledAt 1 = true ∧ 129 ≤ (s.led.modeAt 0).toNat ∧ (s.led.modeAt 0).toNat ≤ 132 ∧
    s.led.modeAt 0 = s.led.modeAt 1 := by decide

theorem witness_BrightnessLookup : small.wf = true := by decide

theorem witness_PatternFunctionsAreLawful :
    ({ small with pattern := .table true [1, 40] [50000] [9, 9] [] } : Config).wf = true := by decide

/-- A lawful pattern function: every ramp is dark, the rectangle is on in the half with the sign bit. -/
def darkRamps : Pattern → BitVec 16 → Nat
  | .rectangle, ph => if ph.getLsbD 15 then 1 else 0
  | _, _ => 0

theorem witness_EveryLawfulPatternIsAvailable : 1 ≤ 1 ∧ LawfulPattern 1 darkRamps := by
  refine ⟨le_rfl, ?_, ?_, ?_, ?_, ?_, ?_, ?_, ?_⟩
  · intro p ph; cases p <;> simp only [darkRamps] <;> first | split <;> omega | omega
  · intro ph; simp only [darkRamps]; split <;> simp
  · intro ph ph' h; simp only [darkRamps, h]
  · intro ph ph' h
    simp only [darkRamps]
    cases h1 : ph.getLsbD 15 <;> cases h2 : ph'.getLsbD 15 <;> simp_all
  all_goals intro ph ph'; simp [darkRamps]

theorem witness_StandardPatternReachesBothEnds :
    (1 ≤ 1 ∧ 1 ≤ 128) ∧ (1 ≤ 49 ∧ 49 ≤ 128) ∧ 1 ≤ 128 ∧ 128 ≤ 128 := by decide

/-- Two ticks of the small machine with a write of pulse_speed between them. -/
theorem witness_DutyCycleLaw :
    let s := after [.sba 1 0 0 0 1 0 0, .pba 1 0 0 0 0 0 0 0] smallState
    let b := after [.pwmTick] s
    let s1 := { b with led := [FieldWrite.speed 3].foldl (fun l w => FieldWrite.apply w l) b.led }
    s.cfg.wf = true ∧ s.ledStarted = true ∧ s.led.pwmCounter.toNat = s.cfg.maxB - 1 ∧ 0 < s.cfg.nCh ∧
    s1.led.enabledAt 0 = s.led.enabledAt 0 ∧ s1.led.modeAt 0 = s.led.modeAt 0 := by decide

theorem witness_OutputFollowsMap :
    let s := State.resetWith { small with outMap := [1, 2] }
    0 < s.cfg.nOut ∧ s.cfg.outMap[0]? = some 1 ∧ 1 < s.cfg.nCh ∧
    1 < s.cfg.nOut ∧ s.cfg.outMap[1]? = some 2 ∧ s.cfg.nCh ≤ 2 := by decide

theorem witness_ResetLedEffect : halfWay.cfg.wf = true ∧ (State.powerOn small []).cfg.wf = true := by
  decide

theorem witness_ResetThenTicksStaysInactive : halfWay.cfg.wf = true ∧ halfWay.pending ≠ [] := by decide

theorem witness_ResetPanelEffect : heldA.cfg.wf = true := by decide

theorem witness_BootOrderReachesReset : small.wf = true := by decide

theorem witness_SampleTickOnlySetsDirtyBits : heldA.cfg.wf = true ∧ heldA.panStarted = true ∧
    heldA.pan.dirty.get .keyboard = true := by decide

/-- A sample that releases a remapped input, and one with a multifire input. -/
theorem witness_LevelsAfterSample :
    exec (.sampleTick 3) heldA = .next shifted ∧ heldA.pan.level.length = heldA.cfg.nIn ∧
    heldA.pan.cnt.length = heldA.cfg.nIn ∧ shiftOn heldA.cfg shifted.pan ≠ shiftOn heldA.cfg heldA.pan ∧
    multifireAt (State.resetWith burstConfig).cfg = some 0 ∧
    exec (.sampleTick 3) (State.resetWith burstConfig) =
      .next (after [.sampleTick 3] (State.resetWith burstConfig)) :=
  ⟨rfl, rfl, rfl, by decide +kernel, by decide +kernel, rfl⟩

theorem witness_SampleTickMarksExactly :
    exec (.sampleTick 3) heldA = .next shifted ∧ heldA.pan.level.length = heldA.cfg.nIn ∧
    heldA.pan.cnt.length = heldA.cfg.nIn := ⟨rfl, rfl, rfl⟩

theorem witness_ShiftTableWhileShiftHeld : overlay.cfg.shiftIndex = some 1 ∧ 1 < overlay.cfg.nIn ∧
    ({ small with shiftIndex := some 2 } : Config).nIn ≤ 2 ∧ small.shiftIndex = none ∧
    burstConfig.mfIndex = some 0 ∧ 0 < burstConfig.nIn := by decide +kernel

theorem witness_MultifireMachineStep :
    exec (.sampleTick 1) smallState = .next (after [.sampleTick 1] smallState) ∧
    multifireAt smallState.cfg = none ∧
    exec (.sampleTick 1) (State.resetWith burstConfig) =
      .next (after [.sampleTick 1] (State.resetWith burstConfig)) ∧
    multifireAt (State.resetWith burstConfig).cfg = some 0 := ⟨rfl, rfl, rfl, rfl⟩

theorem witness_BurstLaw :
    let s := State.resetWith burstConfig
    s.cfg.wf = true ∧ s.panStarted = true ∧ multifireAt s.cfg = some 0 ∧ s.pan.mfGate = 0#8 ∧
    s.pan.mfBurst = 0#16 ∧ s.pan.mfS = false ∧
    ∀ r ∈ ([1, 3, 1] : List RawIn), r.getLsbD 0 = true :=
  ⟨by decide +kernel, rfl, by decide +kernel, rfl, rfl, rfl, by simp⟩

theorem witness_HeldMultifirePressesCountTimes :
    let s := State.resetWith burstConfig
    s.cfg.wf = true ∧ s.panStarted = true ∧ multifireAt s.cfg = some 0 ∧ s.pan.mfGate = 0#8 ∧
    s.pan.mfBurst = 0#16 ∧ s.pan.mfS = false ∧
    (∀ r ∈ (List.replicate 4 1 : List RawIn), r.getLsbD 0 = true) ∧
    s.cfg.mfLatency + s.cfg.mfCount * s.cfg.mfCycle - 1 ≤ (List.replicate 4 (1 : RawIn)).length :=
  ⟨by decide +kernel, rfl, by decide +kernel, rfl, rfl, rfl, by simp, by decide +kernel⟩

theorem witness_QuadratureAccumulates :
    exec (.sampleTick 1) smallState = .next (after [.sampleTick 1] smallState) := rfl

theorem witness_DebounceIdempotence : smallState.cfg.wf = true ∧ smallState.panStarted = true ∧
    smallState.pan.level.length = smallState.cfg.nIn ∧ smallState.pan.cnt.length = smallState.cfg.nIn ∧
    1 < smallState.cfg.nIn ∧ multifireAt smallState.cfg ≠ some 1 ∧ shiftAt smallState.cfg ≠ some 1 ∧
    (∀ r ∈ ([2, 3] : List RawIn), r.getLsbD 1 = true) ∧ smallState.cfg.debounce ≤ 2 ∧
    ∀ n u, runOps (([2, 3].take n).map .sampleTick) smallState = .next u →
      shiftOn smallState.cfg u.pan = shiftOn smallState.cfg smallState.pan :=
  ⟨by decide +kernel, rfl, rfl, rfl, by decide +kernel, by decide +kernel, by decide +kernel, by simp,
    by decide +kernel, fun _ _ _ => rfl⟩

theorem witness_ShiftOverlayCorrectness :
    exec (.sampleTick 3) heldA = .next shifted ∧ heldA.pan.level.length = heldA.cfg.nIn ∧
    heldA.pan.cnt.length = heldA.cfg.nIn ∧ 0 < heldA.cfg.nIn ∧ multifireAt heldA.cfg ≠ some 0 ∧
    shiftAt heldA.cfg ≠ some 0 ∧ heldA.pan.levelAt 0 = true ∧
    shiftOn heldA.cfg shifted.pan ≠ shiftOn heldA.cfg heldA.pan ∧
    func (codeAt (activeTable heldA.cfg heldA.pan) 0) = some (.key 4) ∧
    func (codeAt (activeTable heldA.cfg shifted.pan) 0) = some (.key 5) ∧
    ([3] : List RawIn).length = heldA.cfg.debounce ∧
    (∀ r ∈ ([3] : List RawIn), r.getLsbD 0 = true) ∧
    ∀ n u, runOps (([3].take n).map .sampleTick) shifted = .next u →
      shiftOn heldA.cfg u.pan = shiftOn heldA.cfg shifted.pan := by
  refine ⟨rfl, rfl, rfl, by decide +kernel, by decide +kernel, by decide +kernel, by decide +kernel,
    by decide +kernel, by decide +kernel, by decide +kernel, rfl, by simp, fun n u h => ?_⟩
  cases n with
  | zero =>
    have h' : Host.Outcome.next shifted = Host.Outcome.next u := h
    cases h'; rfl
  | succ n =>
    have h0 : ([3].take (n + 1) : List RawIn) = [3] := by simp
    rw [h0] at h
    have h' : Host.Outcome.next (after [.sampleTick 3] shifted) = Host.Outcome.next u := h
    cases h'
    decide +kernel

theorem witness_NoReportChangesNothing : smallState.cfg.wf = true ∧ smallState.panStarted = true ∧
    ∀ cat, smallState.pan.dirty.get cat = false :=
  ⟨by decide +kernel, rfl, fun cat => by cases cat <;> rfl⟩

theorem witness_ReportClearsItsCategory : heldA.cfg.wf = true ∧ heldA.panStarted = true ∧
    ∃ cat, heldA.pan.dirty.get cat = true := ⟨by decide +kernel, rfl, .keyboard, by decide +kernel⟩

theorem witness_CategoryPriority : exec .getReport heldA = .next (after [.getReport] heldA) ∧
    (after [.getReport] heldA).answer = .report [1, 0, 4, 0, 0, 0, 0, 0] := ⟨rfl, by decide +kernel⟩

theorem witness_JoystickRoundRobin : joyFirst.cfg.wf = true ∧ joyFirst.panStarted = true ∧
    joyFirst.pan.dirty.get (Category.joystick (joyFirst.pan.lastJoy + BitVec.ofNat 2 1)) = true ∧
    joyLast.cfg.wf = true ∧ joyLast.panStarted = true ∧
    joyLast.pan.dirty.get (Category.joystick (joyLast.pan.lastJoy + BitVec.ofNat 2 4)) = true ∧
    ∀ k', 1 ≤ k' → k' < 4 →
      joyLast.pan.dirty.get (Category.joystick (joyLast.pan.lastJoy + BitVec.ofNat 2 k')) = false := by
  refine ⟨by decide +kernel, rfl, by decide +kernel, by decide +kernel, rfl, by decide +kernel,
    fun k' h1 h2 => ?_⟩
  have h : k' = 1 ∨ k' = 2 ∨ k' = 3 := by omega
  rcases h with rfl | rfl | rfl <;> decide +kernel

theorem witness_NoJoystickStarves : joyLast.cfg.wf = true ∧ joyLast.panStarted = true ∧
    joyLast.pan.dirty.get (Category.joystick 0) = true := by decide +kernel

theorem witness_RepPendingMeansReport : smallState.cfg.wf = true ∧ smallState.panStarted = true := by
  decide +kernel

theorem witness_KeyboardReportBytes : heldA.cfg.wf = true ∧ heldA.panStarted = true ∧
    (∀ j, heldA.pan.dirty.get (Category.joystick j) = false) ∧ heldA.pan.dirty.get .mouse = false ∧
    heldA.pan.dirty.get .keyboard = true := by decide +kernel

theorem witness_ConsumerReportBytes :
    let s := after [.sampleTick 1] (panelWith [0x3005] 1)
    s.cfg.wf = true ∧ s.panStarted = true ∧
    ∀ cat, s.pan.dirty.get cat = decide (cat = .consumer) := by
  refine ⟨by decide +kernel, rfl, fun cat => ?_⟩
  cases cat <;> decide +kernel

theorem witness_JoystickReportBytes : exec .getReport joyLast = .next (after [.getReport] joyLast) ∧
    pickJoystick joyLast.pan = some 0 := ⟨rfl, by decide +kernel⟩

theorem witness_MouseReportBytes :
    let s := after [.sampleTick 1] (panelWith [0x5000] 1)
    s.cfg.wf = true ∧ s.panStarted = true ∧
    (∀ j, s.pan.dirty.get (Category.joystick j) = false) ∧ s.pan.dirty.get .mouse = true := by
  decide +kernel

theorem witness_ReportStandsOnPort :
    (after [.getReport] heldA).answer = .report [1, 0, 4, 0, 0, 0, 0, 0] ∧
    (after [.getReport] heldA).answer.Legal heldA.cfg := by
  have h : (after [.getReport] heldA).answer = .report [1, 0, 4, 0, 0, 0, 0, 0] := by decide +kernel
  exact ⟨h, h ▸ ⟨.keyboard, by decide +kernel, by decide +kernel⟩⟩

/-- The small machine is legal whatever is presented. -/
theorem presenting_legal (l : List Input) : (presenting l).Legal := by
  have hm : multifireAt (presenting l).cfg = none := rfl
  have hs : smallState.cfg.wf = true ∧ smallState.led.pulseSpeed ≠ 0#3 ∧
      smallState.led.pwmCounter.toNat < smallState.cfg.maxB := by decide
  refine ⟨hs.1, fun _ => ⟨rfl, rfl, rfl, hs.2.1, hs.2.2⟩, fun w hw => ?_, Nat.zero_le _, fun _ => rfl,
    fun _ => ⟨rfl, rfl, ?_, Nat.zero_le _, Nat.zero_le _, fun _ => rfl, ?_, ?_, fun _ => ⟨rfl, rfl, rfl⟩,
      ?_⟩, trivial, fun _ => rfl⟩
  · exact absurd hw (List.not_mem_nil)
  · intro i hi
    have h : i = 0 ∨ i = 1 := by
      have h2 : i < 2 := hi
      omega
    rcases h with rfl | rfl <;> exact Nat.zero_lt_one
  · intro a; cases a <;> show (-127 : Int) ≤ (0#8).toInt <;> decide
  · intro m h; rw [hm] at h; cases h
  · have hq : smallState.pan.qprev.x = quadState smallState.cfg smallState.pan .x ∧
        smallState.pan.qprev.y = quadState smallState.cfg smallState.pan .y := by decide
    intro a; cases a
    · exact hq.1
    · exact hq.2

theorem witness_StepKeepsStateLegal : (presenting [.bus (.led 0b001#3 []) none 0]).Legal ∧
    step (presenting [.bus (.led 0b001#3 []) none 0]) = .next (after [.pwmTick] smallState) :=
  ⟨presenting_legal _, rfl⟩

theorem witness_StartingStatesAreLegal : small.wf = true := by decide

/-- Each clause of the host's duties is met by some presentation. -/
theorem witness_DutifulStepsGoOn :
    (∀ l, (presenting l).Legal) ∧ Dutiful (presenting []) ∧ Dutiful (presenting [.finish 0]) ∧
    Dutiful (presenting [.bus (.led 0b010#3 (List.replicate 8 0)) none 0]) ∧
    Dutiful (presenting [.bus (.led 0b001#3 []) none 0]) ∧
    Dutiful (presenting [.bus (.panel 0b010#3 1) none 0]) ∧
    Dutiful (State.powerOn small [.load small]) := by
  refine ⟨presenting_legal, trivial, trivial, ⟨fun _ => ⟨rfl, rfl, rfl⟩, fun _ => rfl⟩,
    ⟨fun h => absurd h (by decide), fun _ => rfl⟩, fun _ => rfl, rfl, rfl, by decide⟩

theorem witness_ConfigurationNeverChanges : smallState.ledStarted = true ∧
    step smallState = .next smallState := ⟨rfl, rfl⟩

theorem witness_UnitsShareNoState :
    exec sba1 smallState = .next (after [sba1] smallState) ∧
    exec .resetLed smallState = .next (after [.resetLed] smallState) ∧
    exec .getReport heldA = .next (after [.getReport] heldA) ∧
    exec .resetPan heldA = .next (after [.resetPan] heldA) := ⟨rfl, rfl, rfl, rfl⟩

/-- Two states with the same LED unit and different Panel units, and the other way round. -/
theorem witness_UnitsDoNotObserveEachOther :
    exec (.sampleTick 1) smallState = .next (after [.sampleTick 1] smallState) ∧
    let other := { smallState with pan := { smallState.pan with lastJoy := 0 } }
    let other' := { smallState with led := { smallState.led with phase := 5 } }
    other.cfg = smallState.cfg ∧ exec .pwmTick smallState = .next (after [.pwmTick] smallState) ∧
    other.led = smallState.led ∧ other.ledStarted = smallState.ledStarted ∧
    other.pending = smallState.pending ∧ other.plan = smallState.plan ∧
    other.ledOps = smallState.ledOps ∧ other.pan ≠ smallState.pan ∧
    other'.cfg = smallState.cfg ∧ exec .getReport smallState = .next (after [.getReport] smallState) ∧
    other'.pan = smallState.pan ∧ other'.panStarted = smallState.panStarted ∧
    other'.led ≠ smallState.led :=
  ⟨rfl, rfl, rfl, rfl, rfl, rfl, rfl, rfl, by decide, rfl, rfl, rfl, rfl, by decide⟩

/-- An operation of each unit that meets a condition, and one that meets none. -/
theorem witness_DiagnosticsChangeNothing :
    (let t := after [.sba 8 0 0 0 0 0 0] smallState
     exec (.sba 8 0 0 0 0 0 0) smallState = .next t ∧
       t.ledDiag = [.ledSpeedClamped, .ledChannelIgnored]) ∧
    (let s := { smallState with cfg := { small with mfIndex := some 2 } }
     exec .resetPan s = .next (after [.resetPan] s) ∧
       (after [.resetPan] s).panDiag = [.panMfIndexRange]) ∧
    exec .getReport { heldA with ledDiag := [.ledModeOffValue], panDiag := [] } =
      .next (after [.getReport] { heldA with ledDiag := [.ledModeOffValue], panDiag := [] }) :=
  ⟨⟨rfl, by decide⟩, ⟨rfl, by decide⟩, rfl⟩

/-- The boundary codes of each class in R80's table, and two codes that differ in ignored bits only. -/
theorem witness_KeyCodesNameFunctions :
    [0x0FFF#16, 0x1F00#16, 0x1001#16, 0x2FFF#16, 0x3000#16, 0x4300#16, 0x410B#16, 0x400C#16, 0x5F03#16,
      0x5006#16, 0x5007#16, 0x6000#16, 0xFFFF#16].map func =
    [none, none, some (.key 1), some (.modifier 7), some (.consumer 0), some (.joyDir 3 .up),
      some (.joyButton 1 7), none, some (.phase .y .b), some (.mouseButton 2), none, none, none] ∧
    (0x4CF2#16).extractLsb' 12 4 = (0x4002#16).extractLsb' 12 4 ∧
    (0x4CF2#16).extractLsb' 8 2 = (0x4002#16).extractLsb' 8 2 ∧
    (0x4CF2#16).extractLsb' 0 4 = (0x4002#16).extractLsb' 0 4 ∧
    func 0x4CF2#16 = some (.joyDir 0 .left) := by decide

end Sys2Proof.Tests
end

/-! PROOFS. The family 00_scope.md: the step, the guards, the two units, and PATTERN_FN (R2, R9, R10,
R13, R126, R213). -/

namespace Sys2Proof.Machine

/-! ### The operations: when they run and what they answer -/

/-! The guards of R10 and R213, on the side where they refuse. -/

theorem whenLed_illFormed {s : State} (hc : s.cfg.wf = false)
    (run : Host.Outcome State Fault Refusal) : whenLed s run = .refused .illFormedConfig := by
  unfold whenLed; rw [if_pos hc]

theorem whenPanel_illFormed {s : State} (hc : s.cfg.wf = false)
    (run : Host.Outcome State Fault Refusal) : whenPanel s run = .refused .illFormedConfig := by
  unfold whenPanel; rw [if_pos hc]

theorem whenConfigured_illFormed {s : State} (hc : s.cfg.wf = false)
    (run : Host.Outcome State Fault Refusal) : whenConfigured s run = .refused .illFormedConfig := by
  unfold whenConfigured; rw [if_pos hc]

theorem whenLed_unstarted {s : State} (hc : s.cfg.wf = true) (hs : s.ledStarted = false)
    (run : Host.Outcome State Fault Refusal) : whenLed s run = .refused .beforeFirstReset := by
  unfold whenLed; rw [hc, if_neg (by decide), if_pos hs]

theorem whenPanel_unstarted {s : State} (hc : s.cfg.wf = true) (hs : s.panStarted = false)
    (run : Host.Outcome State Fault Refusal) : whenPanel s run = .refused .beforeFirstReset := by
  unfold whenPanel; rw [hc, if_neg (by decide), if_pos hs]

/-- A PBA whose first byte is not the marker is guarded as every command is (R75). -/
theorem exec_pba_of_ne_marker {m0 : Byte} (hm : m0 ≠ 0x40#8) (m1 m2 m3 m4 m5 m6 m7 : Byte)
    (s : State) :
    exec (.pba m0 m1 m2 m3 m4 m5 m6 m7) s =
      whenLed s (whenIdle s (.next
        (deliver (pbaWrites s.cfg s.led.bankPtr [m0, m1, m2, m3, m4, m5, m6, m7])
          (pbaDiag s.cfg s.led.bankPtr [m0, m1, m2, m3, m4, m5, m6, m7]) s))) :=
  if_neg hm

theorem next_eq_next {s t : State} :
    (Host.Outcome.next s : Host.Outcome State Fault Refusal) = .next t ↔ t = s := by
  rw [Host.Outcome.next.injEq, eq_comm]

/-! One inversion lemma per operation: exactly when it answers a next state, and which. -/

theorem exec_sba_next {en0 en1 en2 en3 spd x6 x7 : Byte} {s t : State} :
    exec (.sba en0 en1 en2 en3 spd x6 x7) s = .next t ↔
      s.cfg.wf = true ∧ s.ledStarted = true ∧ s.pending = [] ∧
        t = deliver (sbaWrites s.cfg [en0, en1, en2, en3] spd)
          (sbaDiag s.cfg [en0, en1, en2, en3] spd) s := by
  show execSba en0 en1 en2 en3 spd s = _ ↔ _
  simp only [execSba, whenLed_next, whenIdle_next, next_eq_next]

theorem exec_pba_next {m0 m1 m2 m3 m4 m5 m6 m7 : Byte} {s t : State} :
    exec (.pba m0 m1 m2 m3 m4 m5 m6 m7) s = .next t ↔
      m0 ≠ 0x40#8 ∧ s.cfg.wf = true ∧ s.ledStarted = true ∧ s.pending = [] ∧
        t = deliver (pbaWrites s.cfg s.led.bankPtr [m0, m1, m2, m3, m4, m5, m6, m7])
          (pbaDiag s.cfg s.led.bankPtr [m0, m1, m2, m3, m4, m5, m6, m7]) s := by
  by_cases hm : m0 = 0x40#8
  · have hrefused : exec (.pba m0 m1 m2 m3 m4 m5 m6 m7) s = .refused .pbaMarkerByte := if_pos hm
    rw [hrefused]
    exact ⟨nofun, fun h => absurd hm h.1⟩
  · rw [exec_pba_of_ne_marker hm, whenLed_next, whenIdle_next, next_eq_next, and_iff_right hm]

theorem exec_pwmTick_next {s t : State} :
    exec .pwmTick s = .next t ↔
      s.cfg.wf = true ∧ s.ledStarted = true ∧
        t = { s with led := pwmTick s.cfg s.led, ledDiag := [], ledOps := s.ledOps + 1 } := by
  show execPwmTick s = _ ↔ _
  simp only [execPwmTick, whenLed_next, next_eq_next]

theorem exec_resetLed_next {s t : State} :
    exec .resetLed s = .next t ↔
      s.cfg.wf = true ∧
        t = { s with led := Led.resetValues s.cfg
                     ledStarted := true
                     pending := writesAfterReset s
                     ledDiag := resetLedDiag s.cfg
                     ledOps := s.ledOps + 1 } := by
  show execResetLed s = _ ↔ _
  simp only [execResetLed, whenConfigured_next, next_eq_next]

theorem exec_sampleTick_next {raw : RawIn} {s t : State} :
    exec (.sampleTick raw) s = .next t ↔
      s.cfg.wf = true ∧ s.panStarted = true ∧
        t = { s with pan := sampleTick s.cfg raw s.pan
                     panDiag := sampleDiag s.cfg raw s.pan
                     panOps := s.panOps + 1 } := by
  show execSampleTick raw s = _ ↔ _
  simp only [execSampleTick, whenPanel_next, next_eq_next]

theorem exec_getReport_next {s t : State} :
    exec .getReport s = .next t ↔
      s.cfg.wf = true ∧ s.panStarted = true ∧
        t = { s with pan := (getReport s.cfg s.pan).panel
                     answer := (getReport s.cfg s.pan).answer
                     panDiag := (getReport s.cfg s.pan).diag
                     panOps := s.panOps + 1 } := by
  show execGetReport s = _ ↔ _
  simp only [execGetReport, whenPanel_next, next_eq_next]

theorem exec_resetPan_next {s t : State} :
    exec .resetPan s = .next t ↔
      s.cfg.wf = true ∧
        t = { s with pan := Panel.resetValues s.cfg
                     panStarted := true
                     answer := .noReport
                     panDiag := resetPanDiag s.cfg
                     panOps := s.panOps + 1 } := by
  show execResetPan s = _ ↔ _
  simp only [execResetPan, whenConfigured_next, next_eq_next]

/-! The step whose next input is an event that decodes (R13, R72). -/

theorem fetch_bus {s : State} {e : BusEvent} {plan : Option (List Nat)} {tie : Nat}
    {rest : List Input} (hin : s.inputs = .bus e plan tie :: rest) :
    fetch s = fetchBus e plan tie { s with inputs := rest } := by
  unfold fetch; rw [hin]

theorem fetchBus_of_decode {e : BusEvent} {i : Instr} (hd : decode e = .ok i)
    (plan : Option (List Nat)) (tie : Nat) (s : State) :
    fetchBus e plan tie s = .run i { s with plan := plan } := by
  unfold fetchBus; rw [hd]

theorem step_of_fetch_run {s t : State} {i : Instr} (hf : fetch s = .run i t) :
    step s = exec i t := by
  unfold step; rw [hf]

/-- Settles O5: the event is fetched, and decodes to the operation that is run. -/
theorem stepRunsDecodedOperation : Obligations.StepRunsDecodedOperation := by
  intro s e plan tie rest i hin hd
  exact step_of_fetch_run ((fetch_bus hin).trans (fetchBus_of_decode hd plan tie _))

/-- Settles O9: each operation stands behind its unit's guard, which refuses. -/
theorem operationsNeedConfigurationAndReset :
    Obligations.OperationsNeedConfigurationAndReset := by
  intro i s hi
  refine ⟨fun hc => ?_, fun hc hs hled => ?_, fun hc hs hpan => ?_⟩
  · cases i with
    | pba m0 =>
      rw [exec_pba_of_ne_marker (bne_iff_ne.mp hi)]
      exact whenLed_illFormed hc _
    | sba => exact whenLed_illFormed hc _
    | pwmTick => exact whenLed_illFormed hc _
    | sampleTick raw => exact whenPanel_illFormed hc _
    | getReport => exact whenPanel_illFormed hc _
    | resetLed => exact whenConfigured_illFormed hc _
    | resetPan => exact whenConfigured_illFormed hc _
  · obtain ⟨_, _, _, _, _, _, _, rfl⟩ | ⟨m0, _, _, _, _, _, _, _, rfl⟩ | rfl := hled
    · exact whenLed_unstarted hc hs _
    · rw [exec_pba_of_ne_marker (bne_iff_ne.mp hi)]
      exact whenLed_unstarted hc hs _
    · exact whenLed_unstarted hc hs _
  · obtain ⟨raw, rfl⟩ | rfl := hpan
    · exact whenPanel_unstarted hc hs _
    · exact whenPanel_unstarted hc hs _

/-! ### The two units (R2) -/

/-- Settles O57: `deliver_frame` for the commands, the written record for the other operations. -/
theorem unitsShareNoState : Obligations.UnitsShareNoState := by
  intro i s t h
  constructor
  · rintro (⟨_, _, _, _, _, _, _, rfl⟩ | ⟨_, _, _, _, _, _, _, _, rfl⟩ | rfl | rfl)
    · obtain ⟨-, -, -, rfl⟩ := exec_sba_next.mp h
      obtain ⟨-, -, hstarted, hpan, hanswer, hdiag, hops, -⟩ := deliver_frame _ _ s
      exact ⟨hpan, hstarted, hanswer, hdiag, hops⟩
    · obtain ⟨-, -, -, -, rfl⟩ := exec_pba_next.mp h
      obtain ⟨-, -, hstarted, hpan, hanswer, hdiag, hops, -⟩ := deliver_frame _ _ s
      exact ⟨hpan, hstarted, hanswer, hdiag, hops⟩
    · obtain ⟨-, -, rfl⟩ := exec_pwmTick_next.mp h
      exact ⟨rfl, rfl, rfl, rfl, rfl⟩
    · obtain ⟨-, rfl⟩ := exec_resetLed_next.mp h
      exact ⟨rfl, rfl, rfl, rfl, rfl⟩
  · rintro (⟨raw, rfl⟩ | rfl | rfl)
    · obtain ⟨-, -, rfl⟩ := exec_sampleTick_next.mp h
      exact ⟨rfl, rfl, rfl, rfl, rfl, rfl⟩
    · obtain ⟨-, -, rfl⟩ := exec_getReport_next.mp h
      exact ⟨rfl, rfl, rfl, rfl, rfl, rfl⟩
    · obtain ⟨-, rfl⟩ := exec_resetPan_next.mp h
      exact ⟨rfl, rfl, rfl, rfl, rfl, rfl⟩

/-- The command agent finds the same work in both states: the same LED fields and the same outstanding
writes. -/
def SameWork (s s' : State) : Prop := s'.led = s.led ∧ s'.pending = s.pending

theorem perform_sameWork {s s' : State} (h : SameWork s s') (k : Nat) :
    SameWork (perform k s) (perform k s') := by
  obtain ⟨hled, hpending⟩ := h
  unfold perform
  rw [hpending]
  cases s.pending[k]? with
  | none => exact ⟨hled, hpending⟩
  | some w => exact ⟨congrArg w.apply hled, rfl⟩

theorem settle_sameWork {s s' : State} (h : SameWork s s') : SameWork (settle s) (settle s') := by
  obtain ⟨hled, hpending⟩ := h
  exact ⟨by simp only [settle, hled, hpending], rfl⟩

/-- The command agent's work depends on nothing but that work and the scheduler's plan. -/
theorem runAgent_sameWork (plan : Option (List Nat)) {s s' : State} (h : SameWork s s') :
    SameWork (runAgent plan s) (runAgent plan s') := by
  cases plan with
  | none => exact settle_sameWork h
  | some ks =>
    show SameWork (ks.foldl (fun s k => perform k s) s) (ks.foldl (fun s k => perform k s) s')
    induction ks generalizing s s' with
    | nil => exact h
    | cons k ks ih => exact ih (perform_sameWork h k)

theorem deliver_sameWork (ws : List FieldWrite) (diag : List DiagCode) {s s' : State}
    (hled : s'.led = s.led) (hplan : s'.plan = s.plan) :
    SameWork (deliver ws diag s) (deliver ws diag s') := by
  unfold deliver
  rw [hplan]
  exact runAgent_sameWork s.plan ⟨hled, rfl⟩

theorem writesAfterReset_congr {s s' : State} (hpending : s'.pending = s.pending)
    (hops : s'.ledOps = s.ledOps) : writesAfterReset s' = writesAfterReset s := by
  unfold writesAfterReset
  rw [hpending, hops]

/-- The LED unit's pins are a function of the configuration and of the unit (R129). -/
theorem ledOut_congr {s s' : State} (hcfg : s'.cfg = s.cfg) (hled : s'.led = s.led) :
    ledOut s' = ledOut s := by
  unfold ledOut
  rw [hcfg, hled]

/-- A delivered command shows the same LED unit, outstanding writes, pins and conditions in any two
states that agree on the configuration, the LED unit and the plan. -/
theorem deliver_observed_congr (ws : List FieldWrite) (diag : List DiagCode) {s s' : State}
    (hcfg : s'.cfg = s.cfg) (hled : s'.led = s.led) (hplan : s'.plan = s.plan) :
    (deliver ws diag s').led = (deliver ws diag s).led ∧
    (deliver ws diag s').pending = (deliver ws diag s).pending ∧
    ledOut (deliver ws diag s') = ledOut (deliver ws diag s) ∧
    (deliver ws diag s').ledDiag = (deliver ws diag s).ledDiag := by
  obtain ⟨hled', hpending'⟩ := deliver_sameWork ws diag hled hplan
  have hcfg' : (deliver ws diag s').cfg = (deliver ws diag s).cfg :=
    (deliver_frame ws diag s').1.trans (hcfg.trans (deliver_frame ws diag s).1.symm)
  exact ⟨hled', hpending', ledOut_congr hcfg' hled', by simp only [deliver_ledDiag]⟩

/-- What an LED operation does depends on the configuration and the LED unit only (R2). -/
theorem ledOperation_congr {i : Instr} {s s' t : State} (hi : OfLed i) (h : exec i s = .next t)
    (hcfg : s'.cfg = s.cfg) (hled : s'.led = s.led) (hstarted : s'.ledStarted = s.ledStarted)
    (hpending : s'.pending = s.pending) (hplan : s'.plan = s.plan) (hops : s'.ledOps = s.ledOps) :
    ∃ t', exec i s' = .next t' ∧ t'.led = t.led ∧ t'.pending = t.pending ∧ ledOut t' = ledOut t ∧
      t'.ledDiag = t.ledDiag := by
  obtain ⟨_, _, _, _, _, _, _, rfl⟩ | ⟨_, _, _, _, _, _, _, _, rfl⟩ | rfl | rfl := hi
  · obtain ⟨hc, hs, hp, rfl⟩ := exec_sba_next.mp h
    refine ⟨_, exec_sba_next.mpr ⟨hcfg ▸ hc, hstarted ▸ hs, hpending ▸ hp, rfl⟩, ?_⟩
    rw [hcfg]
    exact deliver_observed_congr _ _ hcfg hled hplan
  · obtain ⟨hm, hc, hs, hp, rfl⟩ := exec_pba_next.mp h
    refine ⟨_, exec_pba_next.mpr ⟨hm, hcfg ▸ hc, hstarted ▸ hs, hpending ▸ hp, rfl⟩, ?_⟩
    rw [hcfg, hled]
    exact deliver_observed_congr _ _ hcfg hled hplan
  · obtain ⟨hc, hs, rfl⟩ := exec_pwmTick_next.mp h
    have hled' : pwmTick s'.cfg s'.led = pwmTick s.cfg s.led := by rw [hcfg, hled]
    exact ⟨_, exec_pwmTick_next.mpr ⟨hcfg ▸ hc, hstarted ▸ hs, rfl⟩, hled', hpending,
      ledOut_congr hcfg hled', rfl⟩
  · obtain ⟨hc, rfl⟩ := exec_resetLed_next.mp h
    have hled' : Led.resetValues s'.cfg = Led.resetValues s.cfg := by rw [hcfg]
    exact ⟨_, exec_resetLed_next.mpr ⟨hcfg ▸ hc, rfl⟩, hled', writesAfterReset_congr hpending hops,
      ledOut_congr hcfg hled', congrArg resetLedDiag hcfg⟩

/-- What a Panel operation does depends on the configuration and the Panel unit only (R2); a SAMPLE_TICK
leaves the answer as it was (log entry 5). -/
theorem panelOperation_congr {i : Instr} {s s' t : State} (hi : OfPanel i) (h : exec i s = .next t)
    (hcfg : s'.cfg = s.cfg) (hpan : s'.pan = s.pan) (hstarted : s'.panStarted = s.panStarted) :
    ∃ t', exec i s' = .next t' ∧ t'.pan = t.pan ∧ t'.panDiag = t.panDiag ∧
      (i = .getReport ∨ i = .resetPan ∨ s'.answer = s.answer → t'.answer = t.answer) := by
  obtain ⟨raw, rfl⟩ | rfl | rfl := hi
  · obtain ⟨hc, hs, rfl⟩ := exec_sampleTick_next.mp h
    refine ⟨_, exec_sampleTick_next.mpr ⟨hcfg ▸ hc, hstarted ▸ hs, rfl⟩, ?_⟩
    simp [hcfg, hpan]
  · obtain ⟨hc, hs, rfl⟩ := exec_getReport_next.mp h
    refine ⟨_, exec_getReport_next.mpr ⟨hcfg ▸ hc, hstarted ▸ hs, rfl⟩, ?_⟩
    simp [hcfg, hpan]
  · obtain ⟨hc, rfl⟩ := exec_resetPan_next.mp h
    refine ⟨_, exec_resetPan_next.mpr ⟨hcfg ▸ hc, rfl⟩, ?_⟩
    simp [hcfg]

/-- Settles O58, one unit at a time. -/
theorem unitsDoNotObserveEachOther : Obligations.UnitsDoNotObserveEachOther := by
  intro i s s' t hcfg h
  exact ⟨fun hi => ledOperation_congr hi h hcfg, fun hi => panelOperation_congr hi h hcfg⟩

/-! ### Every lawful PATTERN_FN is a table of thresholds (R126) -/

/-- The sign bit of the phase parts its range in two halves. -/
theorem getLsbD_sign_iff (ph : BitVec 16) : ph.getLsbD 15 = true ↔ 0x8000 ≤ ph.toNat := by
  rw [← BitVec.msb_eq_getLsbD_last, BitVec.msb_eq_decide, decide_eq_true_iff]

theorem countP_range_lt (k n : Nat) :
    (List.range n).countP (fun j => decide (j < k)) = min k n := by
  induction n with
  | zero => simp
  | succ n ih =>
    rw [List.range_succ, List.countP_append, ih, List.countP_singleton]
    simp only [decide_eq_true_eq]
    split <;> omega

/-- A property that on D, once met, holds of every higher phase is met from some threshold on: the least
phase that meets it, or 2^16 where none does. -/
theorem exists_threshold (D P : BitVec 16 → Prop)
    (hup : ∀ ph ph', D ph → D ph' → ph.toNat ≤ ph'.toNat → P ph → P ph') :
    ∃ t : Nat, ∀ ph, D ph → (t ≤ ph.toNat ↔ P ph) := by
  classical
  by_cases hex : ∃ n, ∃ ph : BitVec 16, ph.toNat = n ∧ D ph ∧ P ph
  · obtain ⟨least, hleast, hD, hP⟩ := Nat.find_spec hex
    refine ⟨Nat.find hex, fun ph hph => ⟨fun hle => ?_, fun h => ?_⟩⟩
    · exact hup least ph hD hph (hleast.trans_le hle) hP
    · exact Nat.find_min' hex ⟨ph, rfl, hph, h⟩
  · refine ⟨2 ^ 16, fun ph hph => ⟨fun hle => ?_, fun h => ?_⟩⟩
    · exact absurd ph.isLt (Nat.not_lt.mpr hle)
    · exact absurd ⟨_, ph, rfl, hph, h⟩ hex

/-- A bounded function that never falls on D is there the count of the thresholds it has reached. -/
theorem exists_thresholds_of_monotone {maxB : Nat} (D : BitVec 16 → Prop) {g : BitVec 16 → Nat}
    (hrange : ∀ ph, g ph ≤ maxB)
    (hmono : ∀ ph ph', D ph → D ph' → ph.toNat ≤ ph'.toNat → g ph ≤ g ph') :
    ∃ ts : List Nat, ts.length = maxB ∧
      ∀ ph, D ph → ts.countP (fun t => decide (t ≤ ph.toNat)) = g ph := by
  choose t ht using fun j => exists_threshold D (fun ph => j < g ph)
    fun ph ph' hph hph' hle h => h.trans_le (hmono ph ph' hph hph' hle)
  refine ⟨(List.range maxB).map t, by simp, fun ph hph => ?_⟩
  calc ((List.range maxB).map t).countP (fun t => decide (t ≤ ph.toNat))
      = (List.range maxB).countP (fun j => decide (j < g ph)) := by
        simp only [List.countP_map, Function.comp_def, ht _ ph hph]
    _ = g ph := (countP_range_lt _ _).trans (Nat.min_eq_left (hrange ph))

/-- A bounded function that never rises on D is there the count of the thresholds it has not reached. -/
theorem exists_thresholds_of_antitone {maxB : Nat} (D : BitVec 16 → Prop) {g : BitVec 16 → Nat}
    (hrange : ∀ ph, g ph ≤ maxB)
    (hanti : ∀ ph ph', D ph → D ph' → ph.toNat ≤ ph'.toNat → g ph' ≤ g ph) :
    ∃ ts : List Nat, ts.length = maxB ∧
      ∀ ph, D ph → ts.countP (fun t => decide (ph.toNat < t)) = g ph := by
  choose t ht using fun j => exists_threshold D (fun ph => g ph ≤ j)
    fun ph ph' hph hph' hle h => (hanti ph ph' hph hph' hle).trans h
  have hlt : ∀ j ph, D ph → (ph.toNat < t j ↔ j < g ph) := fun j ph hph => by
    simpa only [Nat.not_le] using not_congr (ht j ph hph)
  refine ⟨(List.range maxB).map t, by simp, fun ph hph => ?_⟩
  calc ((List.range maxB).map t).countP (fun t => decide (ph.toNat < t))
      = (List.range maxB).countP (fun j => decide (j < g ph)) := by
        simp only [List.countP_map, Function.comp_def, hlt _ ph hph]
    _ = g ph := (countP_range_lt _ _).trans (Nat.min_eq_left (hrange ph))

/-- A lawful rectangle is MAXB on one half of the phase and 0 on the other; the phase 0x8000 tells which
(P3 of R126). -/
theorem LawfulPattern.rectangle_eq {maxB : Nat} {f : Pattern → BitVec 16 → Nat}
    (h : LawfulPattern maxB f) (ph : BitVec 16) :
    (if ph.getLsbD 15 = decide (f .rectangle 0x8000#16 = maxB) then maxB else 0) =
      f .rectangle ph := by
  have hvalues := h.rectangle_values ph
  have hhigh := h.rectangle_values 0x8000#16
  have hsign : (0x8000#16).getLsbD 15 = true := by decide
  cases hph : ph.getLsbD 15 with
  | true =>
    have hsame := h.rectangle_sign_only ph 0x8000#16 (hph.trans hsign.symm)
    by_cases hb : f .rectangle 0x8000#16 = maxB <;> simp [hb] <;> omega
  | false =>
    have hdiff := h.rectangle_differs ph 0x8000#16 (by rw [hph, hsign]; decide)
    by_cases hb : f .rectangle 0x8000#16 = maxB <;> simp [hb] <;> omega

/-- Settles O23: the table whose lists are the thresholds of the four ramps. -/
theorem everyLawfulPatternIsAvailable : Obligations.EveryLawfulPatternIsAvailable := by
  intro maxB f _ h
  obtain ⟨up, hup, up_eq⟩ := exists_thresholds_of_monotone (fun ph => ph.toNat ≤ 0x7FFF)
    (h.range .triangle) fun ph ph' _ hph' hle => h.triangle_up ph ph' hle hph'
  obtain ⟨down, hdown, down_eq⟩ := exists_thresholds_of_antitone (fun ph => 0x8000 ≤ ph.toNat)
    (h.range .triangle) fun ph ph' hph _ hle => h.triangle_down ph ph' hph hle
  obtain ⟨fall, hfall, fall_eq⟩ := exists_thresholds_of_antitone (fun _ => True)
    (h.range .fall) fun ph ph' _ _ hle => h.fall_antitone ph ph' hle
  obtain ⟨rise, hrise, rise_eq⟩ := exists_thresholds_of_monotone (fun _ => True)
    (h.range .rise) fun ph ph' _ _ hle => h.rise_monotone ph ph' hle
  refine ⟨.table (decide (f .rectangle 0x8000#16 = maxB)) up down fall rise, ?_, fun p ph => ?_⟩
  · simp [PatternFn.wf, hup, hdown, hfall, hrise]
  · cases p with
    | triangle =>
      show (if ph.getLsbD 15 = true then _ else _) = _
      by_cases hsign : ph.getLsbD 15 = true
      · rw [if_pos hsign]
        exact down_eq ph ((getLsbD_sign_iff ph).mp hsign)
      · rw [if_neg hsign]
        exact up_eq ph (by have := mt (getLsbD_sign_iff ph).mpr hsign; omega)
    | rectangle => exact h.rectangle_eq ph
    | fall => exact fall_eq ph trivial
    | rise => exact rise_eq ph trivial

end Sys2Proof.Machine

/-! PROOFS. The family 10_state.md: the legal values of every field, at the start and after every step
(R20, R23, R25, R29, R30, R32, R38, R39, R149, R150). -/

namespace Sys2Proof.Machine

section

variable {c : Config} {raw : RawIn}

/-! ### What a well-formed configuration bounds (R9, R10) -/

theorem Config.wf_maxB (h : c.wf = true) : 1 ≤ c.maxB ∧ c.maxB ≤ 128 := by
  simp only [Config.wf, Config.ledWf, Bool.and_eq_true, decide_eq_true_eq] at h
  omega

theorem Config.wf_debounce (h : c.wf = true) : 1 ≤ c.debounce ∧ c.debounce ≤ 127 := by
  simp only [Config.wf, Config.panelWf, Bool.and_eq_true, decide_eq_true_eq] at h
  omega

theorem Config.wf_burst (h : c.wf = true) : 1 ≤ c.mfCount ∧ 2 ≤ c.mfCycle := by
  simp only [Config.wf, Config.panelWf, Bool.and_eq_true, decide_eq_true_eq] at h
  omega

/-! ### The LED unit (R20) -/

theorem Led.resetValues_legal (hwf : c.wf = true) : (Led.resetValues c).Legal c := by
  have hmax := Config.wf_maxB hwf
  refine ⟨List.length_replicate, List.length_replicate, List.length_replicate,
    show 1#3 ≠ 0#3 by decide, ?_⟩
  show (BitVec.ofNat 8 (c.maxB - 1)).toNat < c.maxB
  rw [BitVec.toNat_ofNat]
  omega

/-- The counter steps down, or reloads MAXB - 1 (R25, R127). -/
theorem pwmTick_counter_lt (hwf : c.wf = true) {l : Led} (h : l.pwmCounter.toNat < c.maxB) :
    (pwmTick c l).pwmCounter.toNat < c.maxB := by
  have hmax := Config.wf_maxB hwf
  rw [pwmTick_pwmCounter]
  split
  · rw [BitVec.toNat_ofNat]
    omega
  · bv_omega

theorem pwmTick_legal (hwf : c.wf = true) {l : Led} (h : l.Legal c) : (pwmTick c l).Legal c where
  enabled_length := by rw [pwmTick_enabled, h.enabled_length]
  mode_length := by rw [pwmTick_mode, h.mode_length]
  chOut_length := by rw [pwmTick_chOut, List.length_map, List.length_range]
  speed_pos := by rw [pwmTick_pulseSpeed]; exact h.speed_pos
  counter_lt := pwmTick_counter_lt hwf h.counter_lt

/-- An outstanding write that a command makes keeps the LED unit legal, whenever it takes effect. -/
theorem FieldWrite.Legal.apply {w : FieldWrite} (hw : w.Legal c) {l : Led} (h : l.Legal c) :
    (w.apply l).Legal c := by
  cases w with
  | enables en => exact { h with enabled_length := hw }
  | speed v => exact { h with speed_pos := hw }
  | mode ch v => exact { h with mode_length := List.length_set.trans h.mode_length }
  | bank v => exact { h with }

theorem foldl_apply_legal {ws : List FieldWrite} (hws : ∀ w ∈ ws, w.Legal c) {l : Led}
    (h : l.Legal c) : (ws.foldl (fun l w => w.apply l) l).Legal c :=
  List.foldlRecOn ws _ h fun _ hl w hw => (hws w hw).apply hl

/-- The clamped pulse speed is never 0 (R23, R102). -/
theorem speedOf_ne_zero (spd : Byte) : speedOf spd ≠ 0#3 := by
  unfold speedOf clampNat
  intro h
  have h' := congrArg BitVec.toNat h
  simp only [BitVec.toNat_ofNat] at h'
  split at h'
  · omega
  · split at h' <;> omega

theorem sbaWrites_legal (c : Config) (enBytes : List Byte) (spd : Byte) :
    (∀ w ∈ sbaWrites c enBytes spd, w.Legal c) ∧ (sbaWrites c enBytes spd).length ≤ 9 := by
  refine ⟨?_, by simp [sbaWrites]⟩
  simp [sbaWrites, FieldWrite.Legal, speedOf_ne_zero]

theorem pbaWrites_legal (c : Config) (bk : BitVec 2) (ms : List Byte) :
    (∀ w ∈ pbaWrites c bk ms, w.Legal c) ∧ (pbaWrites c bk ms).length ≤ 9 := by
  unfold pbaWrites
  constructor
  · intro w hw
    obtain hmode | hbank := List.mem_append.mp hw
    · obtain ⟨k, -, hk⟩ := List.mem_filterMap.mp hmode
      unfold modeWrite at hk
      split at hk
      · cases hk
        assumption
      · cases hk
    · rw [List.mem_singleton.mp hbank]
      trivial
  · have h := List.length_filterMap_le (modeWrite c bk ms) (List.range 8)
    rw [List.length_range] at h
    rw [List.length_append, List.length_singleton]
    omega

/-! ### The Panel unit: reset and reports (R30) -/

/-- With no level pressed and mf_s released both axes stand at 00 (R155). -/
theorem quadState_released {p : Panel} (hlevel : ∀ i, p.levelAt i = false) (hmfS : p.mfS = false)
    (a : Axis) : quadState c p a = 0b00#2 := by
  have hpressed : ∀ i, pressed c p i = false := fun i => by simp [pressed, effLevel, hlevel, hmfS]
  have hactive : ∀ f, active c p f = false := fun f => by simp [active, hpressed]
  unfold quadState
  rw [hactive, hactive]
  rfl

theorem Panel.resetValues_levelAt (c : Config) (i : Nat) :
    (Panel.resetValues c).levelAt i = false :=
  List.getElem?_getD_replicate_default_eq _ c.nIn i

theorem Panel.resetValues_cntAt (c : Config) (i : Nat) : (Panel.resetValues c).cntAt i = 0#7 :=
  List.getElem?_getD_replicate_default_eq _ c.nIn i

/-- No motion is a legal value of delta (R39). -/
theorem zeroDelta_ge (a : Axis) :
    -127 ≤ (({ x := 0#8, y := 0#8 } : PerAxis (BitVec 8)).get a).toInt := by
  cases a <;> decide

theorem Panel.resetValues_legal (hwf : c.wf = true) : (Panel.resetValues c).Legal c where
  level_length := List.length_replicate
  cnt_length := List.length_replicate
  cnt_lt i _ := by
    rw [Panel.resetValues_cntAt]
    exact (Config.wf_debounce hwf).1
  gate_le := Nat.zero_le _
  burst_le := Nat.zero_le _
  rest_released _ := rfl
  delta_ge := zeroDelta_ge
  multifire_untouched m _ := ⟨Panel.resetValues_levelAt c m, Panel.resetValues_cntAt c m⟩
  no_multifire _ := ⟨rfl, rfl, rfl⟩
  qprev_current a := by
    rw [quadState_released (Panel.resetValues_levelAt c) rfl]
    cases a <;> rfl

/-- The dirty bits, last_joy and delta are what GET_REPORT writes (R170); of these only delta has an
illegal value. -/
theorem Panel.Legal.withReported {p : Panel} (h : p.Legal c) (d : Dirty) (j : BitVec 2)
    {v : PerAxis (BitVec 8)} (hv : ∀ a, -127 ≤ (v.get a).toInt) :
    ({ p with dirty := d, lastJoy := j, delta := v } : Panel).Legal c :=
  { h with
    delta_ge := hv
    qprev_current := fun a => (h.qprev_current a).trans (quadState_congr rfl rfl a).symm }

/-- Six key slots are enough for the keys that the scan keeps (R174). -/
theorem scanFunction_keys_length {acc : KeyScan} (h : acc.keys.length ≤ 6) (f : Option Function) :
    (scanFunction acc f).keys.length ≤ 6 := by
  unfold scanFunction
  split
  · exact h
  · split
    · exact h
    · split
      · rw [List.length_append, List.length_singleton]
        omega
      · exact h
  · exact h

theorem keyScan_keys_length (c : Config) (p : Panel) : (keyScan c p).keys.length ≤ 6 := by
  unfold keyScan
  refine List.foldlRecOn (motive := fun acc : KeyScan => acc.keys.length ≤ 6) _ _ (Nat.zero_le 6) ?_
  intro acc h i _
  unfold scanInput
  split
  · exact scanFunction_keys_length h _
  · exact h

theorem keyboardBytes_length (c : Config) (p : Panel) : (keyboardBytes c p).length = 8 := by
  have h := keyScan_keys_length c p
  simp only [keyboardBytes, List.length_append, List.length_replicate, List.length_cons,
    List.length_nil]
  omega

theorem reportLength_joystick (j : BitVec 2) : reportLength (Category.joystick j) = 3 := by
  revert j; decide

/-- What GET_REPORT answers has a report's format (R79, R83), and the Panel unit stays legal. -/
theorem getReport_legal {p : Panel} (h : p.Legal c) :
    (getReport c p).panel.Legal c ∧ (getReport c p).answer.Legal c := by
  obtain ⟨j, -, hr⟩ | ⟨-, -, hr⟩ | ⟨-, -, -, hr⟩ | ⟨-, -, -, -, hr⟩ | ⟨-, -, -, -, hr⟩ :=
    getReport_cases c p
  · rw [hr]
    exact ⟨h.withReported _ j h.delta_ge, _, rfl, (reportLength_joystick j).symm⟩
  · rw [hr]
    exact ⟨h.withReported _ p.lastJoy zeroDelta_ge, .mouse, rfl, rfl⟩
  · rw [hr]
    exact ⟨h.withReported _ p.lastJoy h.delta_ge, .keyboard, rfl, keyboardBytes_length c p⟩
  · rw [hr]
    exact ⟨h.withReported _ p.lastJoy h.delta_ge, .consumer, rfl, rfl⟩
  · rw [hr]
    exact ⟨h, trivial⟩

/-! ### The Panel unit: SAMPLE_TICK -/

/-- A count that has not reached D stays below it (R32, R142). -/
theorem cntAfter_lt (hwf : c.wf = true) (i : Nat) (p : Panel) :
    (cntAfter c raw i p).toNat < c.debounce := by
  have hD := Config.wf_debounce hwf
  unfold cntAfter
  split
  · exact hD.1
  · rename_i h
    obtain ⟨hdiff, hreject⟩ := not_or.mp h
    have hlow : ¬ c.debounce ≤ min ((p.cntAt i).toNat + 1) 127 := fun hle => hreject <| by
      rw [accepts, decide_eq_true hle, Bool.and_true]
      exact bne_iff_ne.mpr hdiff
    rw [BitVec.toNat_ofNat]
    omega

theorem cntAfterDebounce_lt (hwf : c.wf = true) {p : Panel} (h : p.Legal c) {i : Nat}
    (hi : i < c.nIn) : (cntAfterDebounce c raw p i).toNat < c.debounce := by
  unfold cntAfterDebounce
  split
  · exact cntAfter_lt hwf i p
  · exact h.cnt_lt i hi

theorem sampleLevels_cnt_lt (hwf : c.wf = true) {p : Panel} (h : p.Legal c) {i : Nat}
    (hi : i < c.nIn) : ((sampleLevels c raw p).cntAt i).toNat < c.debounce := by
  obtain ⟨hcases, -⟩ := sampleLevels_spec c raw p h.level_length h.cnt_length
  by_cases hr : Released c raw p i
  · rw [((hcases i).1 hr).2]
    exact (Config.wf_debounce hwf).1
  · rw [((hcases i).2 hr).2]
    exact cntAfterDebounce_lt hwf h hi

/-- The multifire input is on its own path: debounce and cleanup pass it by (R149, R150). -/
theorem sampleLevels_multifire_untouched {p : Panel} (h : p.Legal c) {m : Nat}
    (hm : multifireAt c = some m) :
    (sampleLevels c raw p).levelAt m = p.levelAt m ∧
    (sampleLevels c raw p).cntAt m = p.cntAt m := by
  obtain ⟨hcases, -⟩ := sampleLevels_spec c raw p h.level_length h.cnt_length
  have hgeneric : m ∉ genericInputs c := fun hg => (mem_genericInputs.mp hg).2 hm
  obtain ⟨hlevel, hcnt⟩ := (hcases m).2 fun ⟨_, ⟨_, hne, _⟩, _⟩ => hne hm
  exact ⟨by rw [hlevel, levelAfterDebounce, if_neg hgeneric],
    by rw [hcnt, cntAfterDebounce, if_neg hgeneric]⟩

/-- The press-latency gate stops at MF_LATENCY, and a burst it starts has the burst's length (R35, R36,
R151). -/
theorem mfGateStep_le (r : Bool) {p : Panel} (hg : p.mfGate.toNat ≤ c.mfLatency)
    (hb : p.mfBurst.toNat ≤ burstLength c) :
    (mfGateStep c r p).mfGate.toNat ≤ c.mfLatency ∧
    (mfGateStep c r p).mfBurst.toNat ≤ burstLength c := by
  have hgate : p.mfGate.toNat < c.mfLatency → (p.mfGate + 1#8).toNat ≤ c.mfLatency := fun hlt => by
    rw [BitVec.toNat_add]
    exact (Nat.mod_le _ _).trans hlt
  unfold mfGateStep
  split
  · exact ⟨Nat.zero_le _, hb⟩
  · split
    · rename_i h
      split
      · refine ⟨hgate h.2, ?_⟩
        rw [BitVec.toNat_ofNat]
        exact Nat.mod_le _ _
      · exact ⟨hgate h.2, hb⟩
    · exact ⟨hg, hb⟩

theorem mfBurstStep_le (p : Panel) : (mfBurstStep p).mfBurst.toNat ≤ p.mfBurst.toNat := by
  unfold mfBurstStep
  split
  · exact le_rfl
  · bv_omega

/-- The last sample of a burst is in the released half of its cycle (R152). -/
theorem syntheticLevel_last (hwf : c.wf = true) {p : Panel} (h : p.mfBurst = 1#16) :
    syntheticLevel c p = false := by
  obtain ⟨hcount, hcycle⟩ := Config.wf_burst hwf
  have hlast : (burstLength c - 1) % c.mfCycle = c.mfCycle - 1 := by
    obtain ⟨n, hn⟩ := Nat.exists_eq_add_of_le' hcount
    have hsplit : burstLength c - 1 = (c.mfCycle - 1) + n * c.mfCycle := by
      rw [burstLength, hn, Nat.succ_mul]
      omega
    rw [hsplit, Nat.add_mul_mod_self_right, Nat.mod_eq_of_lt (by omega)]
  have hnot : ¬ (burstLength c - p.mfBurst.toNat) % c.mfCycle < c.mfCycle / 2 := by
    rw [h, show (1#16).toNat = 1 from rfl, hlast]
    omega
  simp [syntheticLevel, hnot]

/-- When no burst is left, mf_s is released (R152). -/
theorem syntheticLevel_burst_over (hwf : c.wf = true) {p : Panel}
    (h : (mfBurstStep p).mfBurst = 0#16) : syntheticLevel c p = false := by
  unfold mfBurstStep at h
  split at h
  · rename_i h0
    simp [syntheticLevel, h0]
  · exact syntheticLevel_last hwf (by bv_omega)

/-- delta is saturated at -127 (R39, R157). -/
theorem satS8_ge (v : Int) : -127 ≤ (satS8 v).toInt := by
  have hclamp : -127 ≤ clampS8 v ∧ clampS8 v ≤ 127 := by
    unfold clampS8
    split
    · omega
    · split <;> omega
  have hint : (satS8 v).toInt = clampS8 v := by
    unfold satS8
    rw [BitVec.toInt_ofInt, Int.bmod_eq_of_le] <;> omega
  rw [hint]
  exact hclamp.1

/-- The multifire machine's fields keep their legal values, with and without a valid multifire input
(R35 to R37, R150). -/
theorem sampleLevels_multifire_legal (hwf : c.wf = true) (raw : RawIn) {p : Panel} (h : p.Legal c) :
    (sampleLevels c raw p).mfGate.toNat ≤ c.mfLatency ∧
    (sampleLevels c raw p).mfBurst.toNat ≤ burstLength c ∧
    ((sampleLevels c raw p).mfBurst = 0#16 → (sampleLevels c raw p).mfS = false) := by
  obtain ⟨-, -, -, hnone, hsome, -⟩ := sampleLevels_frame c raw p
  cases hm : multifireAt c with
  | none =>
    obtain ⟨hS, hG, hB⟩ := hnone hm
    rw [hS, hG, hB]
    exact ⟨h.gate_le, h.burst_le, h.rest_released⟩
  | some m =>
    obtain ⟨hS, hG, hB⟩ := hsome m hm
    obtain ⟨hgate, hburst⟩ := mfGateStep_le (raw.getLsbD m) h.gate_le h.burst_le
    rw [hS, hG, hB]
    exact ⟨hgate, (mfBurstStep_le _).trans hburst, syntheticLevel_burst_over hwf⟩

theorem sampleTick_legal (hwf : c.wf = true) (raw : RawIn) {p : Panel} (h : p.Legal c) :
    (sampleTick c raw p).Legal c := by
  obtain ⟨-, hlevels, hcnts, -⟩ := sampleLevels_spec c raw p h.level_length h.cnt_length
  obtain ⟨-, -, hdelta, hnone, -, -⟩ := sampleLevels_frame c raw p
  obtain ⟨hgate, hburst, hrest⟩ := sampleLevels_multifire_legal hwf raw h
  obtain ⟨qlevel, qcnt, -, qgate, qburst, qmfS, qprev, qdelta, -⟩ :=
    quadrature_spec (c := c) (sampleLevels c raw p)
  obtain ⟨tlevel, tcnt, -, -, tquad⟩ := sampleTick_levels c raw p
  exact {
    level_length := (congrArg List.length qlevel).trans hlevels
    cnt_length := (congrArg List.length qcnt).trans hcnts
    cnt_lt := fun i hi => by
      rw [tcnt]
      exact sampleLevels_cnt_lt hwf h hi
    gate_le := qgate ▸ hgate
    burst_le := qburst ▸ hburst
    rest_released := fun h0 => qmfS.trans (hrest (qburst.symm.trans h0))
    delta_ge := fun a => by
      show -127 ≤ ((quadrature c (sampleLevels c raw p)).delta.get a).toInt
      rw [qdelta]
      split
      · rw [hdelta]
        exact h.delta_ge a
      · exact satS8_ge _
    multifire_untouched := fun m hm => by
      obtain ⟨hlevel, hcnt⟩ := sampleLevels_multifire_untouched (raw := raw) h hm
      rw [tlevel, tcnt, hlevel, hcnt]
      exact h.multifire_untouched m hm
    no_multifire := fun hm => by
      obtain ⟨hS, hG, hB⟩ := hnone hm
      obtain ⟨hG0, hB0, hS0⟩ := h.no_multifire hm
      exact ⟨qgate.trans (hG.trans hG0), qburst.trans (hB.trans hB0), qmfS.trans (hS.trans hS0)⟩
    qprev_current := fun a => (qprev a).trans (tquad a).symm }

/-! ### The whole state, one unit at a time -/

/-- The LED unit's half of `State.Legal`. -/
structure State.LedLegal (s : State) : Prop where
  led : s.ledStarted = true → s.led.Legal s.cfg
  pending : ∀ w ∈ s.pending, w.Legal s.cfg
  pending_length : s.pending.length ≤ 9
  unstarted_pending : s.ledStarted = false → s.pending = []

/-- The Panel unit's half of `State.Legal`. -/
structure State.PanelLegal (s : State) : Prop where
  panel : s.panStarted = true → s.pan.Legal s.cfg
  answer : s.answer.Legal s.cfg
  unstarted_answer : s.panStarted = false → s.answer = .noReport

theorem State.legal_iff {s : State} :
    s.Legal ↔ s.cfg.wf = true ∧ s.LedLegal ∧ s.PanelLegal :=
  ⟨fun h => ⟨h.config, ⟨h.led, h.pending, h.pending_length, h.unstarted_pending⟩,
      ⟨h.panel, h.answer, h.unstarted_answer⟩⟩,
    fun ⟨hwf, hl, hp⟩ => ⟨hwf, hl.led, hl.pending, hl.pending_length, hl.unstarted_pending, hp.panel,
      hp.answer, hp.unstarted_answer⟩⟩

theorem State.LedLegal.congr {s t : State} (h : s.LedLegal) (hcfg : t.cfg = s.cfg)
    (hled : t.led = s.led) (hstarted : t.ledStarted = s.ledStarted)
    (hpending : t.pending = s.pending) : t.LedLegal := by
  obtain ⟨h1, h2, h3, h4⟩ := h
  exact ⟨by rwa [hcfg, hled, hstarted], by rwa [hcfg, hpending], by rwa [hpending],
    by rwa [hstarted, hpending]⟩

theorem State.PanelLegal.congr {s t : State} (h : s.PanelLegal) (hcfg : t.cfg = s.cfg)
    (hpan : t.pan = s.pan) (hstarted : t.panStarted = s.panStarted) (hanswer : t.answer = s.answer) :
    t.PanelLegal := by
  obtain ⟨h1, h2, h3⟩ := h
  exact ⟨by rwa [hcfg, hpan, hstarted], by rwa [hcfg, hanswer], by rwa [hstarted, hanswer]⟩

/-- What is presented next, and the scheduler's plan for it, are no part of what must be legal. -/
theorem State.Legal.withInputs {s : State} (h : s.Legal) (inputs : List Input)
    (plan : Option (List Nat)) : ({ s with inputs := inputs, plan := plan } : State).Legal :=
  { h with }

/-! #### The command agent (R55) -/

theorem perform_ledLegal {s : State} (h : s.LedLegal) (k : Nat) : (perform k s).LedLegal := by
  obtain hsame | ⟨w, hw, hstep⟩ := perform_cases k s
  · rwa [hsame]
  · have hmem : w ∈ s.pending := List.mem_of_getElem? hw
    rw [hstep]
    exact {
      led := fun hs => (h.pending w hmem).apply (h.led hs)
      pending := fun v hv => h.pending v (List.mem_of_mem_eraseIdx hv)
      pending_length := (List.length_eraseIdx_le _ _).trans h.pending_length
      unstarted_pending := fun hs => by rw [h.unstarted_pending hs] at hmem; cases hmem }

theorem settle_ledLegal {s : State} (h : s.LedLegal) : (settle s).LedLegal where
  led hs := foldl_apply_legal h.pending (h.led hs)
  pending _ hw := absurd hw List.not_mem_nil
  pending_length := Nat.zero_le 9
  unstarted_pending _ := rfl

theorem perform_legal {s : State} (h : s.Legal) (k : Nat) : (perform k s).Legal := by
  obtain ⟨hwf, hled, hpan⟩ := State.legal_iff.mp h
  exact State.legal_iff.mpr ⟨by rwa [perform_cfg], perform_ledLegal hled k,
    hpan.congr (perform_cfg k s) (perform_pan k s) (perform_panStarted k s) (perform_answer k s)⟩

/-- A command's delivery keeps the LED unit legal wherever the command agent is preempted (R55). -/
theorem deliver_ledLegal {ws : List FieldWrite} {s : State} (hws : ∀ w ∈ ws, w.Legal s.cfg)
    (hlength : ws.length ≤ 9) (hstarted : s.ledStarted = true) (h : s.LedLegal)
    (diag : List DiagCode) : (deliver ws diag s).LedLegal := by
  unfold deliver
  refine runAgent_induct State.LedLegal s.plan _ ?_ (fun k _ ht => perform_ledLegal ht k)
    fun _ => settle_ledLegal
  exact ⟨h.led, hws, hlength, fun hs => absurd (hstarted.symm.trans hs) (by decide)⟩

/-! #### The operations -/

theorem ofLed_or_ofPanel (i : Instr) : OfLed i ∨ OfPanel i := by
  cases i <;> simp [OfLed, OfPanel]

/-- No operation writes the configuration (R59). -/
theorem exec_cfg {i : Instr} {s t : State} (h : exec i s = .next t) : t.cfg = s.cfg := by
  cases i with
  | sba =>
    obtain ⟨-, -, -, rfl⟩ := exec_sba_next.mp h
    exact (deliver_frame _ _ s).1
  | pba =>
    obtain ⟨-, -, -, -, rfl⟩ := exec_pba_next.mp h
    exact (deliver_frame _ _ s).1
  | pwmTick => obtain ⟨-, -, rfl⟩ := exec_pwmTick_next.mp h; rfl
  | resetLed => obtain ⟨-, rfl⟩ := exec_resetLed_next.mp h; rfl
  | sampleTick => obtain ⟨-, -, rfl⟩ := exec_sampleTick_next.mp h; rfl
  | getReport => obtain ⟨-, -, rfl⟩ := exec_getReport_next.mp h; rfl
  | resetPan => obtain ⟨-, rfl⟩ := exec_resetPan_next.mp h; rfl

/-- After RESET the LED unit holds its reset values, and owes writes of the half-applied command only
(R211, log entry 8). -/
theorem resetLed_ledLegal {s t : State} (h : s.LedLegal) (ht : exec .resetLed s = .next t) :
    t.LedLegal := by
  obtain ⟨hwf, rfl⟩ := exec_resetLed_next.mp ht
  have hsub := writesAfterReset_sublist s
  exact ⟨fun _ => Led.resetValues_legal hwf, fun w hw => h.pending w (hsub.subset hw),
    hsub.length_le.trans h.pending_length, nofun⟩

theorem ledOperation_ledLegal {i : Instr} {s t : State} (hi : OfLed i) (h : s.LedLegal)
    (ht : exec i s = .next t) : t.LedLegal := by
  obtain ⟨_, _, _, _, _, _, _, rfl⟩ | ⟨_, _, _, _, _, _, _, _, rfl⟩ | rfl | rfl := hi
  · obtain ⟨-, hs, -, rfl⟩ := exec_sba_next.mp ht
    obtain ⟨hws, hlength⟩ := sbaWrites_legal s.cfg _ _
    exact deliver_ledLegal hws hlength hs h _
  · obtain ⟨-, -, hs, -, rfl⟩ := exec_pba_next.mp ht
    obtain ⟨hws, hlength⟩ := pbaWrites_legal s.cfg _ _
    exact deliver_ledLegal hws hlength hs h _
  · obtain ⟨hwf, -, rfl⟩ := exec_pwmTick_next.mp ht
    exact { h with led := fun hs => pwmTick_legal hwf (h.led hs) }
  · exact resetLed_ledLegal h ht

theorem panelOperation_panelLegal {i : Instr} {s t : State} (hi : OfPanel i) (h : s.PanelLegal)
    (ht : exec i s = .next t) : t.PanelLegal := by
  obtain ⟨raw, rfl⟩ | rfl | rfl := hi
  · obtain ⟨hwf, -, rfl⟩ := exec_sampleTick_next.mp ht
    exact { h with panel := fun hs => sampleTick_legal hwf raw (h.panel hs) }
  · obtain ⟨-, hs, rfl⟩ := exec_getReport_next.mp ht
    obtain ⟨hpan, hanswer⟩ := getReport_legal (h.panel hs)
    exact ⟨fun _ => hpan, hanswer, fun hs' => absurd (hs.symm.trans hs') (by decide)⟩
  · obtain ⟨hwf, rfl⟩ := exec_resetPan_next.mp ht
    exact ⟨fun _ => Panel.resetValues_legal hwf, trivial, nofun⟩

/-- Each operation keeps its own unit legal and leaves the other as it was (R2). -/
theorem exec_legal {i : Instr} {s t : State} (h : s.Legal) (ht : exec i s = .next t) : t.Legal := by
  obtain ⟨hwf, hled, hpan⟩ := State.legal_iff.mp h
  have hcfg := exec_cfg ht
  obtain ⟨ofLed, ofPanel⟩ := unitsShareNoState i s t ht
  refine State.legal_iff.mpr ⟨hcfg ▸ hwf, ?_⟩
  obtain hi | hi := ofLed_or_ofPanel i
  · obtain ⟨epan, estarted, eanswer, -⟩ := ofLed hi
    exact ⟨ledOperation_ledLegal hi hled ht, hpan.congr hcfg epan estarted eanswer⟩
  · obtain ⟨eled, estarted, epending, -⟩ := ofPanel hi
    exact ⟨hled.congr hcfg eled estarted epending, panelOperation_panelLegal hi hpan ht⟩

/-- Before any RESET neither unit's fields are read, so any well-formed configuration may be loaded
(R59, R214). -/
theorem load_legal {s : State} (h : s.Legal) (hled : s.ledStarted = false)
    (hpan : s.panStarted = false) (hwf : c.wf = true) (inputs : List Input) :
    ({ s with inputs := inputs, cfg := c } : State).Legal := by
  have hpending := h.unstarted_pending hled
  have hanswer := h.unstarted_answer hpan
  exact {
    config := hwf
    led := fun hs => absurd (hled.symm.trans hs) (by decide)
    pending := fun w hw => absurd (hpending ▸ hw) List.not_mem_nil
    pending_length := h.pending_length
    unstarted_pending := h.unstarted_pending
    panel := fun hs => absurd (hpan.symm.trans hs) (by decide)
    answer := by
      show s.answer.Legal c
      rw [hanswer]
      trivial
    unstarted_answer := h.unstarted_answer }

/-! ### The starting states (R211, R212, R213) -/

theorem resetWith_legal (hwf : c.wf = true) : (State.resetWith c).Legal where
  config := hwf
  led _ := Led.resetValues_legal hwf
  pending _ hw := absurd hw List.not_mem_nil
  pending_length := Nat.zero_le 9
  unstarted_pending _ := rfl
  panel _ := Panel.resetValues_legal hwf
  answer := trivial
  unstarted_answer _ := rfl

theorem powerOn_legal (hwf : c.wf = true) (inputs : List Input) : (State.powerOn c inputs).Legal where
  config := hwf
  led := nofun
  pending _ hw := absurd hw List.not_mem_nil
  pending_length := Nat.zero_le 9
  unstarted_pending _ := rfl
  panel := nofun
  answer := trivial
  unstarted_answer _ := rfl

end

/-! ### The two statements -/

/-- Settles O53: an operation by `exec_legal`, an outstanding write by `perform_legal`, a
configuration by `load_legal`; every other input changes the inputs only. -/
theorem stepKeepsStateLegal : Obligations.StepKeepsStateLegal := by
  intro s t h ht
  obtain ⟨e, plan, tie, rest, i, -, -, hexec⟩ | ⟨-, rfl⟩ | ⟨k, rest, -, rfl⟩ |
    ⟨e, plan, tie, rest, -, -, rfl⟩ | ⟨e, plan, tie, rest, -, -, rfl⟩ |
    ⟨c, rest, -, hled, hpan, hwf, rfl⟩ := step_cases ht
  · exact exec_legal (h.withInputs rest plan) hexec
  · exact perform_legal h 0
  · exact perform_legal (h.withInputs rest s.plan) k
  · exact h.withInputs _ s.plan
  · exact h.withInputs rest s.plan
  · exact load_legal h hled hpan hwf rest

/-- Settles O54: both units hold their reset values; before the first RESET nothing is asked of them. -/
theorem startingStatesAreLegal : Obligations.StartingStatesAreLegal := by
  intro c inputs hwf
  exact ⟨resetWith_legal hwf, powerOn_legal hwf inputs,
    resetWith_legal (by decide)⟩

end Sys2Proof.Machine

/-! PROOFS. The family 20_memory.md: commands as sets of atomic writes, the refusals of broken host
duties, and the configuration (R54, R55, R57 to R59, R62, R70). -/

namespace Sys2Proof.Machine

/-! ### One atomic write (R55) -/

/-- Writing a field a second time with the same value changes nothing more. -/
theorem FieldWrite.apply_apply (w : FieldWrite) (l : Led) : w.apply (w.apply l) = w.apply l := by
  cases w with
  | mode ch v => simp only [FieldWrite.apply, List.set_set]
  | enables => rfl
  | speed => rfl
  | bank => rfl

/-- Writes of different mode bytes commute, and so do two of the same channel with one value. -/
theorem modeWrites_commute {ch ch' : Nat} {v v' : Byte} (h : ch = ch' → v = v') (l : Led) :
    (FieldWrite.mode ch' v').apply ((FieldWrite.mode ch v).apply l) =
      (FieldWrite.mode ch v).apply ((FieldWrite.mode ch' v').apply l) := by
  by_cases hch : ch = ch'
  · rw [hch, h hch]
  · simp only [FieldWrite.apply, List.set_comm _ _ hch]

/-- The writes may take effect in any order. -/
def Commuting (ws : List FieldWrite) : Prop :=
  ∀ w ∈ ws, ∀ v ∈ ws, ∀ l : Led, v.apply (w.apply l) = w.apply (v.apply l)

theorem Commuting.subset {ws vs : List FieldWrite} (h : Commuting ws) (hsub : vs ⊆ ws) :
    Commuting vs :=
  fun w hw v hv => h w (hsub hw) v (hsub hv)

theorem Commuting.foldl_perm {ws vs : List FieldWrite} (h : Commuting ws) (hperm : ws.Perm vs)
    (l : Led) : ws.foldl (fun l w => w.apply l) l = vs.foldl (fun l w => w.apply l) l :=
  hperm.foldl_eq' (fun w hw v hv l => h w hw v hv l) l

/-- After all of a command's writes, each of them stands: doing it again changes nothing. -/
theorem Commuting.apply_foldl {ws : List FieldWrite} (h : Commuting ws) {w : FieldWrite}
    (hw : w ∈ ws) (l : Led) :
    w.apply (ws.foldl (fun l w => w.apply l) l) = ws.foldl (fun l w => w.apply l) l := by
  have hlast : ws.Perm (ws.erase w ++ [w]) :=
    (List.perm_cons_erase hw).trans (List.perm_append_singleton _ _).symm
  rw [h.foldl_perm hlast, List.foldl_append]
  exact w.apply_apply _

/-- Writes that all stand already change nothing. -/
theorem foldl_apply_of_standing {ws : List FieldWrite} {l : Led} (h : ∀ w ∈ ws, w.apply l = l) :
    ws.foldl (fun l w => w.apply l) l = l :=
  List.foldlRecOn (motive := fun l' => l' = l) ws _ rfl fun _ hl w hw => by rw [hl, h w hw]

theorem sbaWrites_commuting (c : Config) (enBytes : List Byte) (spd : Byte) :
    Commuting (sbaWrites c enBytes spd) := by
  intro w hw v hv l
  simp only [sbaWrites, List.mem_cons, List.not_mem_nil, or_false] at hw hv
  obtain rfl | rfl | rfl := hw <;> obtain rfl | rfl | rfl := hv <;> rfl

/-- A PBA writes mode bytes, each channel's from its own byte, and bank_ptr (R104). -/
theorem pbaWrites_mem {c : Config} {bk : BitVec 2} {ms : List Byte} {w : FieldWrite}
    (h : w ∈ pbaWrites c bk ms) :
    (∃ k, w = .mode (bk.toNat * 8 + k) (ms.getD k 0#8)) ∨ w = .bank (bk + 1#2) := by
  obtain hmode | hbank := List.mem_append.mp h
  · obtain ⟨k, -, hk⟩ := List.mem_filterMap.mp hmode
    unfold modeWrite at hk
    split at hk
    · exact .inl ⟨k, (Option.some.inj hk).symm⟩
    · cases hk
  · exact .inr (List.mem_singleton.mp hbank)

theorem pbaWrites_commuting (c : Config) (bk : BitVec 2) (ms : List Byte) :
    Commuting (pbaWrites c bk ms) := by
  intro w hw v hv l
  obtain ⟨k, rfl⟩ | rfl := pbaWrites_mem hw
  · obtain ⟨j, rfl⟩ | rfl := pbaWrites_mem hv
    · refine modeWrites_commute (fun hch => ?_) l
      rw [Nat.add_left_cancel hch]
    · rfl
  · obtain ⟨j, rfl⟩ | rfl := pbaWrites_mem hv
    · rfl
    · rfl

/-! ### The command agent and cmd_busy (R55, R70) -/

theorem perform_of_getElem? {k : Nat} {s : State} {w : FieldWrite} (h : s.pending[k]? = some w) :
    perform k s = { s with led := w.apply s.led, pending := s.pending.eraseIdx k } := by
  unfold perform; rw [h]

theorem perform_idle {s : State} (h : s.pending = []) (k : Nat) : perform k s = s := by
  unfold perform; rw [h]; rfl

theorem perform_pending (k : Nat) (s : State) : (perform k s).pending = s.pending.eraseIdx k := by
  unfold perform
  cases hk : s.pending[k]? with
  | none => exact (List.eraseIdx_of_length_le (List.getElem?_eq_none_iff.mp hk)).symm
  | some w => rfl

theorem settle_of_idle {s : State} (h : s.pending = []) : settle s = s := by
  unfold settle; rw [h]; cases s; cases h; rfl

theorem cmdBusy_iff {s : State} : cmdBusy s = true ↔ s.pending ≠ [] := by
  simp [cmdBusy]

theorem cmdBusy_eq_false {s : State} : cmdBusy s = false ↔ s.pending = [] := by
  simp [cmdBusy]

/-- With two or more writes outstanding, one write more leaves the command in progress. -/
theorem perform_stays_busy {s : State} (h : 2 ≤ s.pending.length) (k : Nat) :
    cmdBusy (perform k s) = true := by
  rw [cmdBusy_iff, perform_pending, ← List.length_pos_iff]
  have hlength := List.le_length_eraseIdx s.pending k
  omega

/-! ### The statements about one write and about refusals -/

theorem step_finish {s : State} {k : Nat} {rest : List Input} (hin : s.inputs = .finish k :: rest) :
    step s = .next (perform k { s with inputs := rest }) := by
  unfold step fetch; rw [hin]

/-- With nothing presented the command agent goes on with its first outstanding write (log entry 7). -/
theorem step_unpresented {s : State} (hin : s.inputs = []) : step s = .next (perform 0 s) := by
  unfold step fetch; rw [hin]

/-- Settles O7: `perform` on a write that is outstanding, and on none. -/
theorem outstandingWriteIsOneStep : Obligations.OutstandingWriteIsOneStep := by
  intro s k rest
  refine ⟨fun hin w hw => ?_, fun hin w ws hpending => ?_, fun hin hpending => ?_⟩
  · exact (step_finish hin).trans (congrArg _ (perform_of_getElem? hw))
  · have hw : s.pending[0]? = some w := by rw [hpending]; rfl
    rw [step_unpresented hin, perform_of_getElem? hw, hpending, List.eraseIdx_cons_zero]
  · rw [step_unpresented hin, perform_idle hpending]

theorem whenIdle_busy {s : State} (h : s.pending ≠ []) (run : Host.Outcome State Fault Refusal) :
    whenIdle s run = .refused .commandWhileBusy := by
  unfold whenIdle; rw [if_neg h]

/-- The term PBA with the marker byte is no operation (R75, log entry 14). -/
theorem exec_pba_marker (m1 m2 m3 m4 m5 m6 m7 : Byte) (s : State) :
    exec (.pba 0x40#8 m1 m2 m3 m4 m5 m6 m7) s = .refused .pbaMarkerByte := by
  show execPba 0x40#8 m1 m2 m3 m4 m5 m6 m7 s = _
  unfold execPba
  rw [if_pos rfl]

/-- Only eight bytes are a command (R54). -/
theorem decodeCommand_wrongLength {cmd : List Byte} (h : cmd.length ≠ 8) :
    decodeCommand cmd = .error .wrongLength := by
  unfold decodeCommand
  split
  · exact absurd rfl h
  · rfl

theorem step_wrongLength {s : State} {cmd : List Byte} {plan : Option (List Nat)} {tie : Nat}
    {rest : List Input} (hin : s.inputs = .bus (.led 0b010#3 cmd) plan tie :: rest)
    (h : cmd.length ≠ 8) : step s = .refused .wrongCommandLength := by
  have hdecode : decode (.led 0b010#3 cmd) = .error .wrongLength := decodeCommand_wrongLength h
  have hfetch : fetch s = .done (.refused .wrongCommandLength) := by
    rw [fetch_bus hin]
    unfold fetchBus
    rw [hdecode]
  unfold step
  rw [hfetch]

/-- Settles O8: the guard on cmd_busy, the PBA's own guard, and the decoder's. -/
theorem brokenDutiesAreRefused : Obligations.BrokenDutiesAreRefused := by
  intro s
  refine ⟨fun hc hs hbusy => ⟨?_, ?_⟩, ?_, ?_⟩
  · intro en0 en1 en2 en3 spd x6 x7
    exact (whenLed_run hc hs _).trans (whenIdle_busy hbusy _)
  · intro m0 m1 m2 m3 m4 m5 m6 m7 hm
    rw [exec_pba_of_ne_marker hm, whenLed_run hc hs, whenIdle_busy hbusy]
  · intro m1 m2 m3 m4 m5 m6 m7
    exact exec_pba_marker m1 m2 m3 m4 m5 m6 m7 s
  · intro cmd plan tie rest hin hlength
    exact step_wrongLength hin hlength

/-! ### The configuration (R45, R59) -/

/-- Settles O56: no operation and no outstanding write touches it, and it is loaded before the first
RESET only. -/
theorem configurationNeverChanges : Obligations.ConfigurationNeverChanges := by
  intro s t hstarted ht
  obtain ⟨e, plan, tie, rest, i, -, -, hexec⟩ | ⟨-, rfl⟩ | ⟨k, rest, -, rfl⟩ |
    ⟨e, plan, tie, rest, -, -, rfl⟩ | ⟨e, plan, tie, rest, -, -, rfl⟩ |
    ⟨c, rest, -, hled, hpan, -, -⟩ := step_cases ht
  · exact (exec_cfg hexec :)
  · exact perform_cfg 0 s
  · exact perform_cfg k _
  · rfl
  · rfl
  · simp [hled, hpan] at hstarted

/-! ### A command applied twice (R62) -/

/-- A command of commuting writes, not preempted, is idempotent up to the operation count. -/
theorem deliver_twice {ws : List FieldWrite} (hws : Commuting ws) (diag : List DiagCode) {s : State}
    (h : s.plan = none) :
    deliver ws diag (deliver ws diag s) =
      { deliver ws diag s with ledOps := (deliver ws diag s).ledOps + 1 } := by
  have hstands := foldl_apply_of_standing fun w hw => hws.apply_foldl hw s.led
  rw [deliver_whole ws diag h, deliver_whole ws diag (by exact h)]
  simp only [hstands]

/-- Settles O11: the second SBA makes the same writes, and all of them stand already. -/
theorem sbaTwiceIsOnce : Obligations.SbaTwiceIsOnce := by
  intro s t en0 en1 en2 en3 spd x6 x7 hplan h
  obtain ⟨hc, hs, -, ht⟩ := exec_sba_next.mp h
  have hcfg : t.cfg = s.cfg := exec_cfg h
  have hstarted : t.ledStarted = s.ledStarted := ht ▸ (deliver_frame _ _ s).2.1
  have hidle : t.pending = [] := by rw [ht, deliver_whole _ _ hplan]
  have htwice := deliver_twice (sbaWrites_commuting s.cfg [en0, en1, en2, en3] spd)
    (sbaDiag s.cfg [en0, en1, en2, en3] spd) hplan
  rw [← ht] at htwice
  exact exec_sba_next.mpr ⟨hcfg ▸ hc, hstarted ▸ hs, hidle, htwice.symm.trans (by rw [hcfg])⟩

/-! ### A command in progress (R55, R57, R215, R216) -/

/-- The fields that commands write; those that ticks write are blanked. -/
def Led.commanded (l : Led) : Led := { l with pwmCounter := 0#8, phase := 0#16, chOut := [] }

theorem Led.commanded_eq {l l' : Led} : l.commanded = l'.commanded ↔
    l.enabled = l'.enabled ∧ l.mode = l'.mode ∧ l.pulseSpeed = l'.pulseSpeed ∧
      l.bankPtr = l'.bankPtr := by
  simp [Led.commanded]

@[simp] theorem pwmTick_commanded (c : Config) (l : Led) :
    (pwmTick c l).commanded = l.commanded := by
  simp [Led.commanded_eq]

@[simp] theorem FieldWrite.apply_commanded (w : FieldWrite) (l : Led) :
    (w.apply l).commanded = w.apply l.commanded := by
  cases w <;> rfl

@[simp] theorem foldl_apply_commanded (ws : List FieldWrite) (l : Led) :
    (ws.foldl (fun l w => w.apply l) l).commanded =
      ws.foldl (fun l w => w.apply l) l.commanded := by
  induction ws generalizing l with
  | nil => rfl
  | cons w ws ih => rw [List.foldl_cons, ih, w.apply_commanded, List.foldl_cons]

/-- Every field of `x` that commands write holds its value of `l` or its value of `u`, each mode byte
for itself. -/
structure Led.Between (l u x : Led) : Prop where
  enabled : x.enabled = l.enabled ∨ x.enabled = u.enabled
  pulseSpeed : x.pulseSpeed = l.pulseSpeed ∨ x.pulseSpeed = u.pulseSpeed
  bankPtr : x.bankPtr = l.bankPtr ∨ x.bankPtr = u.bankPtr
  mode_length : x.mode.length = u.mode.length
  mode : ∀ ch, x.modeAt ch = l.modeAt ch ∨ x.modeAt ch = u.modeAt ch

theorem Led.Between.start {l u : Led} (h : l.mode.length = u.mode.length) : Led.Between l u l :=
  ⟨.inl rfl, .inl rfl, .inl rfl, h, fun _ => .inl rfl⟩

theorem Led.Between.tick {l u x : Led} (h : Led.Between l u x) (c : Config) :
    Led.Between l u (pwmTick c x) where
  enabled := by rw [pwmTick_enabled]; exact h.enabled
  pulseSpeed := by rw [pwmTick_pulseSpeed]; exact h.pulseSpeed
  bankPtr := by rw [pwmTick_bankPtr]; exact h.bankPtr
  mode_length := by rw [pwmTick_mode]; exact h.mode_length
  mode ch := by unfold Led.modeAt; rw [pwmTick_mode]; exact h.mode ch

/-- A mode byte write that stands in `u` gives the channel its value of `u`. -/
theorem modeAt_of_standing {u : Led} {ch : Nat} {v : Byte}
    (h : (FieldWrite.mode ch v).apply u = u) (hch : ch < u.mode.length) : u.modeAt ch = v := by
  rw [← h]
  exact (getD_set u.mode ch ch v 0#8).trans (if_pos ⟨rfl, hch⟩)

/-- A write that stands in `u` takes one field, whole, to its value of `u`. -/
theorem Led.Between.write {l u x : Led} (h : Led.Between l u x) {w : FieldWrite}
    (hw : w.apply u = u) : Led.Between l u (w.apply x) := by
  cases w with
  | enables en => exact { h with enabled := .inr (congrArg Led.enabled hw :) }
  | speed v => exact { h with pulseSpeed := .inr (congrArg Led.pulseSpeed hw :) }
  | bank v => exact { h with bankPtr := .inr (congrArg Led.bankPtr hw :) }
  | mode ch v =>
    refine { h with mode_length := List.length_set.trans h.mode_length, mode := fun j => ?_ }
    have hmode : ((FieldWrite.mode ch v).apply x).modeAt j =
        if j = ch ∧ ch < x.mode.length then v else x.modeAt j := getD_set _ _ _ _ _
    rw [hmode]
    split
    · next hj =>
      obtain ⟨rfl, hlt⟩ := hj
      exact .inr (modeAt_of_standing hw (h.mode_length ▸ hlt)).symm
    · exact h.mode j

/-- The state `x` is one in which the command with the writes `ws`, delivered in `s`, is in progress or
done: what is outstanding is part of the command, what stands is old or new, and the outstanding writes
complete the command. -/
structure InProgress (ws : List FieldWrite) (s x : State) : Prop where
  owed : x.pending ⊆ ws
  completes : (settle x).led.commanded = (ws.foldl (fun l w => w.apply l) s.led).commanded
  between : Led.Between s.led (ws.foldl (fun l w => w.apply l) s.led) x.led
  pan : x.pan = s.pan

section
variable {ws : List FieldWrite} {s x : State}

theorem InProgress.delivered (ws : List FieldWrite) (diag : List DiagCode) (s : State) (n : Nat) :
    InProgress ws s { s with pending := ws, plan := none, ledDiag := diag, ledOps := n } where
  owed := List.Subset.refl ws
  completes := rfl
  between := .start (foldl_apply_frame ws s.led).2.2.2.symm
  pan := rfl

theorem InProgress.perform (h : InProgress ws s x) (hws : Commuting ws) (k : Nat) :
    InProgress ws s (perform k x) := by
  obtain hsame | ⟨w, hw, hstep⟩ := perform_cases k x
  · rwa [hsame]
  · have hmem : w ∈ x.pending := List.mem_of_getElem? hw
    obtain ⟨hk, rfl⟩ := List.getElem?_eq_some_iff.mp hw
    have hperm : (x.pending[k] :: x.pending.eraseIdx k).Perm x.pending :=
      List.getElem_cons_eraseIdx_perm hk
    have hled : (settle (Machine.perform k x)).led = (settle x).led := by
      rw [hstep]
      exact ((hws.subset h.owed).foldl_perm hperm.symm x.led).symm
    exact {
      owed := by rw [perform_pending]; exact List.Subset.trans List.eraseIdx_subset h.owed
      completes := by rw [hled]; exact h.completes
      between := by rw [hstep]; exact h.between.write (hws.apply_foldl (h.owed hmem) s.led)
      pan := (perform_pan k x).trans h.pan }

theorem InProgress.settle (h : InProgress ws s x) (hws : Commuting ws) :
    InProgress ws s (settle x) where
  owed := List.nil_subset ws
  completes := h.completes
  between := List.foldlRecOn x.pending _ h.between
    fun _ hl _ hw => hl.write (hws.apply_foldl (h.owed hw) s.led)
  pan := h.pan

theorem InProgress.move (h : InProgress ws s x) (hws : Commuting ws) (m : Move) :
    InProgress ws s (m.apply x) := by
  cases m with
  | write k => exact h.perform hws k
  | tick =>
    refine { owed := h.owed, completes := ?_, between := h.between.tick x.cfg, pan := h.pan }
    rw [← h.completes]
    simp [Move.apply, Machine.settle]

theorem InProgress.moves (h : InProgress ws s x) (hws : Commuting ws) (moves : List Move) :
    InProgress ws s (moves.foldl (fun x m => m.apply x) x) :=
  List.foldlRecOn moves _ h fun _ hx m _ => hx.move hws m

/-- A command is in progress from its delivery, wherever the command agent is preempted. -/
theorem deliver_inProgress (hws : Commuting ws) (diag : List DiagCode) (s : State)
    (plan : Option (List Nat)) : InProgress ws s (deliver ws diag { s with plan := plan }) :=
  runAgent_induct (InProgress ws s) plan _ (.delivered ws diag s _)
    (fun k _ ht => ht.perform hws k) fun _ ht => ht.settle hws

/-- With nothing outstanding the command is done. -/
theorem InProgress.completed (h : InProgress ws s x) (hidle : x.pending = []) :
    x.led.commanded = (ws.foldl (fun l w => w.apply l) s.led).commanded := by
  have hdone := h.completes
  rwa [settle_of_idle hidle] at hdone

end

/-- SBA and PBA alike: delivered while idle, the command makes some writes that commute, under every
plan of the scheduler the same ones (R55, R101, R104). -/
theorem exec_command_delivers {s : State} {i : Instr}
    (hi : (∃ a b c d e f g, i = .sba a b c d e f g) ∨ ∃ a b c d e f g h, i = .pba a b c d e f g h)
    (hwell : i.wellFormed = true) (hc : s.cfg.wf = true) (hs : s.ledStarted = true)
    (hidle : s.pending = []) :
    ∃ ws diag, Commuting ws ∧ ws ≠ [] ∧
      ∀ plan, exec i { s with plan := plan } = .next (deliver ws diag { s with plan := plan }) := by
  obtain ⟨en0, en1, en2, en3, spd, x6, x7, rfl⟩ | ⟨m0, m1, m2, m3, m4, m5, m6, m7, rfl⟩ := hi
  · exact ⟨_, sbaDiag s.cfg [en0, en1, en2, en3] spd,
      sbaWrites_commuting s.cfg [en0, en1, en2, en3] spd, List.cons_ne_nil _ _,
      fun plan => exec_sba_next.mpr ⟨hc, hs, hidle, rfl⟩⟩
  · exact ⟨_, pbaDiag s.cfg s.led.bankPtr [m0, m1, m2, m3, m4, m5, m6, m7],
      pbaWrites_commuting s.cfg s.led.bankPtr [m0, m1, m2, m3, m4, m5, m6, m7],
      List.append_ne_nil_of_right_ne_nil _ (List.cons_ne_nil _ _),
      fun plan => exec_pba_next.mpr ⟨bne_iff_ne.mp hwell, hc, hs, hidle, rfl⟩⟩

/-- Settles O17: ticks and outstanding writes keep the command in progress, and so it completes to what
the same writes give in one go. -/
theorem interleavedCommandConverges : Obligations.InterleavedCommandConverges := by
  intro s i plan moves hi hwell hc hs hidle
  obtain ⟨ws, diag, hws, hne, hexec⟩ := exec_command_delivers hi hwell hc hs hidle
  refine ⟨_, _, hexec plan, hexec none, ?_⟩
  intro mid done
  have hwhole : (deliver ws diag { s with plan := none }).led =
      ws.foldl (fun l w => w.apply l) s.led := by
    rw [deliver_whole ws diag rfl]
  have hmid : InProgress ws s mid := (deliver_inProgress hws diag s plan).moves hws moves
  obtain ⟨hen, hmode, hspeed, hbank⟩ := Led.commanded_eq.mp hmid.completes
  rw [hwhole]
  refine ⟨hmid.between.enabled, hmid.between.pulseSpeed, hmid.between.bankPtr, hmid.between.mode,
    hen, hspeed, hbank, hmode, rfl, hmid.pan, cmdBusy_eq_false.mpr hidle, ?_, ?_, cmdBusy_iff, ?_,
    fun k hlength => perform_stays_busy hlength k, ?_, rfl⟩
  · rintro rfl
    exact cmdBusy_iff.mpr hne
  · rintro rfl
    rfl
  · intro w hw
    rw [cmdBusy_eq_false, perform_pending, hw, List.eraseIdx_cons_zero]
  · intro hdone
    obtain ⟨hen', hmode', hspeed', hbank'⟩ :=
      Led.commanded_eq.mp (hmid.completed (cmdBusy_eq_false.mp hdone))
    exact ⟨hen', hspeed', hbank', hmode'⟩

end Sys2Proof.Machine

/-! PROOFS. The family 30_encoding.md: the byte lanes of cmd_data, decoding and encoding, the report
port, LOADALL, and key codes (R52, R71 to R75, R80 to R83, R91). -/

namespace Sys2Proof

/-! ### Byte lanes (R52) -/

/-- Bit i of a word is bit i mod 8 of its byte i / 8. -/
theorem getLsbD_lane {n : Nat} (w : BitVec n) (i : Nat) :
    (w.extractLsb' (8 * (i / 8)) 8).getLsbD (i % 8) = w.getLsbD i := by
  rw [BitVec.getLsbD_extractLsb', Nat.div_add_mod, decide_eq_true (Nat.mod_lt i (by decide)),
    Bool.true_and]

theorem eq_of_lanes {w v : BitVec 64}
    (h : ∀ k, k < 8 → w.extractLsb' (8 * k) 8 = v.extractLsb' (8 * k) 8) : w = v := by
  apply BitVec.eq_of_getLsbD_eq
  intro i hi
  rw [← getLsbD_lane w i, ← getLsbD_lane v i, h (i / 8) (by omega)]

/-- The number that bytes stand for, the first the least significant. -/
def bytesValue (bs : List Byte) : Nat := bs.foldr (fun b acc => b.toNat + 256 * acc) 0

@[simp] theorem bytesValue_nil : bytesValue [] = 0 := rfl

@[simp] theorem bytesValue_cons (b : Byte) (bs : List Byte) :
    bytesValue (b :: bs) = b.toNat + 256 * bytesValue bs := rfl

theorem busOfBytes_eq (bs : List Byte) : busOfBytes bs = BitVec.ofNat 64 (bytesValue bs) := rfl

theorem bytesValue_digit (bs : List Byte) (k : Nat) :
    bytesValue bs / 256 ^ k % 256 = (bs.getD k 0#8).toNat := by
  induction bs generalizing k with
  | nil => simp
  | cons b bs ih =>
    have hb : b.toNat < 256 := b.isLt
    cases k with
    | zero =>
      rw [bytesValue_cons, pow_zero, List.getD_cons_zero]
      omega
    | succ k =>
      have hrest : bytesValue (b :: bs) / 256 = bytesValue bs := by
        rw [bytesValue_cons]
        omega
      rw [pow_succ', ← Nat.div_div_eq_div_mul, hrest, ih, List.getD_cons_succ]

/-- Bytes past the eighth do not fit on the bus, and those that are missing are zero. -/
theorem lane_busOfBytes (bs : List Byte) {k : Nat} (hk : k < 8) :
    (busOfBytes bs).extractLsb' (8 * k) 8 = bs.getD k 0#8 := by
  have hsplit : 2 ^ 64 = 256 ^ k * (256 * 256 ^ (7 - k)) := by
    rw [← pow_succ', ← pow_add, show k + (7 - k + 1) = 8 by omega]
    rfl
  apply BitVec.eq_of_toNat_eq
  rw [← bytesValue_digit, busOfBytes_eq, BitVec.extractLsb'_toNat, BitVec.toNat_ofNat,
    Nat.shiftRight_eq_div_pow, pow_mul, hsplit]
  exact (congrArg (· % 256) (Nat.mod_mul_right_div_self _ _ _)).trans (Nat.mod_mul_right_mod _ _ _)

theorem getD_bytesOfBus (w : BitVec 64) {k : Nat} (hk : k < 8) :
    (bytesOfBus w).getD k 0#8 = w.extractLsb' (8 * k) 8 := by
  simp [bytesOfBus, hk]

theorem busOfBytes_bytesOfBus (w : BitVec 64) : busOfBytes (bytesOfBus w) = w :=
  eq_of_lanes fun _ hk => (lane_busOfBytes _ hk).trans (getD_bytesOfBus w hk)

theorem bytesOfBus_busOfBytes {bs : List Byte} (h : bs.length = 8) :
    bytesOfBus (busOfBytes bs) = bs := by
  refine List.ext_getElem (by rw [h]; rfl) fun k hk hk' => ?_
  have h8 : k < 8 := h ▸ hk'
  rw [← List.getD_eq_getElem _ 0#8 hk, ← List.getD_eq_getElem _ 0#8 hk', getD_bytesOfBus _ h8,
    lane_busOfBytes _ h8]

/-! ### Decoding and encoding (R72 to R75) -/

/-- The decoder's two branches (R73). -/
theorem decodeCommand_bytes (b0 b1 b2 b3 b4 b5 b6 b7 : Byte) :
    decodeCommand [b0, b1, b2, b3, b4, b5, b6, b7] =
      .ok (if b0 = 0x40#8 then .sba b1 b2 b3 b4 b5 b6 b7 else .pba b0 b1 b2 b3 b4 b5 b6 b7) :=
  (apply_ite Except.ok (b0 = 0x40#8) _ _).symm

theorem decode_encode {i : Instr} (h : i.wellFormed = true) : decode (encode i) = .ok i := by
  cases i with
  | pba m0 m1 m2 m3 m4 m5 m6 m7 =>
    have hcommand := decodeCommand_bytes m0 m1 m2 m3 m4 m5 m6 m7
    rwa [if_neg (bne_iff_ne.mp h)] at hcommand
  | sba => rfl
  | pwmTick => rfl
  | resetLed => rfl
  | sampleTick => rfl
  | getReport => rfl
  | resetPan => rfl

/-- Every command that the encoder writes is 8 bytes (R54). -/
theorem encode_command_length {i : Instr} {cmd : List Byte} (h : encode i = .led 0b010#3 cmd) :
    cmd.length = 8 := by
  cases i with
  | sba => cases h; rfl
  | pba => cases h; rfl
  | pwmTick => simp [encode] at h
  | resetLed => simp [encode] at h
  | sampleTick => cases h
  | getReport => cases h
  | resetPan => cases h

/-- A 64-bit table word is cmd_data with cmd_valid raised (R70). -/
theorem tableEvent_bus (w : BitVec 64) :
    tableEvent 64 w.toNat = .led 0b010#3 (bytesOfBus w) := by
  unfold tableEvent
  rw [if_neg (Nat.lt_irrefl 64), Nat.mod_eq_of_lt w.isLt, BitVec.ofNat_toNat, BitVec.setWidth_eq]

theorem decodeTableWord_of_decode {nbits w : Nat} {i : Instr}
    (h : decode (tableEvent nbits w) = .ok i) : decodeTableWord nbits w = some i := by
  unfold decodeTableWord
  rw [h]

/-- Settles O1: the command bytes survive the bus, so that both readings are one decoding. -/
theorem decodeEncodeRoundTrip : Obligations.DecodeEncodeRoundTrip := by
  intro i hi
  refine ⟨decode_encode hi, fun cmd hcmd => decodeTableWord_of_decode ?_⟩
  rw [tableEvent_bus, bytesOfBus_busOfBytes (encode_command_length hcmd), ← hcmd]
  exact decode_encode hi

/-- Settles O2: the two branches of the decoder, and the lanes of the bus. -/
theorem everyCommandValueDecodes : Obligations.EveryCommandValueDecodes := by
  intro w b
  exact ⟨decodeCommand_bytes (b 0) (b 1) (b 2) (b 3) (b 4) (b 5) (b 6) (b 7),
    busOfBytes_bytesOfBus w⟩

/-- Settles O3: each strobe is a row of the decoder, which reads no wire but those it samples. -/
theorem strobesSelectOperations : Obligations.StrobesSelectOperations :=
  fun _ _ => ⟨rfl, rfl, rfl, rfl, rfl⟩

/-- Settles O4: the decoder, run on the written-out words. -/
theorem writtenOutWordsDecode : Obligations.WrittenOutWordsDecode := by
  unfold Obligations.WrittenOutWordsDecode
  decide

end Sys2Proof

namespace Sys2Proof.Machine

/-! ### The report port (R71) -/

theorem lane_repData (s : State) {k : Nat} (hk : k < 8) :
    (repData s).extractLsb' (8 * k) 8 = repByte s k := by
  unfold repData
  rw [lane_busOfBytes _ hk]
  simp [hk]

theorem Answer.Legal.length_le {c : Config} {bytes : List Byte} (h : (Answer.report bytes).Legal c) :
    bytes.length ≤ 8 := by
  obtain ⟨cat, -, hlength⟩ := h
  rw [hlength]
  cases cat <;> decide

/-- What the report port carries while a report stands on it. -/
theorem repPort_of_report {s : State} {bytes : List Byte} (h : s.answer = .report bytes) :
    repValid s = true ∧ repLen s = BitVec.ofNat 4 bytes.length ∧
      ∀ k, repByte s k = bytes.getD k (Config.staleByte s.panOps k) := by
  unfold repValid repLen repByte
  rw [h]
  exact ⟨rfl, rfl, fun _ => rfl⟩

/-- Settles O52: a report is at most 8 bytes, so that its length and its bytes fit the port. -/
theorem reportStandsOnPort : Obligations.ReportStandsOnPort := by
  intro s bytes hanswer hlegal
  rw [hanswer] at hlegal
  have hle := hlegal.length_le
  obtain ⟨hvalid, hlen, hbyte⟩ := repPort_of_report hanswer
  refine ⟨hvalid, ?_, fun k hk => ?_⟩
  · rw [hlen, BitVec.toNat_ofNat]
    omega
  · rw [lane_repData s (by omega), hbyte, List.getD_eq_getElem _ _ hk, List.getElem?_eq_getElem hk]


/-! ### Key codes (R80 to R82) -/

/-- The first four payloads are told apart one by one; any other is none of them. -/
theorem select_of_four_le {α : Type} {f : Nat} (h : 4 ≤ f) (a b c d e : α) :
    (if f = 0 then a else if f = 1 then b else if f = 2 then c else if f = 3 then d else e) = e := by
  have hne : ∀ j < 4, f ≠ j := by omega
  rw [if_neg (hne 0 (by decide)), if_neg (hne 1 (by decide)), if_neg (hne 2 (by decide)),
    if_neg (hne 3 (by decide))]

theorem joyFunction_eq (n : BitVec 2) (f : BitVec 4) :
    joyFunction n f =
      if f.toNat = 0 then some (.joyDir n .up) else if f.toNat = 1 then some (.joyDir n .down)
      else if f.toNat = 2 then some (.joyDir n .left) else if f.toNat = 3 then some (.joyDir n .right)
      else if f.toNat ≤ 11 then some (.joyButton n (BitVec.ofNat 3 (f.toNat - 4))) else none := by
  unfold joyFunction
  split
  · next h => simp [h]
  · next h => simp [h]
  · next h => simp [h]
  · next h => simp [h]
  · next k h =>
    rw [show f.toNat = k + 4 from h, select_of_four_le (Nat.le_add_left 4 k)]
    exact if_congr (by omega) rfl rfl

theorem mouseFunction_eq (f : BitVec 4) :
    mouseFunction f =
      if f.toNat = 0 then some (.phase .x .a) else if f.toNat = 1 then some (.phase .x .b)
      else if f.toNat = 2 then some (.phase .y .a) else if f.toNat = 3 then some (.phase .y .b)
      else if f.toNat ≤ 6 then some (.mouseButton (BitVec.ofNat 2 (f.toNat - 4))) else none := by
  unfold mouseFunction
  split
  · next h => simp [h]
  · next h => simp [h]
  · next h => simp [h]
  · next h => simp [h]
  · next k h =>
    rw [show f.toNat = k + 4 from h, select_of_four_le (Nat.le_add_left 4 k)]
    exact if_congr (by omega) rfl rfl

theorem func_eq (code : KeyCode) :
    func code =
      if (codeClass code).toNat = 1 then
        (if code.extractLsb' 0 8 = 0#8 then none else some (.key (code.extractLsb' 0 8)))
      else if (codeClass code).toNat = 2 then some (.modifier (code.extractLsb' 0 3))
      else if (codeClass code).toNat = 3 then some (.consumer (code.extractLsb' 0 3))
      else if (codeClass code).toNat = 4 then
        joyFunction (code.extractLsb' 8 2) (code.extractLsb' 0 4)
      else if (codeClass code).toNat = 5 then mouseFunction (code.extractLsb' 0 4)
      else none := by
  unfold func
  split
  · next h => simp [h]
  · next h => simp [h]
  · next h => simp [h]
  · next h => simp [h]
  · next h => simp [h]
  · next h1 h2 h3 h4 h5 => rw [if_neg h1, if_neg h2, if_neg h3, if_neg h4, if_neg h5]

theorem joyFunction_category (n : BitVec 2) (f : BitVec 4) :
    (joyFunction n f).map Function.category =
      if f.toNat ≤ 11 then some (Category.joystick n) else none := by
  rw [joyFunction_eq]
  by_cases hf : f.toNat ≤ 11
  · rw [if_pos hf, if_pos hf]
    split_ifs <;> rfl
  · rw [select_of_four_le (by omega), if_neg hf, if_neg hf, Option.map_none]

theorem mouseFunction_category (f : BitVec 4) :
    (mouseFunction f).map Function.category = if f.toNat ≤ 6 then some .mouse else none := by
  rw [mouseFunction_eq]
  by_cases hf : f.toNat ≤ 6
  · rw [if_pos hf, if_pos hf]
    split_ifs <;> rfl
  · rw [select_of_four_le (by omega), if_neg hf, if_neg hf, Option.map_none]

theorem some_joystick (n : BitVec 2) :
    some (Category.joystick n) =
      if n = 0#2 then some .joystick1 else if n = 1#2 then some .joystick2
      else if n = 2#2 then some .joystick3 else some .joystick4 := by
  simp only [Category.joystick, apply_ite some]

theorem category_eq (code : KeyCode) :
    category code =
      if ((codeClass code).toNat = 1 ∧ code.extractLsb' 0 8 ≠ 0#8) ∨ (codeClass code).toNat = 2 then
        some .keyboard
      else if (codeClass code).toNat = 3 then some .consumer
      else if (codeClass code).toNat = 4 ∧ (code.extractLsb' 0 4).toNat ≤ 11 then
        some (Category.joystick (code.extractLsb' 8 2))
      else if (codeClass code).toNat = 5 ∧ (code.extractLsb' 0 4).toNat ≤ 6 then some .mouse
      else none := by
  unfold category func
  split
  · next h =>
    by_cases hu : code.extractLsb' 0 8 = 0#8
    · simp [h, hu]
    · simp [h, hu, Function.category]
  · next h => simp [h, Function.category]
  · next h => simp [h, Function.category]
  · next h => simp [h, joyFunction_category]
  · next h => simp [h, mouseFunction_category]
  · next h1 h2 h3 h4 h5 =>
    rw [if_neg (not_or.mpr ⟨fun h => h1 h.1, h2⟩), if_neg h3, if_neg fun h => h4 h.1,
      if_neg fun h => h5 h.1, Option.map_none]

/-- Bits of a payload that the class does not name do not matter (R80). -/
theorem func_congr {code code' : KeyCode} (hclass : codeClass code' = codeClass code)
    (husage : (codeClass code).toNat = 1 → code'.extractLsb' 0 8 = code.extractLsb' 0 8)
    (hbit : (codeClass code).toNat = 2 ∨ (codeClass code).toNat = 3 →
      code'.extractLsb' 0 3 = code.extractLsb' 0 3)
    (hstick : (codeClass code).toNat = 4 → code'.extractLsb' 8 2 = code.extractLsb' 8 2)
    (hf : (codeClass code).toNat = 4 ∨ (codeClass code).toNat = 5 →
      code'.extractLsb' 0 4 = code.extractLsb' 0 4) :
    func code' = func code := by
  rw [func_eq code', func_eq code, hclass]
  refine ite_congr rfl (fun hkey => ?_) fun _ => ite_congr rfl (fun hmod => ?_) fun _ =>
    ite_congr rfl (fun hcons => ?_) fun _ => ite_congr rfl (fun hjoy => ?_) fun _ =>
    ite_congr rfl (fun hmouse => ?_) fun _ => rfl
  · rw [husage hkey]
  · rw [hbit (.inl hmod)]
  · rw [hbit (.inr hcons)]
  · rw [hstick hjoy, hf (.inl hjoy)]
  · rw [hf (.inr hmouse)]

/-- Settles O60: `func` and `category` class by class, and with it the payload bits that matter. -/
theorem keyCodesNameFunctions : Obligations.KeyCodesNameFunctions := by
  refine ⟨fun code => ⟨?_, ?_⟩, ?_⟩
  · rw [func_eq, joyFunction_eq, mouseFunction_eq]
    rfl
  · rw [category_eq, some_joystick]
    rfl
  · intro code code' _ hclass husage hbit hstick hf
    have hfunc : func code' = func code := func_congr hclass husage hbit hstick hf
    exact ⟨hfunc, congrArg (Option.map Function.category) hfunc⟩


section

variable {c : Config}

theorem Config.wf_nCh (h : c.wf = true) : 1 ≤ c.nCh ∧ c.nCh ≤ 32 := by
  simp only [Config.wf, Config.ledWf, Bool.and_eq_true, decide_eq_true_eq] at h
  omega

/-! ### The writes of one bank (R104) -/

theorem modeWrite_eq_some {bk : BitVec 2} {ms : List Byte} {k : Nat} {w : FieldWrite} :
    modeWrite c bk ms k = some w ↔
      bk.toNat * 8 + k < c.nCh ∧ w = .mode (bk.toNat * 8 + k) (ms.getD k 0#8) := by
  unfold modeWrite
  split
  · next h => simp [h, eq_comm]
  · next h => simp [h]

theorem mem_pbaWrites {bk : BitVec 2} {ms : List Byte} {w : FieldWrite} :
    w ∈ pbaWrites c bk ms ↔
      (∃ k, k < 8 ∧ bk.toNat * 8 + k < c.nCh ∧ w = .mode (bk.toNat * 8 + k) (ms.getD k 0#8)) ∨
        w = .bank (bk + 1#2) := by
  simp only [pbaWrites, List.mem_append, List.mem_filterMap, List.mem_range, modeWrite_eq_some,
    List.mem_singleton]

/-- The LED unit after all writes of a PBA that finds bank_ptr = bk. -/
def Led.bankLoaded (c : Config) (bk : BitVec 2) (ms : List Byte) (l : Led) : Led :=
  (pbaWrites c bk ms).foldl (fun l w => w.apply l) l

theorem bankLoaded_standing {bk : BitVec 2} {ms : List Byte} {w : FieldWrite}
    (hw : w ∈ pbaWrites c bk ms) (l : Led) :
    w.apply (l.bankLoaded c bk ms) = l.bankLoaded c bk ms :=
  (pbaWrites_commuting c bk ms).apply_foldl hw l

@[simp] theorem bankLoaded_bankPtr (bk : BitVec 2) (ms : List Byte) (l : Led) :
    (l.bankLoaded c bk ms).bankPtr = bk + 1#2 :=
  (congrArg Led.bankPtr (bankLoaded_standing (mem_pbaWrites.mpr (.inr rfl)) l)).symm

@[simp] theorem bankLoaded_mode_length (bk : BitVec 2) (ms : List Byte) (l : Led) :
    (l.bankLoaded c bk ms).mode.length = l.mode.length := by
  obtain ⟨-, -, -, hlength⟩ := foldl_apply_frame (pbaWrites c bk ms) l
  exact hlength

@[simp] theorem bankLoaded_enabled (bk : BitVec 2) (ms : List Byte) (l : Led) :
    (l.bankLoaded c bk ms).enabled = l.enabled := by
  refine List.foldlRecOn (motive := fun l' : Led => l'.enabled = l.enabled) _ _ rfl ?_
  intro l' hl' w hw
  obtain ⟨k, -, -, rfl⟩ | rfl := mem_pbaWrites.mp hw
  · exact hl'
  · exact hl'

/-- The channels of the bank take their bytes. -/
theorem bankLoaded_modeAt_bank {bk : BitVec 2} {k : Nat} (hk : k < 8)
    (hch : bk.toNat * 8 + k < c.nCh) (ms : List Byte) {l : Led} (hl : l.mode.length = c.nCh) :
    (l.bankLoaded c bk ms).modeAt (bk.toNat * 8 + k) = ms.getD k 0#8 :=
  modeAt_of_standing (bankLoaded_standing (mem_pbaWrites.mpr (.inl ⟨k, hk, hch, rfl⟩)) l)
    (by rwa [bankLoaded_mode_length, hl])

/-- The channels of the other banks keep theirs. -/
theorem bankLoaded_modeAt_other {bk : BitVec 2} {ch : Nat} (hch : ch / 8 ≠ bk.toNat)
    (ms : List Byte) (l : Led) : (l.bankLoaded c bk ms).modeAt ch = l.modeAt ch := by
  refine List.foldlRecOn (motive := fun l' : Led => l'.modeAt ch = l.modeAt ch) _ _ rfl ?_
  intro l' hl' w hw
  obtain ⟨k, hk, -, rfl⟩ | rfl := mem_pbaWrites.mp hw
  · have hother : ¬ (ch = bk.toNat * 8 + k ∧ bk.toNat * 8 + k < l'.mode.length) := by omega
    exact (getD_set _ _ _ _ _).trans ((if_neg hother).trans hl')
  · exact hl'

/-! ### LOADALL (R91) -/

/-- The unit has started, is idle, and its next command is not preempted. -/
structure Commandable (c : Config) (s : State) : Prop where
  cfg : s.cfg = c
  started : s.ledStarted = true
  idle : s.pending = []
  plan : s.plan = none
  mode_length : s.led.mode.length = c.nCh

theorem Commandable.deliver_led {s : State} (h : Commandable c s) (ws : List FieldWrite)
    (diag : List DiagCode) :
    (deliver ws diag s).led = ws.foldl (fun l w => w.apply l) s.led := by
  rw [deliver_whole ws diag h.plan]

theorem Commandable.deliver {s : State} (h : Commandable c s) (ws : List FieldWrite)
    (diag : List DiagCode) : Commandable c (deliver ws diag s) := by
  obtain ⟨-, -, -, hlength⟩ := foldl_apply_frame ws s.led
  rw [deliver_whole ws diag h.plan]
  exact ⟨h.cfg, h.started, rfl, h.plan, hlength.trans h.mode_length⟩

/-- LOADALL has done its SBA and the first n of its PBAs. -/
structure Loaded (c : Config) (w : BitVec 32) (modes : List Byte) (n : Nat) (t : State) : Prop
    extends Commandable c t where
  bankPtr : t.led.bankPtr = BitVec.ofNat 2 n
  enabled : t.led.enabled = (List.range c.nCh).map w.getLsbD
  mode : ∀ ch, ch < 8 * n → ch < c.nCh → t.led.modeAt ch = modes.getD ch 0#8

/-- The enable bytes of `SBA.MASK w` say bit ch of w for channel ch (R76, R91). -/
theorem enableBit_mask (w : BitVec 32) {ch : Nat} (hch : ch < 32) :
    enableBit [w.extractLsb' 0 8, w.extractLsb' 8 8, w.extractLsb' 16 8, w.extractLsb' 24 8] ch =
      w.getLsbD ch := by
  have hbytes : [w.extractLsb' 0 8, w.extractLsb' 8 8, w.extractLsb' 16 8, w.extractLsb' 24 8] =
      (List.range 4).map fun k => w.extractLsb' (8 * k) 8 := rfl
  have hbank : ch / 8 < 4 := by omega
  rw [← getLsbD_lane w ch, hbytes]
  unfold enableBit
  simp [hbank]

theorem exec_sbaOfMask (hwf : c.wf = true) {s : State} (h : Commandable c s) (w : BitVec 32)
    (spd : Byte) (modes : List Byte) :
    ∃ t, exec (sbaOfMask w spd) s = .next t ∧ Loaded c w modes 0 t := by
  refine ⟨_, exec_sba_next.mpr ⟨h.cfg ▸ hwf, h.started, h.idle, rfl⟩, h.deliver _ _, ?_, ?_, ?_⟩
  · rw [h.deliver_led]
    rfl
  · rw [h.deliver_led, h.cfg]
    refine List.map_congr_left fun ch hch => enableBit_mask w ?_
    exact (List.mem_range.mp hch).trans_le (Config.wf_nCh hwf).2
  · intro ch hch
    exact absurd hch (Nat.not_lt_zero ch)

/-- The mode bytes of the n-th PBA. -/
def bankBytes (modes : List Byte) (n : Nat) : List Byte :=
  (List.range 8).map fun k => modes.getD (8 * n + k) 0#8

theorem getD_bankBytes (modes : List Byte) (n : Nat) {k : Nat} (hk : k < 8) :
    (bankBytes modes n).getD k 0#8 = modes.getD (8 * n + k) 0#8 := by
  simp [bankBytes, hk]

theorem exec_pbaOfModes (hwf : c.wf = true) {w : BitVec 32} {modes : List Byte} {n : Nat} {t : State}
    (h : Loaded c w modes n t) (hn : n < 4) (hopen : modes.getD (8 * n) 0#8 ≠ 0x40#8) :
    ∃ u, exec (pbaOfModes modes (8 * n)) t = .next u ∧ Loaded c w modes (n + 1) u := by
  have hbank : (BitVec.ofNat 2 n).toNat = n := by
    rw [BitVec.toNat_ofNat]
    omega
  have hled : ∀ diag, (deliver (pbaWrites t.cfg t.led.bankPtr (bankBytes modes n)) diag t).led =
      t.led.bankLoaded c (BitVec.ofNat 2 n) (bankBytes modes n) := fun diag => by
    rw [h.deliver_led, h.cfg, h.bankPtr]
    rfl
  refine ⟨deliver (pbaWrites t.cfg t.led.bankPtr (bankBytes modes n)) _ t,
    exec_pba_next.mpr ⟨hopen, h.cfg ▸ hwf, h.started, h.idle, rfl⟩, h.deliver _ _, ?_, ?_, ?_⟩
  · rw [hled, bankLoaded_bankPtr]
    exact (BitVec.ofNat_add n 1).symm
  · rw [hled, bankLoaded_enabled, h.enabled]
  · intro ch hch hlt
    rw [hled]
    by_cases hnew : ch / 8 = n
    · have hsplit : ch = (BitVec.ofNat 2 n).toNat * 8 + ch % 8 := by omega
      rw [hsplit] at hlt
      rw [hsplit, bankLoaded_modeAt_bank (by omega) hlt _ h.mode_length,
        getD_bankBytes modes n (by omega), hbank, Nat.mul_comm]
    · rw [bankLoaded_modeAt_other (by rwa [hbank]), h.mode ch (by omega) hlt]

/-- The PBAs of LOADALL from the n-th on, one bank after the other. -/
theorem runOps_banks (hwf : c.wf = true) {w : BitVec 32} {modes : List Byte}
    (hopen : ∀ n, n < 4 → modes.getD (8 * n) 0#8 ≠ 0x40#8) (k : Nat) {n : Nat} {t : State}
    (hn : n + k ≤ 4) (h : Loaded c w modes n t) :
    ∃ u, runOps ((List.range' n k).map fun b => pbaOfModes modes (8 * b)) t = .next u ∧
      Loaded c w modes (n + k) u := by
  induction k generalizing n t with
  | zero => exact ⟨t, rfl, h⟩
  | succ k ih =>
    obtain ⟨r, hr, hloaded⟩ := exec_pbaOfModes hwf h (by omega) (hopen n (by omega))
    obtain ⟨u, hu, hdone⟩ := ih (by omega) hloaded
    refine ⟨u, ?_, by rwa [Nat.add_right_comm] at hdone⟩
    rw [List.range'_succ, List.map_cons]
    unfold runOps
    rw [hr]
    exact hu

end

/-- When LOADALL is accepted, and what it expands to: the SBA, then a PBA for each bank (R91). -/
theorem expand_loadAll {c : Config} {w : BitVec 32} {spd : Byte} {modes : List Byte}
    {is : List Instr} (h : expand c (.loadAll w spd modes) = some is) :
    modes.length = 32 ∧ (∀ n, n < 4 → modes.getD (8 * n) 0#8 ≠ 0x40#8) ∧
      is = sbaOfMask w spd :: (List.range' 0 4).map fun b => pbaOfModes modes (8 * b) := by
  unfold expand at h
  split at h
  · next hwell =>
    simp only [Pseudo.wellFormed, Bool.and_eq_true, decide_eq_true_eq, bne_iff_ne] at hwell
    obtain ⟨⟨⟨⟨hlength, h0⟩, h1⟩, h2⟩, h3⟩ := hwell
    refine ⟨hlength, fun n hn => ?_, (Option.some.inj h).symm⟩
    match n, hn with
    | 0, _ => exact h0
    | 1, _ => exact h1
    | 2, _ => exact h2
    | 3, _ => exact h3
  · cases h

/-- Settles O15: the SBA, and then the four banks in turn. -/
theorem loadAllLoadsEveryChannel : Obligations.LoadAllLoadsEveryChannel := by
  intro s w spd modes is hwf hstarted hidle hplan hlength hexpand
  obtain ⟨hmodes, hopen, rfl⟩ := expand_loadAll hexpand
  have hready : Commandable s.cfg s := ⟨rfl, hstarted, hidle, hplan, hlength⟩
  obtain ⟨r, hr, hstart⟩ := exec_sbaOfMask hwf hready w spd modes
  obtain ⟨t, ht, hdone⟩ := runOps_banks hwf hopen 4 (Nat.le_refl 4) hstart
  refine ⟨t, ?_, hdone.bankPtr, hdone.idle, fun ch hch => ⟨?_, ?_⟩⟩
  · unfold runOps
    rw [hr]
    exact ht
  · rw [hdone.enabled]
    simp [hch]
  · have hch32 : ch < 32 := hch.trans_le (Config.wf_nCh hwf).2
    have hmode : t.led.modeAt ch = modes.getD ch 0#8 := hdone.mode ch hch32 hch
    unfold Led.modeAt at hmode
    rw [List.getD_eq_getElem _ _ (hdone.mode_length ▸ hch),
      List.getD_eq_getElem _ _ (hmodes ▸ hch32)] at hmode
    rw [List.getElem?_eq_getElem (hdone.mode_length ▸ hch),
      List.getElem?_eq_getElem (hmodes ▸ hch32), hmode]

end Sys2Proof.Machine

/-! PROOFS. The family 40_led_commands.md: what SBA and PBA write and leave alone, and the bank that each
PBA loads (R53, R55, R76, R78, R101 to R106). -/

namespace Sys2Proof.Machine

/-! ### A command that is not preempted -/

/-- Delivered while idle and not preempted, a command changes the LED fields, and else only the model's
own bookkeeping. -/
theorem deliver_idle (ws : List FieldWrite) (diag : List DiagCode) {s : State}
    (hidle : s.pending = []) (hplan : s.plan = none) :
    deliver ws diag s =
      { s with led := ws.foldl (fun l w => w.apply l) s.led
               ledDiag := diag
               ledOps := s.ledOps + 1 } := by
  rw [deliver_whole ws diag hplan, ← hidle]

/-! ### SBA (R101) -/

/-- Past its lowest byte, the lanes of a word are those of what stands above that byte. -/
theorem lane_append {n : Nat} (hi : BitVec n) (lo : Byte) (k : Nat) :
    (hi ++ lo).extractLsb' (k + 8) 8 = hi.extractLsb' k 8 :=
  BitVec.extractLsb'_append_eq_of_le (Nat.le_add_left 8 k)

/-- Byte k of the little-endian word of the four enable bytes is byte k (R53). -/
theorem enableBytes_of_word (en0 en1 en2 en3 : Byte) :
    let w : BitVec 32 := en3 ++ en2 ++ en1 ++ en0
    [w.extractLsb' 0 8, w.extractLsb' 8 8, w.extractLsb' 16 8, w.extractLsb' 24 8] =
      [en0, en1, en2, en3] := by
  intro w
  have h0 : w.extractLsb' 0 8 = en0 := BitVec.extractLsb'_append_eq_right
  have h1 : w.extractLsb' 8 8 = en1 := (lane_append _ _ 0).trans BitVec.extractLsb'_append_eq_right
  have h2 : w.extractLsb' 16 8 = en2 :=
    (lane_append _ _ 8).trans ((lane_append _ _ 0).trans BitVec.extractLsb'_append_eq_right)
  have h3 : w.extractLsb' 24 8 = en3 :=
    (lane_append _ _ 16).trans ((lane_append _ _ 8).trans BitVec.extractLsb'_append_eq_left)
  rw [h0, h1, h2, h3]

theorem enableBit_word (en0 en1 en2 en3 : Byte) {ch : Nat} (hch : ch < 32) :
    enableBit [en0, en1, en2, en3] ch = (en3 ++ en2 ++ en1 ++ en0 : BitVec 32).getLsbD ch := by
  rw [← enableBit_mask _ hch, enableBytes_of_word]

theorem clampNat_eq {lo hi : Nat} (h : lo ≤ hi) (v : Nat) : clampNat v lo hi = max lo (min hi v) := by
  unfold clampNat
  split
  · omega
  · split <;> omega

theorem speedOf_eq (spd : Byte) : speedOf spd = BitVec.ofNat 3 (max 1 (min 7 spd.toNat)) := by
  unfold speedOf
  rw [clampNat_eq (by decide)]

theorem foldl_sbaWrites (c : Config) (enBytes : List Byte) (spd : Byte) (l : Led) :
    (sbaWrites c enBytes spd).foldl (fun l w => w.apply l) l =
      { l with enabled := (List.range c.nCh).map (enableBit enBytes)
               pulseSpeed := speedOf spd
               bankPtr := 0#2 } := rfl

/-- Settles O10: the three writes of the SBA, with the enable bits and the clamp in the words of R76. -/
theorem sbaEffect : Obligations.SbaEffect := by
  intro s en0 en1 en2 en3 spd x6 x7 hwf hstarted hidle hplan
  have henabled : (List.range s.cfg.nCh).map (enableBit [en0, en1, en2, en3]) =
      (List.range s.cfg.nCh).map (en3 ++ en2 ++ en1 ++ en0 : BitVec 32).getLsbD :=
    List.map_congr_left fun ch hch => enableBit_word en0 en1 en2 en3
      ((List.mem_range.mp hch).trans_le (Config.wf_nCh hwf).2)
  refine ⟨sbaDiag s.cfg [en0, en1, en2, en3] spd,
    exec_sba_next.mpr ⟨hwf, hstarted, hidle, ?_⟩⟩
  rw [deliver_idle _ _ hidle hplan, foldl_sbaWrites, henabled, speedOf_eq]

/-! ### PBA (R104, R105) -/

section

variable {c : Config} {bk : BitVec 2}

theorem exec_pba_unpreempted {s : State} {m0 : Byte} (hwf : s.cfg.wf = true)
    (hstarted : s.ledStarted = true) (hidle : s.pending = []) (hplan : s.plan = none)
    (hm : m0 ≠ 0x40#8) (m1 m2 m3 m4 m5 m6 m7 : Byte) :
    exec (.pba m0 m1 m2 m3 m4 m5 m6 m7) s = .next { s with
      led := s.led.bankLoaded s.cfg s.led.bankPtr [m0, m1, m2, m3, m4, m5, m6, m7]
      ledDiag := pbaDiag s.cfg s.led.bankPtr [m0, m1, m2, m3, m4, m5, m6, m7]
      ledOps := s.ledOps + 1 } :=
  exec_pba_next.mpr ⟨hm, hwf, hstarted, hidle, (deliver_idle _ _ hidle hplan).symm⟩

/-- A PBA writes mode bytes and bank_ptr, and no other field. -/
theorem bankLoaded_eq (bk : BitVec 2) (ms : List Byte) (l : Led) :
    l.bankLoaded c bk ms =
      { l with mode := (l.bankLoaded c bk ms).mode, bankPtr := bk + 1#2 } := by
  have hframe : l.bankLoaded c bk ms = { l with mode := (l.bankLoaded c bk ms).mode
                                                bankPtr := (l.bankLoaded c bk ms).bankPtr } := by
    refine List.foldlRecOn
      (motive := fun l' : Led => l' = { l with mode := l'.mode, bankPtr := l'.bankPtr }) _ _ rfl ?_
    intro l' hl' w hw
    obtain ⟨k, -, -, rfl⟩ | rfl := mem_pbaWrites.mp hw
    · exact congrArg (FieldWrite.apply _) hl'
    · exact congrArg (FieldWrite.apply _) hl'
  rwa [bankLoaded_bankPtr] at hframe

/-- Two elements that are there and have the same value by `getD` are the same by `[·]?`. -/
theorem getElem?_eq_of_getD_eq {α : Type} {l l' : List α} {i i' : Nat} {d : α}
    (h : l.getD i d = l'.getD i' d) (hi : i < l.length) (hi' : i' < l'.length) :
    l[i]? = l'[i']? := by
  rw [List.getD_eq_getElem _ _ hi, List.getD_eq_getElem _ _ hi'] at h
  rw [List.getElem?_eq_getElem hi, List.getElem?_eq_getElem hi', h]

/-- Every mode byte after the eight of one bank: the channels of the bank take theirs, the others keep
theirs. -/
theorem bankLoaded_mode_getElem? {ms : List Byte} {l : Led} {ch : Nat} (hms : ms.length = 8)
    (hl : l.mode.length = c.nCh) (hch : ch < c.nCh) :
    (l.bankLoaded c bk ms).mode[ch]? =
      if ch / 8 = bk.toNat then ms[ch % 8]? else l.mode[ch]? := by
  have hlength : ch < (l.bankLoaded c bk ms).mode.length := by rwa [bankLoaded_mode_length, hl]
  split
  · next hbank =>
    have hsplit : bk.toNat * 8 + ch % 8 = ch := by omega
    have hmode := bankLoaded_modeAt_bank (bk := bk) (by omega : ch % 8 < 8) (by rwa [hsplit]) ms hl
    rw [hsplit] at hmode
    exact getElem?_eq_of_getD_eq hmode hlength (by omega)
  · next hbank =>
    exact getElem?_eq_of_getD_eq (bankLoaded_modeAt_other hbank ms l) hlength (by rwa [hl])

/-- Beyond the channel count no channel of the bank exists, so W_BANK is the only write (R105). -/
theorem pbaWrites_beyond (h : c.nCh ≤ bk.toNat * 8) (ms : List Byte) :
    pbaWrites c bk ms = [.bank (bk + 1#2)] := by
  have hnone : (List.range 8).filterMap (modeWrite c bk ms) = [] :=
    List.filterMap_eq_nil_iff.mpr fun k _ => if_neg (by omega)
  rw [pbaWrites, hnone, List.nil_append]

end

/-- Settles O12: the whole LED unit after the bank is loaded, and each mode byte of it. -/
theorem pbaEffect : Obligations.PbaEffect := by
  intro s m0 m1 m2 m3 m4 m5 m6 m7 hwf hstarted hidle hplan hm hlength
  have hexec := exec_pba_unpreempted hwf hstarted hidle hplan hm m1 m2 m3 m4 m5 m6 m7
  rw [bankLoaded_eq] at hexec
  exact ⟨_, _, hexec, (bankLoaded_mode_length ..).trans hlength,
    fun ch hch => bankLoaded_mode_getElem? rfl hlength hch⟩

/-- Settles O13: beyond the channel count the PBA makes its W_BANK alone. -/
theorem pbaBeyondChannelsWritesNoMode : Obligations.PbaBeyondChannelsWritesNoMode := by
  intro s m0 m1 m2 m3 m4 m5 m6 m7 hwf hstarted hidle hplan hm hbeyond
  have hexec := exec_pba_unpreempted hwf hstarted hidle hplan hm m1 m2 m3 m4 m5 m6 m7
  rw [Led.bankLoaded, pbaWrites_beyond hbeyond] at hexec
  exact ⟨_, hexec⟩

/-! ### No output at once (R103) -/

/-- The pins are a function of the configuration and of ch_out (R129). -/
theorem ledOut_of_chOut {s t : State} (hcfg : t.cfg = s.cfg) (hout : t.led.chOut = s.led.chOut) :
    ledOut t = ledOut s := by
  have hlevel : outputLevel s.cfg t.led = outputLevel s.cfg s.led := by
    funext p
    unfold outputLevel Led.outAt
    rw [hout]
  unfold ledOut
  rw [hcfg, hlevel]

/-- A command that answers a next state has delivered its writes, whatever the scheduler's plan. -/
theorem exec_command_next {s t : State} {i : Instr}
    (hi : (∃ a b c d e f g, i = .sba a b c d e f g) ∨ ∃ a b c d e f g h, i = .pba a b c d e f g h)
    (ht : exec i s = .next t) : ∃ ws diag, t = deliver ws diag s := by
  obtain ⟨_, _, _, _, _, _, _, rfl⟩ | ⟨_, _, _, _, _, _, _, _, rfl⟩ := hi
  · obtain ⟨-, -, -, hdelivered⟩ := exec_sba_next.mp ht
    exact ⟨_, _, hdelivered⟩
  · obtain ⟨-, -, -, -, hdelivered⟩ := exec_pba_next.mp ht
    exact ⟨_, _, hdelivered⟩

/-- Settles O16: no write of a command reaches ch_out, the phase or the counter (`deliver_frame`). -/
theorem commandsChangeNoOutputAtOnce : Obligations.CommandsChangeNoOutputAtOnce := by
  intro s t i hi ht
  obtain ⟨ws, diag, rfl⟩ := exec_command_next hi ht
  obtain ⟨hcfg, -, -, -, -, -, -, -, hout, hphase, hcounter⟩ := deliver_frame ws diag s
  exact ⟨hout, ledOut_of_chOut hcfg hout, hphase, hcounter⟩

/-! ### The bank of the j-th PBA (R106)

After RESET or an SBA the unit may still owe writes.  `Restarted` says that those lead bank_ptr to 0;
`Aimed` says, once they are done, at which bank the next PBA is aimed. -/

/-- The outstanding writes `ws` lead bank_ptr of `l` to 0, in whatever order they are done. -/
def BankReturns (l : Led) (ws : List FieldWrite) : Prop :=
  (∀ v, FieldWrite.bank v ∈ ws → v = 0#2) ∧ (l.bankPtr = 0#2 ∨ FieldWrite.bank 0#2 ∈ ws)

theorem BankReturns.perm {l : Led} {ws vs : List FieldWrite} (h : BankReturns l ws)
    (hperm : ws.Perm vs) : BankReturns l vs := by
  obtain ⟨hbanks, hptr⟩ := h
  exact ⟨fun v hv => hbanks v (hperm.mem_iff.mpr hv), hptr.imp_right hperm.mem_iff.mp⟩

/-- One write taken from the outstanding ones and done. -/
theorem BankReturns.write {l : Led} {w : FieldWrite} {ws : List FieldWrite}
    (h : BankReturns l (w :: ws)) : BankReturns (w.apply l) ws := by
  obtain ⟨hbanks, hptr⟩ := h
  refine ⟨fun v hv => hbanks v (List.mem_cons_of_mem w hv), ?_⟩
  cases w with
  | bank v => exact .inl (hbanks v List.mem_cons_self)
  | enables en => simpa [FieldWrite.apply] using hptr
  | speed v => simpa [FieldWrite.apply] using hptr
  | mode ch v => simpa [FieldWrite.apply] using hptr

theorem BankReturns.settled {l : Led} {ws : List FieldWrite} (h : BankReturns l ws) :
    (ws.foldl (fun l w => w.apply l) l).bankPtr = 0#2 := by
  induction ws generalizing l with
  | nil =>
    obtain ⟨-, hptr⟩ := h
    exact hptr.resolve_right List.not_mem_nil
  | cons w ws ih => exact ih h.write

/-- A RESET keeps no write that would take bank_ptr off 0 (log entry 8). -/
theorem resetValues_bankReturns (s : State) :
    BankReturns (Led.resetValues s.cfg) (writesAfterReset s) := by
  refine ⟨fun v hv => ?_, .inl rfl⟩
  obtain ⟨-, hkeeps⟩ := writesAfterReset_mem hv
  exact Decidable.not_not.mp (of_decide_eq_false hkeeps)

theorem sbaWrites_bankReturns (c : Config) (enBytes : List Byte) (spd : Byte) (l : Led) :
    BankReturns l (sbaWrites c enBytes spd) := by
  simp [BankReturns, sbaWrites]

/-- RESET or an SBA has run from `s`; its writes may still be outstanding. -/
structure Restarted (s x : State) : Prop where
  cfg : x.cfg = s.cfg
  started : x.ledStarted = true
  panel : s.panStarted = true → x.panStarted = true
  plan : x.plan = none
  mode_length : x.led.mode.length = s.cfg.nCh
  bank : BankReturns x.led x.pending

/-- The unit is idle and n PBAs have run since bank_ptr was 0. -/
structure Aimed (s : State) (n : Nat) (x : State) : Prop extends Commandable s.cfg x where
  panel : s.panStarted = true → x.panStarted = true
  bankPtr : x.led.bankPtr = BitVec.ofNat 2 n

section

variable {s x : State}

theorem Restarted.perform (h : Restarted s x) (k : Nat) : Restarted s (perform k x) := by
  obtain hsame | ⟨w, hw, hstep⟩ := perform_cases k x
  · rwa [hsame]
  · obtain ⟨hk, rfl⟩ := List.getElem?_eq_some_iff.mp hw
    rw [hstep]
    exact { h with
      mode_length := (FieldWrite.apply_mode_length _ x.led).trans h.mode_length
      bank := (h.bank.perm (List.getElem_cons_eraseIdx_perm hk).symm).write }

theorem Restarted.settled (h : Restarted s x) : Aimed s 0 (settle x) := by
  obtain ⟨-, -, -, hlength⟩ := foldl_apply_frame x.pending x.led
  exact ⟨⟨h.cfg, h.started, rfl, h.plan, hlength.trans h.mode_length⟩, h.panel, h.bank.settled⟩

theorem Restarted.settle (h : Restarted s x) : Restarted s (settle x) where
  cfg := h.cfg
  started := h.started
  panel := h.panel
  plan := h.plan
  mode_length := h.settled.mode_length
  bank := ⟨nofun, .inl h.settled.bankPtr⟩

theorem Restarted.move (h : Restarted s x) (m : Move) : Restarted s (m.apply x) := by
  cases m with
  | write k => exact h.perform k
  | tick =>
    obtain ⟨hbanks, hptr⟩ := h.bank
    exact { h with
      mode_length := (congrArg List.length (pwmTick_mode x.cfg x.led)).trans h.mode_length
      bank := ⟨hbanks, hptr.imp_left (pwmTick_bankPtr x.cfg x.led).trans⟩ }

theorem Restarted.moves (h : Restarted s x) (moves : List Move) :
    Restarted s (moves.foldl (fun x m => m.apply x) x) :=
  List.foldlRecOn moves _ h fun _ hx m _ => hx.move m

theorem exec_resetLed_restarted (hwf : s.cfg.wf = true) (hplan : s.plan = none) :
    ∃ r, exec .resetLed s = .next r ∧ Restarted s r :=
  ⟨_, exec_resetLed_next.mpr ⟨hwf, rfl⟩, rfl, rfl, id, hplan, List.length_replicate,
    resetValues_bankReturns s⟩

/-- An SBA, wherever the command agent is preempted. -/
theorem exec_sba_restarted (hwf : s.cfg.wf = true) (hstarted : s.ledStarted = true)
    (hidle : s.pending = []) (hlength : s.led.mode.length = s.cfg.nCh)
    (en0 en1 en2 en3 spd x6 x7 : Byte) :
    ∃ r, exec (.sba en0 en1 en2 en3 spd x6 x7) s = .next r ∧ Restarted s r := by
  refine ⟨_, exec_sba_next.mpr ⟨hwf, hstarted, hidle, rfl⟩, ?_⟩
  exact runAgent_induct (Restarted s) s.plan _
    ⟨rfl, hstarted, id, rfl, hlength, sbaWrites_bankReturns s.cfg _ _ s.led⟩
    (fun k _ ht => ht.perform k) fun _ ht => ht.settle

/-- The operation is a PBA. -/
def isPba : Instr → Bool
  | .pba _ _ _ _ _ _ _ _ => true
  | _ => false

theorem Aimed.bankPtr_toNat {n : Nat} (h : Aimed s n x) : x.led.bankPtr.toNat = n % 4 := by
  rw [h.bankPtr, BitVec.toNat_ofNat]

/-- A PBA loads the bank it is aimed at, and the next one is aimed at the next bank. -/
theorem Aimed.exec_pba {n : Nat} (h : Aimed s n x) (hwf : s.cfg.wf = true) {m0 : Byte}
    (hm : m0 ≠ 0x40#8) (m1 m2 m3 m4 m5 m6 m7 : Byte) :
    ∃ y, exec (.pba m0 m1 m2 m3 m4 m5 m6 m7) x = .next y ∧ Aimed s (n + 1) y ∧
      y.led = x.led.bankLoaded s.cfg x.led.bankPtr [m0, m1, m2, m3, m4, m5, m6, m7] := by
  refine ⟨_, exec_pba_unpreempted (h.cfg ▸ hwf) h.started h.idle h.plan hm m1 m2 m3 m4 m5 m6 m7,
    ?_, by rw [h.cfg]⟩
  exact { h with
    mode_length := (bankLoaded_mode_length ..).trans h.mode_length
    bankPtr := by
      rw [bankLoaded_bankPtr, h.bankPtr]
      exact (BitVec.ofNat_add n 1).symm }

/-- Every operation but an SBA or RESET.LED runs, and only a PBA moves the aim. -/
theorem Aimed.exec {n : Nat} (h : Aimed s n x) (hwf : s.cfg.wf = true) {i : Instr}
    (hwell : i.wellFormed = true) (hreset : i ≠ .resetLed)
    (hsba : ¬ ∃ a b c d e f g, i = .sba a b c d e f g) (hpanel : OfPanel i → s.panStarted = true) :
    ∃ y, Machine.exec i x = .next y ∧ Aimed s (n + (isPba i).toNat) y := by
  have hwfx : x.cfg.wf = true := h.cfg ▸ hwf
  cases i with
  | sba => exact absurd ⟨_, _, _, _, _, _, _, rfl⟩ hsba
  | resetLed => exact absurd rfl hreset
  | pba m0 m1 m2 m3 m4 m5 m6 m7 =>
    obtain ⟨y, hy, haimed, -⟩ := h.exec_pba hwf (bne_iff_ne.mp hwell) m1 m2 m3 m4 m5 m6 m7
    exact ⟨y, hy, haimed⟩
  | pwmTick =>
    exact ⟨_, exec_pwmTick_next.mpr ⟨hwfx, h.started, rfl⟩, { h with
      mode_length := (congrArg List.length (pwmTick_mode x.cfg x.led)).trans h.mode_length
      bankPtr := (pwmTick_bankPtr x.cfg x.led).trans h.bankPtr }⟩
  | sampleTick raw =>
    have hpan := h.panel (hpanel (.inl ⟨raw, rfl⟩))
    exact ⟨_, exec_sampleTick_next.mpr ⟨hwfx, hpan, rfl⟩, { h with }⟩
  | getReport =>
    have hpan := h.panel (hpanel (.inr (.inl rfl)))
    exact ⟨_, exec_getReport_next.mpr ⟨hwfx, hpan, rfl⟩, { h with }⟩
  | resetPan => exact ⟨_, exec_resetPan_next.mpr ⟨hwfx, rfl⟩, { h with panel := fun _ => rfl }⟩

/-- Over a list of such operations the aim moves by as many banks as there are PBAs among them. -/
theorem Aimed.runOps (hwf : s.cfg.wf = true) (is : List Instr) {n : Nat} {x : State}
    (h : Aimed s n x)
    (his : ∀ i ∈ is, i.wellFormed = true ∧ i ≠ .resetLed ∧
      (¬ ∃ a b c d e f g, i = .sba a b c d e f g) ∧ (OfPanel i → s.panStarted = true)) :
    ∃ t, Machine.runOps is x = .next t ∧ Aimed s (n + is.countP isPba) t := by
  induction is generalizing n x with
  | nil => exact ⟨x, rfl, h⟩
  | cons i is ih =>
    obtain ⟨⟨hwell, hreset, hsba, hpanel⟩, hrest⟩ := List.forall_mem_cons.mp his
    obtain ⟨y, hy, haimed⟩ := h.exec hwf hwell hreset hsba hpanel
    obtain ⟨t, ht, hdone⟩ := ih haimed hrest
    have hcount : n + (i :: is).countP isPba = n + (isPba i).toNat + is.countP isPba := by
      rw [List.countP_cons, Nat.add_assoc, Nat.add_comm (is.countP isPba)]
      cases isPba i
      · rfl
      · rfl
    refine ⟨t, ?_, hcount ▸ hdone⟩
    unfold Machine.runOps
    rw [hy]
    exact ht

end

/-- Settles O14: what is outstanding after RESET or an SBA returns bank_ptr to 0, and from there only the
PBAs move it. -/
theorem pbasLoadBanksRoundRobin : Obligations.PbasLoadBanksRoundRobin := by
  intro first moves between s m0 m1 m2 m3 m4 m5 m6 m7 hwf hfirst hbetween hm _ j
  have hrestarts : ∃ r, exec first s = .next r ∧ Restarted s r := by
    obtain ⟨rfl, hplan⟩ | ⟨hstarted, hidle, hlength, _, _, _, _, _, _, _, rfl⟩ := hfirst
    · exact exec_resetLed_restarted hwf hplan
    · exact exec_sba_restarted hwf hstarted hidle hlength _ _ _ _ _ _ _
  obtain ⟨r, hr, hrestarted⟩ := hrestarts
  obtain ⟨t, ht, haimed⟩ := Aimed.runOps hwf between (hrestarted.moves moves).settled hbetween
  rw [Nat.zero_add] at haimed
  have hbank : t.led.bankPtr.toNat = j % 4 := haimed.bankPtr_toNat
  obtain ⟨u, hu, hnext, hled⟩ := haimed.exec_pba hwf hm m1 m2 m3 m4 m5 m6 m7
  refine ⟨r, t, u, hr, ht, hbank, hu, hnext.mode_length, fun ch hch => ?_⟩
  rw [hled, bankLoaded_mode_getElem? rfl haimed.mode_length hch, hbank]

end Sys2Proof.Machine

/-! PROOFS. The family 41_led_pwm.md: the brightness lookup, PATTERN_FN, PWM_TICK and the pins (R120 to
R131). -/

namespace Sys2Proof.Machine

/-! ### The default PATTERN_FN (R125) -/

/-- The arm level t, of 0..255, scaled to 0..MAXB (R125). -/
def ramp (maxB t : Nat) : Nat := (t * (maxB + 1)) >>> 8

theorem ramp_mono (maxB : Nat) {t t' : Nat} (h : t ≤ t') : ramp maxB t ≤ ramp maxB t' := by
  unfold ramp
  rw [Nat.shiftRight_eq_div_pow, Nat.shiftRight_eq_div_pow]
  exact Nat.div_le_div_right (Nat.mul_le_mul_right _ h)

theorem ramp_le (maxB : Nat) {t : Nat} (h : t ≤ 255) : ramp maxB t ≤ maxB := by
  refine (ramp_mono maxB h).trans ?_
  unfold ramp
  rw [Nat.shiftRight_eq_div_pow]
  omega

theorem ramp_bottom (maxB : Nat) : ramp maxB 0 = 0 := by
  unfold ramp
  rw [Nat.zero_mul, Nat.zero_shiftRight]

theorem ramp_top {maxB : Nat} (h : maxB ≤ 255) : ramp maxB 255 = maxB := by
  unfold ramp
  rw [Nat.shiftRight_eq_div_pow]
  omega

theorem standardPattern_triangle_low (maxB : Nat) {ph : BitVec 16} (h : ph.toNat < 0x8000) :
    standardPattern maxB .triangle ph = ramp maxB (ph.toNat / 128) := by
  have hlow : (ph.extractLsb' 7 8).toNat = ph.toNat / 128 := by
    rw [BitVec.extractLsb'_toNat, Nat.shiftRight_eq_div_pow]
    omega
  have hsign : ¬ ph.getLsbD 15 = true := by rw [getLsbD_sign_iff]; omega
  simp only [standardPattern, if_neg hsign, hlow, ramp]

theorem standardPattern_triangle_high (maxB : Nat) {ph : BitVec 16} (h : 0x8000 ≤ ph.toNat) :
    standardPattern maxB .triangle ph = ramp maxB (511 - ph.toNat / 128) := by
  have hlow : (~~~(ph.extractLsb' 7 8)).toNat = 511 - ph.toNat / 128 := by
    rw [BitVec.toNat_not, BitVec.extractLsb'_toNat, Nat.shiftRight_eq_div_pow]
    have hph := ph.isLt
    omega
  have hsign : ph.getLsbD 15 = true := (getLsbD_sign_iff ph).mpr h
  simp only [standardPattern, if_pos hsign, hlow, ramp]

theorem phase_highByte (ph : BitVec 16) : (ph.extractLsb' 8 8).toNat = ph.toNat / 256 := by
  rw [BitVec.extractLsb'_toNat, Nat.shiftRight_eq_div_pow]
  have hph := ph.isLt
  omega

theorem standardPattern_fall (maxB : Nat) (ph : BitVec 16) :
    standardPattern maxB .fall ph = ramp maxB (255 - ph.toNat / 256) := by
  simp only [standardPattern, phase_highByte, ramp]

theorem standardPattern_rise (maxB : Nat) (ph : BitVec 16) :
    standardPattern maxB .rise ph = ramp maxB (ph.toNat / 256) := by
  simp only [standardPattern, phase_highByte, ramp]

/-- Settles O24: each ramp of R125 passes through its arm levels 0 and 255, and the rectangle has one half
of each. -/
theorem standardPatternReachesBothEnds : Obligations.StandardPatternReachesBothEnds := by
  intro maxB p _ hmax
  have htop : ramp maxB 255 = maxB := ramp_top (by omega)
  cases p with
  | triangle =>
    exact ⟨⟨0#16, (standardPattern_triangle_low maxB (by decide)).trans (ramp_bottom maxB)⟩,
      ⟨0x7FFF#16, (standardPattern_triangle_low maxB (by decide)).trans htop⟩⟩
  | rectangle => exact ⟨⟨0x8000#16, rfl⟩, ⟨0#16, rfl⟩⟩
  | fall =>
    exact ⟨⟨0xFFFF#16, (standardPattern_fall maxB _).trans (ramp_bottom maxB)⟩,
      ⟨0#16, (standardPattern_fall maxB _).trans htop⟩⟩
  | rise =>
    exact ⟨⟨0#16, (standardPattern_rise maxB _).trans (ramp_bottom maxB)⟩,
      ⟨0xFFFF#16, (standardPattern_rise maxB _).trans htop⟩⟩

/-! ### Every PATTERN_FN of the model (R126) -/

/-- The value of the phase's sign bit on which the rectangle is on. -/
def rectangleOnSign : PatternFn → Bool
  | .standard => false
  | .table onHigh _ _ _ _ => onHigh

theorem patternValue_rectangle (f : PatternFn) (maxB : Nat) (ph : BitVec 16) :
    patternValue f maxB .rectangle ph = if ph.getLsbD 15 = rectangleOnSign f then maxB else 0 := by
  cases f with
  | standard =>
    show (if ph.getLsbD 15 = true then 0 else maxB) = if ph.getLsbD 15 = false then maxB else 0
    cases ph.getLsbD 15 <;> rfl
  | table => rfl

theorem countP_reached_mono (ts : List Nat) {x y : Nat} (h : x ≤ y) :
    ts.countP (fun t => decide (t ≤ x)) ≤ ts.countP (fun t => decide (t ≤ y)) :=
  List.countP_mono_left fun _ _ ht => decide_eq_true ((of_decide_eq_true ht).trans h)

theorem countP_unreached_antitone (ts : List Nat) {x y : Nat} (h : x ≤ y) :
    ts.countP (fun t => decide (y < t)) ≤ ts.countP (fun t => decide (x < t)) :=
  List.countP_mono_left fun _ _ ht => decide_eq_true (h.trans_lt (of_decide_eq_true ht))

section

variable {f : PatternFn} {maxB : Nat} {ph ph' : BitVec 16} {onHigh : Bool}
  {up down fall rise : List Nat}

theorem PatternFn.wf_table :
    PatternFn.wf maxB (.table onHigh up down fall rise) = true ↔
      up.length ≤ maxB ∧ down.length ≤ maxB ∧ fall.length ≤ maxB ∧ rise.length ≤ maxB := by
  simp only [PatternFn.wf, Bool.and_eq_true, decide_eq_true_eq, and_assoc]

theorem patternValue_table_triangle_low (h : ph.toNat < 0x8000) :
    patternValue (.table onHigh up down fall rise) maxB .triangle ph =
      up.countP (fun t => decide (t ≤ ph.toNat)) :=
  if_neg (by rw [getLsbD_sign_iff]; omega)

theorem patternValue_table_triangle_high (h : 0x8000 ≤ ph.toNat) :
    patternValue (.table onHigh up down fall rise) maxB .triangle ph =
      down.countP (fun t => decide (ph.toNat < t)) :=
  if_pos ((getLsbD_sign_iff ph).mpr h)

/-- (P1): a ramp of the table counts thresholds, of which there are at most MAXB. -/
theorem patternValue_le (h : f.wf maxB = true) (p : Pattern) (ph : BitVec 16) :
    patternValue f maxB p ph ≤ maxB := by
  have hph := ph.isLt
  cases p with
  | rectangle => rw [patternValue_rectangle]; split <;> omega
  | triangle =>
    cases f with
    | standard =>
      rcases Nat.lt_or_ge ph.toNat 0x8000 with hlow | hhigh
      · exact (standardPattern_triangle_low maxB hlow).trans_le (ramp_le maxB (by omega))
      · exact (standardPattern_triangle_high maxB hhigh).trans_le (ramp_le maxB (by omega))
    | table onHigh up down fall rise =>
      obtain ⟨hup, hdown, -, -⟩ := PatternFn.wf_table.mp h
      rcases Nat.lt_or_ge ph.toNat 0x8000 with hlow | hhigh
      · exact (patternValue_table_triangle_low hlow).trans_le (List.countP_le_length.trans hup)
      · exact (patternValue_table_triangle_high hhigh).trans_le (List.countP_le_length.trans hdown)
  | fall =>
    cases f with
    | standard => exact (standardPattern_fall maxB ph).trans_le (ramp_le maxB (by omega))
    | table onHigh up down fall rise =>
      obtain ⟨-, -, hfall, -⟩ := PatternFn.wf_table.mp h
      exact List.countP_le_length.trans hfall
  | rise =>
    cases f with
    | standard => exact (standardPattern_rise maxB ph).trans_le (ramp_le maxB (by omega))
    | table onHigh up down fall rise =>
      obtain ⟨-, -, -, hrise⟩ := PatternFn.wf_table.mp h
      exact List.countP_le_length.trans hrise

theorem patternValue_triangle_up (hle : ph.toNat ≤ ph'.toNat) (h : ph'.toNat ≤ 0x7FFF) :
    patternValue f maxB .triangle ph ≤ patternValue f maxB .triangle ph' := by
  have hlow' : ph'.toNat < 0x8000 := by omega
  have hlow : ph.toNat < 0x8000 := by omega
  cases f with
  | standard =>
    show standardPattern maxB .triangle ph ≤ standardPattern maxB .triangle ph'
    rw [standardPattern_triangle_low maxB hlow, standardPattern_triangle_low maxB hlow']
    exact ramp_mono maxB (Nat.div_le_div_right hle)
  | table =>
    rw [patternValue_table_triangle_low hlow, patternValue_table_triangle_low hlow']
    exact countP_reached_mono _ hle

theorem patternValue_triangle_down (h : 0x8000 ≤ ph.toNat) (hle : ph.toNat ≤ ph'.toNat) :
    patternValue f maxB .triangle ph' ≤ patternValue f maxB .triangle ph := by
  have h' : 0x8000 ≤ ph'.toNat := h.trans hle
  cases f with
  | standard =>
    show standardPattern maxB .triangle ph' ≤ standardPattern maxB .triangle ph
    rw [standardPattern_triangle_high maxB h, standardPattern_triangle_high maxB h']
    exact ramp_mono maxB (Nat.sub_le_sub_left (Nat.div_le_div_right hle) _)
  | table =>
    rw [patternValue_table_triangle_high h, patternValue_table_triangle_high h']
    exact countP_unreached_antitone _ hle

theorem patternValue_fall_antitone (hle : ph.toNat ≤ ph'.toNat) :
    patternValue f maxB .fall ph' ≤ patternValue f maxB .fall ph := by
  cases f with
  | standard =>
    show standardPattern maxB .fall ph' ≤ standardPattern maxB .fall ph
    rw [standardPattern_fall, standardPattern_fall]
    exact ramp_mono maxB (Nat.sub_le_sub_left (Nat.div_le_div_right hle) _)
  | table => exact countP_unreached_antitone _ hle

theorem patternValue_rise_monotone (hle : ph.toNat ≤ ph'.toNat) :
    patternValue f maxB .rise ph ≤ patternValue f maxB .rise ph' := by
  cases f with
  | standard =>
    show standardPattern maxB .rise ph ≤ standardPattern maxB .rise ph'
    rw [standardPattern_rise, standardPattern_rise]
    exact ramp_mono maxB (Nat.div_le_div_right hle)
  | table => exact countP_reached_mono _ hle

/-- (P2): with MAXB at least 1 the rectangle's two values tell the halves of the phase apart. -/
theorem patternValue_rectangle_differs (hmax : 1 ≤ maxB) (h : ph.getLsbD 15 ≠ ph'.getLsbD 15) :
    patternValue f maxB .rectangle ph ≠ patternValue f maxB .rectangle ph' := by
  rw [patternValue_rectangle, patternValue_rectangle]
  by_cases hon : ph.getLsbD 15 = rectangleOnSign f
  · rw [if_pos hon, if_neg (hon ▸ h.symm)]
    omega
  · have hon' : ph'.getLsbD 15 = rectangleOnSign f := by
      rw [Bool.eq_not.mpr h.symm, Bool.eq_not.mpr hon, Bool.not_not]
    rw [if_neg hon, if_pos hon']
    omega

theorem patternValue_lawful (hmax : 1 ≤ maxB) (h : f.wf maxB = true) :
    LawfulPattern maxB (patternValue f maxB) where
  range := patternValue_le h
  rectangle_values ph := by rw [patternValue_rectangle]; split <;> simp
  rectangle_sign_only ph ph' hsign := by rw [patternValue_rectangle, patternValue_rectangle, hsign]
  rectangle_differs _ _ := patternValue_rectangle_differs hmax
  triangle_up _ _ := patternValue_triangle_up
  triangle_down _ _ := patternValue_triangle_down
  fall_antitone _ _ := patternValue_fall_antitone
  rise_monotone _ _ := patternValue_rise_monotone

end

theorem Config.wf_pattern {c : Config} (h : c.wf = true) : c.pattern.wf c.maxB = true := by
  simp only [Config.wf, Config.ledWf, Bool.and_eq_true] at h
  obtain ⟨⟨-, hpattern⟩, -⟩ := h
  exact hpattern

/-- Settles O22: (P1) to (P4) for both forms of a PATTERN_FN; (P2) needs R10's MAXB ≥ 1. -/
theorem patternFunctionsAreLawful : Obligations.PatternFunctionsAreLawful :=
  fun _ hwf => patternValue_lawful (Config.wf_maxB hwf).1 (Config.wf_pattern hwf)

/-! ### BRIGHT (R121) -/

theorem bright_eq (c : Config) (mode : Byte) (ph : BitVec 16) :
    bright c mode ph =
      if mode.toNat ≤ c.maxB then mode.toNat
      else if mode.toNat = 129 then patternValue c.pattern c.maxB .triangle ph
      else if mode.toNat = 130 then patternValue c.pattern c.maxB .rectangle ph
      else if mode.toNat = 131 then patternValue c.pattern c.maxB .fall ph
      else if mode.toNat = 132 then patternValue c.pattern c.maxB .rise ph
      else 0 := by
  have hmode (k : Byte) : mode = k ↔ mode.toNat = k.toNat := BitVec.toNat_inj.symm
  simp only [bright, classify, hmode, BitVec.reduceToNat]
  split_ifs <;> rfl

theorem bright_le {c : Config} (hwf : c.wf = true) (mode : Byte) (ph : BitVec 16) :
    bright c mode ph ≤ c.maxB := by
  have hpattern (p : Pattern) : patternValue c.pattern c.maxB p ph ≤ c.maxB :=
    patternValue_le (Config.wf_pattern hwf) p ph
  unfold bright
  split
  next b hb =>
    unfold classify at hb
    split_ifs at hb with hle
    rwa [← ModeClass.constant.inj hb]
  next p _ => exact hpattern p
  next => exact Nat.zero_le _

/-- Settles O21; the bound rests on (P1) of the PATTERN_FN. -/
theorem brightnessLookup : Obligations.BrightnessLookup :=
  fun c mode ph hwf => ⟨bright_eq c mode ph, bright_le hwf mode ph⟩

/-! ### One PWM_TICK (R124, R127, R131) -/

theorem pwmTick_eq (c : Config) (l : Led) :
    pwmTick c l =
      { l with
        chOut := (List.range c.nCh).map (channelOn c l)
        pwmCounter :=
          if l.pwmCounter = 0#8 then BitVec.ofNat 8 (c.maxB - 1) else l.pwmCounter - 1#8
        phase := if l.pwmCounter = 0#8 then l.phase + phaseStep c l else l.phase } := by
  rw [← pwmTick_chOut, ← pwmTick_pwmCounter, ← pwmTick_phase, ← pwmTick_enabled c l,
    ← pwmTick_mode c l, ← pwmTick_pulseSpeed c l, ← pwmTick_bankPtr c l]

/-- The phase steps modulo 2^16 (R130). -/
theorem phase_add_phaseStep (c : Config) (l : Led) :
    l.phase + phaseStep c l =
      BitVec.ofNat 16 (l.phase.toNat + l.pulseSpeed.toNat * c.phaseScale) := by
  rw [BitVec.ofNat_add, BitVec.ofNat_toNat, BitVec.setWidth_eq]
  rfl

/-- Settles O18: the LED unit field by field (`pwmTick_eq`). -/
theorem pwmTickEffect : Obligations.PwmTickEffect := by
  intro s hwf hstarted
  refine exec_pwmTick_next.mpr ⟨hwf, hstarted, ?_⟩
  rw [pwmTick_eq, phase_add_phaseStep]
  rfl

theorem pwmTick_outAt (c : Config) (l : Led) {ch : Nat} (hch : ch < c.nCh) :
    (pwmTick c l).outAt ch = channelOn c l ch := by
  unfold Led.outAt
  rw [pwmTick_chOut, List.getD_eq_getElem?_getD, List.getElem?_map, List.getElem?_range hch]
  rfl

/-- A channel that does not exist has no output. -/
theorem pwmTick_outAt_beyond (c : Config) (l : Led) {ch : Nat} (hch : c.nCh ≤ ch) :
    (pwmTick c l).outAt ch = false := by
  unfold Led.outAt
  rw [pwmTick_chOut]
  exact List.getD_eq_default _ _ (by simpa using hch)

theorem channelOn_of_disabled (c : Config) {l : Led} {ch : Nat} (h : l.enabledAt ch = false) :
    channelOn c l ch = false := by
  unfold channelOn
  rw [h, Bool.false_and]

/-- A channel's output depends on the channel by its enable bit and its mode only (R131). -/
theorem channelOn_congr (c : Config) {l : Led} {ch ch' : Nat}
    (henabled : l.enabledAt ch = l.enabledAt ch') (hmode : l.modeAt ch = l.modeAt ch') :
    channelOn c l ch = channelOn c l ch' := by
  unfold channelOn
  rw [henabled, hmode]

/-- Settles O19, for a channel that does not exist too. -/
theorem disabledChannelsStayDark : Obligations.DisabledChannelsStayDark := by
  intro s t ch ht hdisabled
  obtain ⟨-, -, rfl⟩ := exec_pwmTick_next.mp ht
  rcases Nat.lt_or_ge ch s.cfg.nCh with hch | hch
  · exact (pwmTick_outAt s.cfg s.led hch).trans (channelOn_of_disabled s.cfg hdisabled)
  · exact pwmTick_outAt_beyond s.cfg s.led hch

/-- Settles O20: BRIGHT does not read the channel's number, in a pattern mode as in any other. -/
theorem samePatternSameOutput : Obligations.SamePatternSameOutput := by
  intro s t ch ch' ht hch hch' henabled henabled' _ _ hmode
  obtain ⟨-, -, rfl⟩ := exec_pwmTick_next.mp ht
  calc (pwmTick s.cfg s.led).outAt ch
      = channelOn s.cfg s.led ch := pwmTick_outAt s.cfg s.led hch
    _ = channelOn s.cfg s.led ch' := channelOn_congr s.cfg (henabled.trans henabled'.symm) hmode
    _ = (pwmTick s.cfg s.led).outAt ch' := (pwmTick_outAt s.cfg s.led hch').symm

/-! ### One PWM cycle (R128) -/

/-- The brightness of a channel: BRIGHT of its mode when it is enabled, else 0 (R124, R128). -/
def Led.brightnessAt (c : Config) (l : Led) (ch : Nat) : Nat :=
  if l.enabledAt ch then bright c (l.modeAt ch) l.phase else 0

theorem channelOn_eq_decide (c : Config) (l : Led) (ch : Nat) :
    channelOn c l ch = decide (l.pwmCounter.toNat < l.brightnessAt c ch) := by
  unfold channelOn Led.brightnessAt
  cases l.enabledAt ch <;> simp

theorem brightnessAt_le {c : Config} (hwf : c.wf = true) (l : Led) (ch : Nat) :
    l.brightnessAt c ch ≤ c.maxB := by
  unfold Led.brightnessAt
  split
  · exact bright_le hwf _ _
  · exact Nat.zero_le _

theorem brightnessAt_congr (c : Config) {l l' : Led} {ch : Nat}
    (henabled : l'.enabledAt ch = l.enabledAt ch) (hmode : l'.modeAt ch = l.modeAt ch)
    (hphase : l'.phase = l.phase) : l'.brightnessAt c ch = l.brightnessAt c ch := by
  unfold Led.brightnessAt
  rw [henabled, hmode, hphase]

/-- Some atomic writes take effect, whatever command they come from (R55). -/
def writeFields (ws : List FieldWrite) (s : State) : State :=
  { s with led := ws.foldl (fun l w => w.apply l) s.led }

/-- The state before tick n of a run of ticks from s, the writes `writes n` falling after tick n. -/
def beforeTick (writes : Nat → List FieldWrite) (s : State) : Nat → State
  | 0 => s
  | n + 1 => writeFields (writes n) (Move.tick.apply (beforeTick writes s n))

theorem exec_pwmTick_eq_tick {s : State} (hwf : s.cfg.wf = true) (hstarted : s.ledStarted = true) :
    exec .pwmTick s = .next (Move.tick.apply s) :=
  exec_pwmTick_next.mpr ⟨hwf, hstarted, rfl⟩

section

variable (writes : Nat → List FieldWrite) (s : State)

@[simp] theorem beforeTick_cfg (n : Nat) : (beforeTick writes s n).cfg = s.cfg := by
  induction n with
  | zero => rfl
  | succ n ih => exact ih

@[simp] theorem beforeTick_ledStarted (n : Nat) :
    (beforeTick writes s n).ledStarted = s.ledStarted := by
  induction n with
  | zero => rfl
  | succ n ih => exact ih

/-- The writes between two ticks touch neither the counter nor the phase, so the next tick finds them as
the last one left them. -/
theorem beforeTick_succ_counters (n : Nat) :
    (beforeTick writes s (n + 1)).led.pwmCounter =
      (pwmTick s.cfg (beforeTick writes s n).led).pwmCounter ∧
    (beforeTick writes s (n + 1)).led.phase =
      (pwmTick s.cfg (beforeTick writes s n).led).phase := by
  obtain ⟨hphase, hcounter, -, -⟩ :=
    foldl_apply_frame (writes n) (pwmTick (beforeTick writes s n).cfg (beforeTick writes s n).led)
  rw [← beforeTick_cfg writes s n]
  exact ⟨hcounter, hphase⟩

variable {writes s}

/-- Within one PWM cycle the counter runs down from MAXB - 1, and the phase stands. -/
theorem beforeTick_counters (hstart : s.led.pwmCounter.toNat = s.cfg.maxB - 1) {n : Nat}
    (hn : n < s.cfg.maxB) :
    (beforeTick writes s n).led.pwmCounter.toNat = s.cfg.maxB - 1 - n ∧
      (beforeTick writes s n).led.phase = s.led.phase := by
  induction n with
  | zero => exact ⟨hstart, rfl⟩
  | succ n ih =>
    obtain ⟨hcounter, hphase⟩ := ih (by omega)
    have hne : (beforeTick writes s n).led.pwmCounter ≠ 0#8 := by bv_omega
    obtain ⟨hcounter', hphase'⟩ := beforeTick_succ_counters writes s n
    rw [pwmTick_pwmCounter, if_neg hne] at hcounter'
    rw [pwmTick_phase, if_neg hne] at hphase'
    refine ⟨?_, hphase'.trans hphase⟩
    rw [hcounter']
    bv_omega

/-- The last tick of a PWM cycle finds the counter at 0 and reloads it. -/
theorem beforeTick_cycle_counter (hwf : s.cfg.wf = true)
    (hstart : s.led.pwmCounter.toNat = s.cfg.maxB - 1) :
    (beforeTick writes s s.cfg.maxB).led.pwmCounter = s.led.pwmCounter := by
  obtain ⟨n, hn⟩ : ∃ n, s.cfg.maxB = n + 1 := ⟨s.cfg.maxB - 1, by have := Config.wf_maxB hwf; omega⟩
  obtain ⟨hcounter, -⟩ := beforeTick_counters (writes := writes) hstart (n := n) (by omega)
  have hzero : (beforeTick writes s n).led.pwmCounter = 0#8 := by bv_omega
  obtain ⟨hreload, -⟩ := beforeTick_succ_counters writes s n
  rw [pwmTick_pwmCounter, if_pos hzero, ← hstart, BitVec.ofNat_toNat, BitVec.setWidth_eq] at hreload
  rw [hn, hreload]

/-- In tick n of a PWM cycle the counter is MAXB - 1 - n, which is below the brightness from tick
MAXB - b on. -/
theorem tick_outAt_of_cycle (hwf : s.cfg.wf = true)
    (hstart : s.led.pwmCounter.toNat = s.cfg.maxB - 1) {ch : Nat} (hch : ch < s.cfg.nCh) {n : Nat}
    (hn : n < s.cfg.maxB)
    (henabled : (beforeTick writes s n).led.enabledAt ch = s.led.enabledAt ch)
    (hmode : (beforeTick writes s n).led.modeAt ch = s.led.modeAt ch) :
    (Move.tick.apply (beforeTick writes s n)).led.outAt ch =
      decide (s.cfg.maxB - s.led.brightnessAt s.cfg ch ≤ n) := by
  obtain ⟨hcounter, hphase⟩ := beforeTick_counters (writes := writes) hstart hn
  have hbright := brightnessAt_le hwf s.led ch
  show (pwmTick (beforeTick writes s n).cfg (beforeTick writes s n).led).outAt ch = _
  rw [beforeTick_cfg, pwmTick_outAt s.cfg _ hch, channelOn_eq_decide, hcounter,
    brightnessAt_congr s.cfg henabled hmode hphase, decide_eq_decide]
  omega

end

theorem countP_range_last {b n : Nat} (h : b ≤ n) :
    (List.range n).countP (fun j => decide (n - b ≤ j)) = b := by
  have hsplit := List.length_eq_countP_add_countP (fun j => decide (j < n - b)) (l := List.range n)
  simp only [countP_range_lt, List.length_range, decide_eq_true_eq, Nat.not_lt] at hsplit
  omega

/-- Settles O25: the counter runs through MAXB - 1 .. 0, and it is below the brightness b at its last b
values. -/
theorem dutyCycleLaw : Obligations.DutyCycleLaw := by
  intro s ch writes hwf hstarted hstart hch
  refine ⟨beforeTick writes s, fun n => Move.tick.apply (beforeTick writes s n), rfl,
    fun n => ⟨exec_pwmTick_eq_tick (by simpa using hwf) (by simpa using hstarted), rfl⟩, ?_⟩
  intro hsteady b
  have hon : ∀ n, n < s.cfg.maxB →
      (Move.tick.apply (beforeTick writes s n)).led.outAt ch = decide (s.cfg.maxB - b ≤ n) :=
    fun n hn => tick_outAt_of_cycle hwf hstart hch hn (hsteady n hn).1 (hsteady n hn).2
  refine ⟨fun n hn => ⟨(beforeTick_counters hstart hn).2, hon n hn⟩, ?_,
    beforeTick_cycle_counter hwf hstart⟩
  calc (List.range s.cfg.maxB).countP
        (fun n => (Move.tick.apply (beforeTick writes s n)).led.outAt ch)
      = (List.range s.cfg.maxB).countP (fun n => decide (s.cfg.maxB - b ≤ n)) :=
        List.countP_congr fun n hn => by rw [hon n (List.mem_range.mp hn)]
    _ = b := countP_range_last (brightnessAt_le hwf s.led ch)

/-! ### The pins (R129) -/

theorem ledOut_length (s : State) : (ledOut s).length = s.cfg.nOut := by
  unfold ledOut
  rw [List.length_map, List.length_range]

theorem ledOut_getElem? (s : State) {p : Nat} (hp : p < s.cfg.nOut) :
    (ledOut s)[p]? = some (outputLevel s.cfg s.led p) := by
  unfold ledOut
  rw [List.getElem?_map, List.getElem?_range hp]
  rfl

section

variable {c : Config} {p m : Nat}

theorem outputLevel_of_channel (hmap : c.outMap[p]? = some m) (hm : m < c.nCh) (l : Led) :
    outputLevel c l p = (l.outAt m == c.outActiveHigh) := by
  have hentry : c.outMap.getD p 0 = m := by rw [List.getD_eq_getElem?_getD, hmap]; rfl
  simp only [outputLevel, hentry, decide_eq_true hm, Bool.true_and]
  cases l.outAt m <;> cases c.outActiveHigh <;> rfl

theorem outputLevel_beyond (hmap : c.outMap[p]? = some m) (hm : c.nCh ≤ m) (l : Led) :
    outputLevel c l p = inactiveLevel c := by
  have hentry : c.outMap.getD p 0 = m := by rw [List.getD_eq_getElem?_getD, hmap]; rfl
  simp only [outputLevel, inactiveLevel, hentry, decide_eq_false (Nat.not_lt.mpr hm), Bool.false_and]
  cases c.outActiveHigh <;> rfl

end

/-- Settles O26: one case per side of the boundary m = N_CH. -/
theorem outputFollowsMap : Obligations.OutputFollowsMap := by
  intro s p m hp hmap
  rw [ledOut_getElem? s hp]
  exact ⟨ledOut_length s, fun hm => congrArg some (outputLevel_of_channel hmap hm s.led),
    fun hm => congrArg some (outputLevel_beyond hmap hm s.led)⟩

end Sys2Proof.Machine

/-! PROOFS. The family 42_panel_sampling.md: what one SAMPLE_TICK does to each field of the Panel unit, and
what a list of samples does to an input that is held (R140 to R161). -/

namespace Sys2Proof.Machine

/-! ### The quadrature step (R156), the active table and active(f) (R143, R144) -/

/-- Settles O38: the sixteen entries of R156. -/
theorem quadratureStepTable : Obligations.QuadratureStepTable := by
  unfold Obligations.QuadratureStepTable
  decide

section

variable {c : Config} {p : Panel}

/-- Below N_IN the valid input of an index parameter is the parameter itself (R143, R150). -/
theorem validIndex_eq_iff {k : Option Nat} {i : Nat} (hi : i < c.nIn) :
    validIndex c k = some i ↔ k = some i := by
  rw [validIndex_eq_some, and_iff_left hi]

theorem shiftOn_iff : shiftOn c p = true ↔ ∃ i, shiftAt c = some i ∧ p.levelAt i = true := by
  unfold shiftOn
  cases shiftAt c <;> simp

theorem effLevel_eq {i : Nat} (hi : i < c.nIn) :
    effLevel c p i = if c.mfIndex = some i then p.mfS else p.levelAt i := by
  simp only [effLevel, multifireAt, validIndex_eq_iff hi]

theorem pressed_eq {i : Nat} (hi : i < c.nIn) :
    pressed c p i = (decide (c.shiftIndex ≠ some i) && effLevel c p i) := by
  simp only [pressed, shiftAt, ne_eq, validIndex_eq_iff hi]

theorem active_iff {f : Function} :
    active c p f = true ↔ ∃ i, i < c.nIn ∧ pressed c p i = true ∧
      func (codeAt (activeTable c p) i) = some f := by
  simp only [active, List.any_eq_true, List.mem_range, Bool.and_eq_true, decide_eq_true_eq]

end

/-- Settles O34: below N_IN an index parameter is the valid input, at or above N_IN there is none. -/
theorem shiftTableWhileShiftHeld : Obligations.ShiftTableWhileShiftHeld := by
  intro c p
  refine ⟨fun i hshift hi => ?_, fun hbeyond => ?_, ?_, fun i hi => ⟨effLevel_eq hi, pressed_eq hi⟩,
    fun f => ?_⟩
  · have hvalid : shiftAt c = some i := validIndex_eq_some.mpr ⟨hshift, hi⟩
    simp only [activeTable, shiftOn, hvalid]
  · have hoff : shiftOn c p ≠ true := fun hon => by
      obtain ⟨i, hvalid, -⟩ := shiftOn_iff.mp hon
      obtain ⟨hshift, hi⟩ := validIndex_eq_some.mp hvalid
      exact absurd hi (Nat.not_lt.mpr (hbeyond i hshift))
    rw [activeTable, if_neg hoff]
  · simp only [shiftOn_iff, shiftAt, validIndex_eq_some, and_assoc]
  · rw [active_iff]
    refine exists_congr fun i => and_congr_right fun hi => ?_
    rw [pressed_eq hi, effLevel_eq hi, Bool.and_eq_true, decide_eq_true_eq, and_assoc]

/-! ### One SAMPLE_TICK, field by field -/

section

variable {c : Config} {raw : RawIn} {p : Panel}

theorem pan_of_exec_sampleTick {s t : State} (h : exec (.sampleTick raw) s = .next t) :
    t.pan = sampleTick s.cfg raw s.pan := by
  obtain ⟨-, -, rfl⟩ := exec_sampleTick_next.mp h
  rfl

/-- What phase 4 leaves as phases 1 to 3 made it (R157), the levels and counts apart. -/
theorem sampleTick_frame (c : Config) (raw : RawIn) (p : Panel) :
    (sampleTick c raw p).lastJoy = p.lastJoy ∧
    (sampleTick c raw p).mfGate = (sampleLevels c raw p).mfGate ∧
    (sampleTick c raw p).mfBurst = (sampleLevels c raw p).mfBurst ∧
    (sampleTick c raw p).mfS = (sampleLevels c raw p).mfS := by
  obtain ⟨hjoy, -⟩ := sampleLevels_frame c raw p
  obtain ⟨-, -, qjoy, qgate, qburst, qmfS, -⟩ := quadrature_spec (c := c) (sampleLevels c raw p)
  exact ⟨qjoy.trans hjoy, qgate, qburst, qmfS⟩

theorem sampleTick_qprev (c : Config) (raw : RawIn) (p : Panel) (a : Axis) :
    (sampleTick c raw p).qprev.get a = quadState c (sampleTick c raw p) a := by
  obtain ⟨-, -, -, -, -, -, qprev, -⟩ := quadrature_spec (c := c) (sampleLevels c raw p)
  obtain ⟨-, -, -, -, tquad⟩ := sampleTick_levels c raw p
  exact (qprev a).trans (tquad a).symm

/-- delta moves by the quadrature step from the old qprev to the new one, clamped (R157). -/
theorem sampleTick_delta (c : Config) (raw : RawIn) (p : Panel) (a : Axis) :
    (sampleTick c raw p).delta.get a =
      if qstep (p.qprev.get a) ((sampleTick c raw p).qprev.get a) = 0 then p.delta.get a
      else satS8 ((p.delta.get a).toInt +
        qstep (p.qprev.get a) ((sampleTick c raw p).qprev.get a)) := by
  obtain ⟨-, hqprev, hdelta, -⟩ := sampleLevels_frame c raw p
  obtain ⟨-, -, -, -, -, -, qprev, qdelta, -⟩ := quadrature_spec (c := c) (sampleLevels c raw p)
  rw [hqprev, hdelta] at qdelta
  exact (qdelta a).trans (by rw [← qprev a]; rfl)

/-- Phase 4 marks Mouse on a quadrature step (R157). -/
theorem sampleTick_dirty (c : Config) (raw : RawIn) (p : Panel) (d : Category) :
    (sampleTick c raw p).dirty.get d = true ↔
      (sampleLevels c raw p).dirty.get d = true ∨
      (d = .mouse ∧ ∃ a, qstep (p.qprev.get a) ((sampleTick c raw p).qprev.get a) ≠ 0) := by
  obtain ⟨-, hqprev, -⟩ := sampleLevels_frame c raw p
  obtain ⟨-, -, -, -, -, -, qprev, -, qdirty⟩ := quadrature_spec (c := c) (sampleLevels c raw p)
  simp only [← qprev, hqprev] at qdirty
  exact qdirty d

theorem sampleTick_keeps_dirty (c : Config) (raw : RawIn) (p : Panel) {d : Category}
    (h : p.dirty.get d = true) : (sampleTick c raw p).dirty.get d = true := by
  obtain ⟨-, -, -, -, -, hdirty⟩ := sampleLevels_frame c raw p
  exact (sampleTick_dirty c raw p d).mpr (.inl (hdirty d h))

theorem satS8_toInt (v : Int) : (satS8 v).toInt = max (-127) (min 127 v) := by
  have hclamp : clampS8 v = max (-127) (min 127 v) := by
    unfold clampS8
    split
    · omega
    · split <;> omega
  rw [satS8, hclamp, BitVec.toInt_ofInt, Int.bmod_eq_of_le] <;> omega

theorem quadState_getLsbD (c : Config) (p : Panel) (a : Axis) :
    (quadState c p a).getLsbD 1 = active c p (.phase a .a) ∧
    (quadState c p a).getLsbD 0 = active c p (.phase a .b) := by
  unfold quadState
  cases active c p (.phase a .a) <;> cases active c p (.phase a .b) <;> decide

end

/-- Settles O31. -/
theorem sampleTickOnlySetsDirtyBits : Obligations.SampleTickOnlySetsDirtyBits := by
  intro s raw hwf hstarted
  exact ⟨_, _, exec_sampleTick_next.mpr ⟨hwf, hstarted, rfl⟩, (sampleTick_frame _ _ _).1,
    fun _ hset => sampleTick_keeps_dirty _ _ _ hset⟩

/-- Settles O39. -/
theorem quadratureAccumulates : Obligations.QuadratureAccumulates := by
  intro s t raw a h
  rw [pan_of_exec_sampleTick h]
  have hq := sampleTick_qprev s.cfg raw s.pan a
  obtain ⟨hphaseA, hphaseB⟩ := quadState_getLsbD s.cfg (sampleTick s.cfg raw s.pan) a
  refine ⟨hq, by rw [hq, hphaseA], by rw [hq, hphaseB], ?_⟩
  dsimp only
  rw [sampleTick_delta, apply_ite BitVec.toInt, satS8_toInt]

/-! ### The levels and the dirty bits after a sample (R142, R145 to R149, R153) -/

section

variable {c : Config} {raw : RawIn} {p : Panel} {i : Nat}

theorem accepts_iff : accepts c raw i p = true ↔
    raw.getLsbD i ≠ p.levelAt i ∧ c.debounce ≤ min ((p.cntAt i).toNat + 1) 127 := by
  rw [accepts, Bool.and_eq_true, bne_iff_ne, decide_eq_true_eq]

theorem levelAfter_eq : levelAfter c raw i p =
    if raw.getLsbD i ≠ p.levelAt i ∧ c.debounce ≤ min ((p.cntAt i).toNat + 1) 127
    then raw.getLsbD i else p.levelAt i := by
  simp only [levelAfter, accepts_iff]

theorem cntAfter_toNat : (cntAfter c raw i p).toNat =
    if raw.getLsbD i = p.levelAt i ∨
      (raw.getLsbD i ≠ p.levelAt i ∧ c.debounce ≤ min ((p.cntAt i).toNat + 1) 127)
    then 0 else min ((p.cntAt i).toNat + 1) 127 := by
  simp only [cntAfter, accepts_iff]
  split
  · rfl
  · rw [BitVec.toNat_ofNat]
    omega

/-- Released by the cleanup, in terms of the state after the whole sample (R147). -/
theorem released_iff (hi : i ∈ genericInputs c) : Released c raw p i ↔
    shiftOn c (sampleTick c raw p) ≠ shiftOn c p ∧ shiftAt c ≠ some i ∧
    func (codeAt (activeTable c p) i) ≠ func (codeAt (activeTable c (sampleTick c raw p)) i) ∧
    levelAfter c raw i p = true := by
  obtain ⟨-, -, hshift, htable, -⟩ := sampleTick_levels c raw p
  obtain ⟨hlt, hgeneric⟩ := mem_genericInputs.mp hi
  simp only [Released, cleanable, remapped, levelAfterDebounce, if_pos hi, hshift, htable, hlt,
    true_and, decide_eq_true_eq]
  exact ⟨fun ⟨hchanged, ⟨_, hnot⟩, hrest⟩ => ⟨hchanged, hnot, hrest⟩,
    fun ⟨hchanged, hnot, hrest⟩ => ⟨hchanged, ⟨hgeneric, hnot⟩, hrest⟩⟩

variable (hl : p.level.length = c.nIn) (hc : p.cnt.length = c.nIn)
include hl hc

theorem sampleTick_of_released (h : Released c raw p i) :
    (sampleTick c raw p).levelAt i = false ∧ (sampleTick c raw p).cntAt i = 0#7 := by
  obtain ⟨hcases, -⟩ := sampleLevels_spec c raw p hl hc
  obtain ⟨tlevel, tcnt, -⟩ := sampleTick_levels c raw p
  rw [tlevel, tcnt]
  exact (hcases i).1 h

theorem sampleTick_of_not_released (h : ¬ Released c raw p i) :
    (sampleTick c raw p).levelAt i = levelAfterDebounce c raw p i ∧
    (sampleTick c raw p).cntAt i = cntAfterDebounce c raw p i := by
  obtain ⟨hcases, -⟩ := sampleLevels_spec c raw p hl hc
  obtain ⟨tlevel, tcnt, -⟩ := sampleTick_levels c raw p
  rw [tlevel, tcnt]
  exact (hcases i).2 h

/-- A generic input that the cleanup does not release is debounced (R142). -/
theorem sampleTick_debounced (hi : i ∈ genericInputs c) (h : ¬ Released c raw p i) :
    (sampleTick c raw p).levelAt i = levelAfter c raw i p ∧
    (sampleTick c raw p).cntAt i = cntAfter c raw i p := by
  have hkept := sampleTick_of_not_released hl hc h
  rwa [levelAfterDebounce, cntAfterDebounce, if_pos hi, if_pos hi] at hkept

theorem sampleTick_lengths :
    (sampleTick c raw p).level.length = c.nIn ∧ (sampleTick c raw p).cnt.length = c.nIn := by
  obtain ⟨-, hlevels, hcnts, -⟩ := sampleLevels_spec c raw p hl hc
  obtain ⟨qlevel, qcnt, -⟩ := quadrature_spec (c := c) (sampleLevels c raw p)
  exact ⟨(congrArg List.length qlevel).trans hlevels, (congrArg List.length qcnt).trans hcnts⟩

/-- Debounce and cleanup pass the multifire input by (R149). -/
theorem sampleTick_multifire_untouched (hm : multifireAt c = some i) :
    (sampleTick c raw p).levelAt i = p.levelAt i ∧ (sampleTick c raw p).cntAt i = p.cntAt i := by
  have hgeneric : i ∉ genericInputs c := fun hi => (mem_genericInputs.mp hi).2 hm
  have hkept := sampleTick_of_not_released (raw := raw) hl hc
    fun (⟨_, ⟨_, hne, _⟩, _⟩ : Released c raw p i) => hne hm
  rwa [levelAfterDebounce, cntAfterDebounce, if_neg hgeneric, if_neg hgeneric] at hkept

/-- An accepted change marks the input's category under the old table (R145). -/
theorem sampleTick_marks_accepted {d : Category} (hi : i ∈ genericInputs c)
    (hshift : shiftAt c ≠ some i) (haccepts : accepts c raw i p = true)
    (hcat : category (codeAt (activeTable c p) i) = some d) :
    (sampleTick c raw p).dirty.get d = true := by
  obtain ⟨-, -, -, hdirty⟩ := sampleLevels_spec c raw p hl hc
  have hmarks : marksOnAccept c (activeTable c p) raw p d i = true := by
    rw [marksOnAccept, haccepts, decide_eq_true hshift, decide_eq_true hcat]
    rfl
  exact (sampleTick_dirty c raw p d).mpr (.inl ((hdirty d).mpr (.inr (.inl ⟨i, hi, hmarks⟩))))

/-- A release by the cleanup marks the input's category under the old table (R147). -/
theorem sampleTick_marks_released {d : Category} (h : Released c raw p i)
    (hcat : category (codeAt (activeTable c p) i) = some d) :
    (sampleTick c raw p).dirty.get d = true := by
  obtain ⟨-, -, -, hdirty⟩ := sampleLevels_spec c raw p hl hc
  exact (sampleTick_dirty c raw p d).mpr
    (.inl ((hdirty d).mpr (.inr (.inr (.inr (.inl ⟨i, h, hcat⟩))))))

end

/-- Settles O32: a generic input is released or debounced, and the multifire input is neither. -/
theorem levelsAfterSample : Obligations.LevelsAfterSample := by
  intro s t raw h hl hc
  rw [pan_of_exec_sampleTick h]
  refine ⟨fun i hlt hgeneric => ?_, fun m hm => sampleTick_multifire_untouched hl hc hm⟩
  have hi : i ∈ genericInputs s.cfg := mem_genericInputs.mpr ⟨hlt, hgeneric⟩
  intro old n accepted lv released
  have hreleased : Released s.cfg raw s.pan i ↔ released := by
    rw [released_iff hi, levelAfter_eq]
  refine ⟨fun hr => sampleTick_of_released hl hc (hreleased.mpr hr), fun hr => ?_⟩
  obtain ⟨hlevel, hcnt⟩ := sampleTick_debounced hl hc hi (mt hreleased.mp hr)
  rw [hlevel, hcnt, levelAfter_eq, cntAfter_toNat]
  exact ⟨rfl, rfl⟩

/-- Settles O33: the marks of phases 1 to 3 (R145 to R148, R153), then those of phase 4 (R157). -/
theorem sampleTickMarksExactly : Obligations.SampleTickMarksExactly := by
  intro s t raw h hl hc
  rw [pan_of_exec_sampleTick h]
  intro c tOld tNew generic accepted lv shifted remap cat
  obtain ⟨-, -, -, hdirty⟩ := sampleLevels_spec c raw s.pan hl hc
  obtain ⟨-, -, hshift, htable, -⟩ := sampleTick_levels c raw s.pan
  obtain ⟨-, -, -, hmfS⟩ := sampleTick_frame c raw s.pan
  have haccepted : ∀ i, (i ∈ genericInputs c ∧
      marksOnAccept c (activeTable c s.pan) raw s.pan cat i = true) ↔
      generic i ∧ accepted i ∧ category (codeAt tOld i) = some cat := fun i => by
    simp only [marksOnAccept, mem_genericInputs, Bool.and_eq_true, decide_eq_true_eq, accepts_iff]
    tauto
  have hreleased : ∀ i, Released c raw s.pan i ↔
      generic i ∧ shifted ∧ remap i ∧ lv i = true := fun i => by
    by_cases hi : i ∈ genericInputs c
    · obtain ⟨hlt, hgeneric⟩ := mem_genericInputs.mp hi
      rw [released_iff hi, levelAfter_eq]
      tauto
    · exact ⟨fun ⟨_, ⟨hlt, hgeneric, _⟩, _⟩ => absurd (mem_genericInputs.mpr ⟨hlt, hgeneric⟩) hi,
        fun ⟨⟨hlt, hgeneric, _⟩, _⟩ => absurd (mem_genericInputs.mpr ⟨hlt, hgeneric⟩) hi⟩
  rw [sampleTick_dirty, hdirty]
  simp only [haccepted, hreleased, ← hshift, ← htable, ← hmfS, remapped, decide_eq_true_eq, or_assoc,
    and_assoc]
  exact Iff.rfl


/-! ### The multifire machine (R150 to R152) -/

theorem Config.wf_latency {c : Config} (h : c.wf = true) : 1 ≤ c.mfLatency ∧ c.mfLatency ≤ 255 := by
  simp only [Config.wf, Config.panelWf, Bool.and_eq_true, decide_eq_true_eq] at h
  omega

theorem Config.wf_burstLength {c : Config} (h : c.wf = true) : c.mfCount * c.mfCycle ≤ 65535 := by
  simp only [Config.wf, Config.panelWf, Bool.and_eq_true, decide_eq_true_eq] at h
  omega

section

variable {c : Config} {p : Panel}

theorem mfGateStep_released : mfGateStep c false p = { p with mfGate := 0#8 } := if_pos rfl

/-- A held input that no burst and no finished gate stops is counted, and the last count starts the burst
(R151). -/
theorem mfGateStep_counting (hwf : c.wf = true) (hburst : p.mfBurst.toNat = 0)
    (hgate : p.mfGate.toNat < c.mfLatency) :
    (mfGateStep c true p).mfGate.toNat = p.mfGate.toNat + 1 ∧
    (mfGateStep c true p).mfBurst.toNat =
      if p.mfGate.toNat + 1 = c.mfLatency then c.mfCount * c.mfCycle else 0 := by
  have hlatency := Config.wf_latency hwf
  have hlength := Config.wf_burstLength hwf
  have hgate' : (p.mfGate + 1#8).toNat = p.mfGate.toNat + 1 := by
    rw [BitVec.toNat_add, show (1#8).toNat = 1 from rfl, Nat.mod_eq_of_lt (by omega)]
  have hcounts : p.mfBurst = 0#16 ∧ p.mfGate.toNat < c.mfLatency :=
    ⟨BitVec.eq_of_toNat_eq hburst, hgate⟩
  simp only [mfGateStep, Bool.true_eq_false, if_false, if_pos hcounts]
  split
  · refine ⟨hgate', ?_⟩
    rw [BitVec.toNat_ofNat, burstLength, Nat.mod_eq_of_lt (by omega)]
  · exact ⟨hgate', hburst⟩

theorem mfGateStep_waiting (h : ¬ (p.mfBurst.toNat = 0 ∧ p.mfGate.toNat < c.mfLatency)) :
    mfGateStep c true p = p := by
  have hno : ¬ (p.mfBurst = 0#16 ∧ p.mfGate.toNat < c.mfLatency) :=
    fun ⟨hburst, hgate⟩ => h ⟨congrArg BitVec.toNat hburst, hgate⟩
  simp only [mfGateStep, Bool.true_eq_false, if_false, if_neg hno]

theorem mfBurstStep_toNat (p : Panel) : (mfBurstStep p).mfBurst.toNat = p.mfBurst.toNat - 1 := by
  unfold mfBurstStep
  split
  · rename_i h
    rw [h]
    rfl
  · bv_omega

/-- The gate and the burst counter after MF_GATE, as numbers (R151). -/
theorem mfGateStep_toNat (hwf : c.wf = true) (held : Bool) (p : Panel) :
    let counts := held = true ∧ p.mfBurst.toNat = 0 ∧ p.mfGate.toNat < c.mfLatency
    let gate := if held = false then 0
      else if counts then p.mfGate.toNat + 1 else p.mfGate.toNat
    (mfGateStep c held p).mfGate.toNat = gate ∧
    (mfGateStep c held p).mfBurst.toNat =
      if counts ∧ gate = c.mfLatency then c.mfCount * c.mfCycle else p.mfBurst.toNat := by
  intro counts gate
  cases held with
  | false =>
    rw [mfGateStep_released]
    exact ⟨rfl, (if_neg fun h => absurd h.1.1 Bool.false_ne_true).symm⟩
  | true =>
    by_cases h : p.mfBurst.toNat = 0 ∧ p.mfGate.toNat < c.mfLatency
    · obtain ⟨hgate, hburst⟩ := mfGateStep_counting hwf h.1 h.2
      have hcounts : counts := ⟨rfl, h⟩
      have hvalue : gate = p.mfGate.toNat + 1 := if_pos hcounts
      rw [hgate, hburst, hvalue]
      exact ⟨rfl, if_congr (and_iff_right hcounts).symm rfl h.1.symm⟩
    · have hcounts : ¬ counts := fun hc => h hc.2
      rw [mfGateStep_waiting h]
      exact ⟨(if_neg hcounts).symm, (if_neg fun hc => hcounts hc.1).symm⟩

/-- The multifire machine after a sample, by the burst counter b that MF_GATE leaves (R151, R152). -/
theorem sampleTick_multifire (c : Config) (raw : RawIn) (p : Panel) {m : Nat}
    (hm : multifireAt c = some m) :
    let gated := mfGateStep c (raw.getLsbD m) p
    (sampleTick c raw p).mfGate = gated.mfGate ∧
    (sampleTick c raw p).mfBurst.toNat = gated.mfBurst.toNat - 1 ∧
    (sampleTick c raw p).mfS = decide (0 < gated.mfBurst.toNat ∧
      (c.mfCount * c.mfCycle - gated.mfBurst.toNat) % c.mfCycle < c.mfCycle / 2) := by
  intro gated
  obtain ⟨-, tgate, tburst, tmfS⟩ := sampleTick_frame c raw p
  obtain ⟨-, -, -, -, hsome, -⟩ := sampleLevels_frame c raw p
  obtain ⟨hS, hG, hB⟩ := hsome m hm
  refine ⟨tgate.trans hG, ?_, ?_⟩
  · rw [tburst, hB, mfBurstStep_toNat]
  · rw [tmfS, hS, syntheticLevel, burstLength, Bool.decide_and]

end

/-- Settles O35. -/
theorem multifireMachineStep : Obligations.MultifireMachineStep := by
  intro s t raw h
  have hwf := (exec_sampleTick_next.mp h).1
  rw [pan_of_exec_sampleTick h]
  refine ⟨fun hm => ?_, fun m hm => ?_⟩
  · obtain ⟨-, tgate, tburst, tmfS⟩ := sampleTick_frame s.cfg raw s.pan
    obtain ⟨-, -, -, hnone, -⟩ := sampleLevels_frame s.cfg raw s.pan
    obtain ⟨hS, hG, hB⟩ := hnone hm
    exact ⟨tgate.trans hG, tburst.trans hB, tmfS.trans hS⟩
  · intro total counts gate burst
    obtain ⟨hgate, hburst, hmfS⟩ := sampleTick_multifire s.cfg raw s.pan hm
    obtain ⟨hgated, hstarted⟩ := mfGateStep_toNat hwf (raw.getLsbD m) s.pan
    rw [hgate, hburst, hmfS, hgated, hstarted]
    exact ⟨rfl, rfl, rfl⟩

/-! ### A list of samples -/

/-- The Panel unit after these samples. -/
def samples (c : Config) (raws : List RawIn) (p : Panel) : Panel :=
  raws.foldl (fun q raw => sampleTick c raw q) p

theorem samples_take_succ (c : Config) (p : Panel) {raws : List RawIn} {n : Nat}
    (hn : n < raws.length) :
    samples c (raws.take (n + 1)) p = sampleTick c raws[n] (samples c (raws.take n) p) := by
  rw [samples, List.take_succ_eq_append_getElem hn, List.foldl_append]
  rfl

/-- The state after one SAMPLE_TICK (R158). -/
def State.sampled (s : State) (raw : RawIn) : State :=
  { s with pan := sampleTick s.cfg raw s.pan
           panDiag := sampleDiag s.cfg raw s.pan
           panOps := s.panOps + 1 }

theorem exec_sampleTick_sampled {raw : RawIn} {s t : State} :
    exec (.sampleTick raw) s = .next t ↔
      s.cfg.wf = true ∧ s.panStarted = true ∧ t = s.sampled raw :=
  exec_sampleTick_next

theorem runOps_samples (raws : List RawIn) {s : State} (hwf : s.cfg.wf = true)
    (hstarted : s.panStarted = true) :
    ∃ t, runOps (raws.map .sampleTick) s = .next t ∧ t.pan = samples s.cfg raws s.pan := by
  induction raws generalizing s with
  | nil => exact ⟨s, rfl, rfl⟩
  | cons raw raws ih =>
    have hexec := (exec_sampleTick_sampled (raw := raw)).mpr ⟨hwf, hstarted, rfl⟩
    obtain ⟨t, ht, hpan⟩ := ih (s := s.sampled raw) hwf hstarted
    refine ⟨t, ?_, hpan⟩
    rw [List.map_cons]
    unfold runOps
    rw [hexec]
    exact ht

theorem runOps_samples_pan {raws : List RawIn} {s t : State} (hwf : s.cfg.wf = true)
    (hstarted : s.panStarted = true) (h : runOps (raws.map .sampleTick) s = .next t) :
    t.pan = samples s.cfg raws s.pan := by
  obtain ⟨u, hu, hpan⟩ := runOps_samples raws hwf hstarted
  rw [hu, next_eq_next] at h
  rw [h, hpan]

/-! ### A held multifire input (R154) -/

/-- The synthetic level at sample n of a multifire input held from rest. -/
def burstLevel (c : Config) (n : Nat) : Bool :=
  decide (c.mfLatency ≤ n ∧ n < c.mfLatency + c.mfCount * c.mfCycle ∧
    (n - c.mfLatency) % c.mfCycle < c.mfCycle / 2)

/-- The multifire machine when its input has been held from rest for n samples. -/
structure HeldFor (c : Config) (n : Nat) (q : Panel) : Prop where
  gate : q.mfGate.toNat = min n c.mfLatency
  burst : q.mfBurst.toNat =
    if n < c.mfLatency then 0 else c.mfCount * c.mfCycle - 1 - (n - c.mfLatency)
  level : q.mfS = burstLevel c n

section

variable {c : Config} {m : Nat}

theorem HeldFor.rest (hwf : c.wf = true) {p : Panel} (hgate : p.mfGate = 0#8)
    (hburst : p.mfBurst = 0#16) (hmfS : p.mfS = false) : HeldFor c 0 p := by
  have hlatency : 0 < c.mfLatency := (Config.wf_latency hwf).1
  refine ⟨?_, ?_, ?_⟩
  · rw [hgate, Nat.zero_min]
    rfl
  · rw [hburst, if_pos hlatency]
    rfl
  · rw [hmfS, burstLevel, eq_comm, decide_eq_false_iff_not]
    omega

/-- One more sample: the gate counts up to MF_LATENCY, its last count starts the burst, and from then on
the burst runs down. -/
theorem HeldFor.sample (hwf : c.wf = true) (hm : multifireAt c = some m) {n : Nat} {q : Panel}
    (h : HeldFor c n q) {raw : RawIn} (hheld : raw.getLsbD m = true) :
    HeldFor c (n + 1) (sampleTick c raw q) := by
  obtain ⟨hgate, hburst, hmfS⟩ := sampleTick_multifire c raw q hm
  rw [hheld] at hgate hburst hmfS
  obtain ⟨hcount, hcycle⟩ := Config.wf_burst hwf
  have htotal : 0 < c.mfCount * c.mfCycle := Nat.mul_pos hcount (by omega)
  have hg := h.gate
  have hb := h.burst
  by_cases hn : n < c.mfLatency
  · rw [if_pos hn] at hb
    obtain ⟨hgated, hstarted⟩ := mfGateStep_counting hwf hb (by omega)
    by_cases hlast : n + 1 = c.mfLatency
    · rw [if_pos (by omega)] at hstarted
      rw [hstarted] at hburst hmfS
      refine ⟨by rw [hgate, hgated]; omega, by rw [hburst, if_neg (by omega)]; omega, ?_⟩
      rw [hmfS, burstLevel, hlast, Nat.sub_self, Nat.sub_self]
      exact decide_eq_decide.mpr ⟨fun ⟨_, hhalf⟩ => ⟨le_rfl, by omega, hhalf⟩,
        fun ⟨_, _, hhalf⟩ => ⟨htotal, hhalf⟩⟩
    · rw [if_neg (by omega)] at hstarted
      rw [hstarted] at hburst hmfS
      refine ⟨by rw [hgate, hgated]; omega, by rw [hburst, if_pos (by omega)], ?_⟩
      rw [hmfS, burstLevel]
      exact decide_eq_decide.mpr ⟨fun ⟨hrunning, _⟩ => absurd hrunning (Nat.lt_irrefl 0),
        fun ⟨hbegun, _⟩ => absurd hbegun (by omega)⟩
  · rw [if_neg hn] at hb
    rw [mfGateStep_waiting (by omega)] at hgate hburst hmfS
    refine ⟨by rw [hgate]; omega, by rw [hburst, hb, if_neg (by omega)]; omega, ?_⟩
    rw [hmfS, burstLevel]
    refine decide_eq_decide.mpr ?_
    by_cases hrunning : 0 < q.mfBurst.toNat
    · have hposition : c.mfCount * c.mfCycle - q.mfBurst.toNat = n + 1 - c.mfLatency := by omega
      rw [hposition]
      exact ⟨fun ⟨_, hhalf⟩ => ⟨by omega, by omega, hhalf⟩, fun ⟨_, _, hhalf⟩ => ⟨hrunning, hhalf⟩⟩
    · exact ⟨fun ⟨hpos, _⟩ => absurd hpos hrunning, fun ⟨_, hlt, _⟩ => absurd hlt (by omega)⟩

theorem HeldFor.samples (hwf : c.wf = true) (hm : multifireAt c = some m) {p : Panel}
    (h : HeldFor c 0 p) {raws : List RawIn} (hheld : ∀ r ∈ raws, r.getLsbD m = true) {n : Nat}
    (hn : n ≤ raws.length) : HeldFor c n (Machine.samples c (raws.take n) p) := by
  induction n with
  | zero => exact h
  | succ n ih =>
    rw [samples_take_succ c p hn]
    exact (ih (Nat.le_of_succ_le hn)).sample hwf hm (hheld _ (List.getElem_mem hn))

end

/-- Settles O36: the machine's invariant after all the samples. -/
theorem burstLaw : Obligations.BurstLaw := by
  intro raws s m hwf hstarted hm hgate hburst hmfS hheld
  obtain ⟨t, ht, hpan⟩ := runOps_samples raws hwf hstarted
  have hrest := HeldFor.rest hwf hgate hburst hmfS
  have hend := hrest.samples hwf hm hheld (Nat.le_refl _)
  rw [List.take_length, ← hpan] at hend
  exact ⟨t, ht, hend.level⟩

/-! #### The presses and releases of a burst -/

/-- The residue of the next number: it wraps round or goes up by one. -/
theorem succ_mod_cases (j : Nat) {k : Nat} (hk : 0 < k) :
    ((j + 1) % k = 0 ∧ j % k = k - 1) ∨ ((j + 1) % k = j % k + 1 ∧ j % k + 1 < k) := by
  have hlt := Nat.mod_lt j hk
  by_cases h : j % k + 1 = k
  · left
    rw [← Nat.mod_add_mod, h, Nat.mod_self]
    omega
  · right
    rw [← Nat.mod_add_mod, Nat.mod_eq_of_lt (by omega)]
    omega

/-- Index i is position r of one of the k cycles that begin at a. -/
def atPosition (a k cycle r i : Nat) : Bool :=
  decide (a ≤ i ∧ i < a + k * cycle ∧ (i - a) % cycle = r)

/-- Each cycle has its position r once. -/
theorem countP_atPosition {a k cycle r n : Nat} (hr : r < cycle) (hn : a + k * cycle ≤ n) :
    (List.range n).countP (atPosition a k cycle r) = k := by
  obtain ⟨e, rfl⟩ := Nat.exists_eq_add_of_le hn
  have hbefore : (List.range a).countP (atPosition a k cycle r) = 0 :=
    List.countP_eq_zero.mpr fun i hi hat => by
      have hlt := List.mem_range.mp hi
      have hle := (of_decide_eq_true hat).1
      omega
  have hafter : (List.range e).countP (atPosition a k cycle r ∘ (a + k * cycle + ·)) = 0 :=
    List.countP_eq_zero.mpr fun j _ hat => by
      have hlt : a + k * cycle + j < a + k * cycle := (of_decide_eq_true hat).2.1
      omega
  have hduring : (List.range (k * cycle)).countP (atPosition a k cycle r ∘ (a + ·)) = k :=
    calc (List.range (k * cycle)).countP (atPosition a k cycle r ∘ (a + ·))
        = Nat.count (· ≡ r [MOD cycle]) (k * cycle) :=
          List.countP_congr fun j hj => by
            simp only [Function.comp_apply, atPosition, decide_eq_true_eq, Nat.add_sub_cancel_left,
              Nat.ModEq, Nat.mod_eq_of_lt hr, Nat.le_add_right, Nat.add_lt_add_iff_left,
              List.mem_range.mp hj, true_and]
      _ = k := by
          rw [Nat.count_modEq_card _ (by omega), Nat.mul_mod_left, if_neg (Nat.not_lt_zero _),
            Nat.mul_div_cancel _ (by omega), Nat.add_zero]
  rw [List.range_add, List.range_add, List.countP_append, List.countP_append, List.countP_map,
    List.countP_map, hbefore, hduring, hafter, Nat.zero_add, Nat.add_zero]

theorem burstLevel_early {c : Config} {n : Nat} (hn : n < c.mfLatency) : burstLevel c n = false :=
  decide_eq_false fun h => absurd h.1 (Nat.not_le.mpr hn)

/-- The burst begins right after sample MF_LATENCY - 1: j samples later its position is j. -/
theorem burstLevel_at {c : Config} (hwf : c.wf = true) (j : Nat) :
    burstLevel c (c.mfLatency - 1 + j + 1) =
      decide (j < c.mfCount * c.mfCycle ∧ j % c.mfCycle < c.mfCycle / 2) := by
  have hlatency := (Config.wf_latency hwf).1
  rw [burstLevel, show c.mfLatency - 1 + j + 1 = c.mfLatency + j by omega, Nat.add_sub_cancel_left]
  exact decide_eq_decide.mpr ⟨fun ⟨_, hlt, hhalf⟩ => ⟨by omega, hhalf⟩,
    fun ⟨hlt, hhalf⟩ => ⟨by omega, by omega, hhalf⟩⟩

/-- Between two samples the level rises at the first position of a cycle and falls at its middle. -/
theorem burstLevel_edges {c : Config} (hwf : c.wf = true) (n : Nat) :
    ((!burstLevel c n && burstLevel c (n + 1)) = true ↔
      atPosition (c.mfLatency - 1) c.mfCount c.mfCycle 0 n = true) ∧
    ((burstLevel c n && !burstLevel c (n + 1)) = true ↔
      atPosition (c.mfLatency - 1) c.mfCount c.mfCycle (c.mfCycle / 2) n = true) := by
  have hlatency := (Config.wf_latency hwf).1
  obtain ⟨hcount, hcycle⟩ := Config.wf_burst hwf
  have htotal : 0 < c.mfCount * c.mfCycle := Nat.mul_pos hcount (by omega)
  simp only [Bool.and_eq_true, Bool.not_eq_true', atPosition, decide_eq_true_eq]
  by_cases hearly : n + 1 < c.mfLatency
  · rw [burstLevel_early hearly, burstLevel_early (Nat.lt_of_succ_lt hearly)]
    simp only [Bool.false_eq_true, and_false, false_and, false_iff]
    omega
  · obtain ⟨j, rfl⟩ := Nat.exists_eq_add_of_le (show c.mfLatency - 1 ≤ n by omega)
    rw [burstLevel_at hwf, Nat.add_sub_cancel_left]
    cases j with
    | zero =>
      rw [Nat.add_zero, burstLevel_early (by omega), Nat.zero_mod]
      simp only [Bool.false_eq_true, true_and, and_true, false_and, false_iff, decide_eq_true_eq]
      omega
    | succ i =>
      have hend : i + 1 = c.mfCount * c.mfCycle → (i + 1) % c.mfCycle = 0 := fun h => by
        rw [h, Nat.mul_mod_left]
      have hmod := succ_mod_cases i (show 0 < c.mfCycle by omega)
      rw [← Nat.add_assoc, burstLevel_at hwf]
      simp only [decide_eq_true_eq, decide_eq_false_iff_not]
      omega

/-- Settles O37: the presses stand at the first positions of the MF_COUNT cycles, the releases at their
middles. -/
theorem heldMultifirePressesCountTimes : Obligations.HeldMultifirePressesCountTimes := by
  intro raws s m hwf hstarted hm hgate hburst hmfS hheld hlong on
  have hrest := HeldFor.rest hwf hgate hburst hmfS
  have hon : ∀ n, n ≤ raws.length → on n = burstLevel s.cfg n := fun n hn => by
    obtain ⟨t, ht, hpan⟩ := runOps_samples (raws.take n) hwf hstarted
    have hlevel := (hrest.samples hwf hm hheld hn).level
    simp only [on, ht]
    rw [hpan, hlevel]
  have hlatency := (Config.wf_latency hwf).1
  obtain ⟨-, hcycle⟩ := Config.wf_burst hwf
  have hroom : s.cfg.mfLatency - 1 + s.cfg.mfCount * s.cfg.mfCycle ≤ raws.length := by omega
  constructor
  · rw [← countP_atPosition (show 0 < s.cfg.mfCycle by omega) hroom]
    refine List.countP_congr fun n hn => ?_
    have hlt := List.mem_range.mp hn
    rw [hon n (Nat.le_of_lt hlt), hon (n + 1) hlt]
    exact (burstLevel_edges hwf n).1
  · rw [← countP_atPosition (show s.cfg.mfCycle / 2 < s.cfg.mfCycle by omega) hroom]
    refine List.countP_congr fun n hn => ?_
    have hlt := List.mem_range.mp hn
    rw [hon n (Nat.le_of_lt hlt), hon (n + 1) hlt]
    exact (burstLevel_edges hwf n).2

/-! ### A held generic input (R160) -/

/-- The number of samples at level v after which input i stands at v: none when it does already, else
what its count lacks of D, and one at least. -/
def settleTime (c : Config) (p : Panel) (i : Nat) (v : Bool) : Nat :=
  if p.levelAt i = v then 0 else max 1 (c.debounce - (p.cntAt i).toNat)

/-- Input i of the Panel q, n samples at level v after the Panel p: its count runs up to the accepted
change and is 0 from then on. -/
structure Settling (c : Config) (p : Panel) (i : Nat) (v : Bool) (n : Nat) (q : Panel) : Prop where
  level_length : q.level.length = c.nIn
  cnt_length : q.cnt.length = c.nIn
  level : q.levelAt i = if n < settleTime c p i v then p.levelAt i else v
  counting : n < settleTime c p i v → (q.cntAt i).toNat = (p.cntAt i).toNat + n
  settled : settleTime c p i v ≤ n → 0 < n → q.cntAt i = 0#7

section

variable {c : Config} {p q : Panel} {raw : RawIn} {i : Nat} {v : Bool} {n : Nat}

theorem settleTime_le (hwf : c.wf = true) : settleTime c p i v ≤ c.debounce := by
  have hD := Config.wf_debounce hwf
  unfold settleTime
  split <;> omega

/-- Counting up means that the level is still the other one. -/
theorem differs_of_lt_settleTime (h : n < settleTime c p i v) : p.levelAt i ≠ v := fun hv => by
  rw [settleTime, if_pos hv] at h
  exact absurd h (Nat.not_lt_zero n)

theorem Settling.start (hl : p.level.length = c.nIn) (hc : p.cnt.length = c.nIn) :
    Settling c p i v 0 p where
  level_length := hl
  cnt_length := hc
  level := by
    split
    · rfl
    · rename_i h
      by_contra hne
      rw [settleTime, if_neg hne] at h
      omega
  counting := fun _ => rfl
  settled := fun _ h => absurd h (Nat.lt_irrefl 0)

/-- While the input counts, its next sample is accepted exactly when the settle time is reached. -/
theorem Settling.accepts_iff (h : Settling c p i v n q) (hwf : c.wf = true)
    (hn : n < settleTime c p i v) (hraw : raw.getLsbD i = v) :
    accepts c raw i q = true ↔ settleTime c p i v = n + 1 := by
  have hD := Config.wf_debounce hwf
  have hne := differs_of_lt_settleTime hn
  rw [Machine.accepts_iff, h.level, if_pos hn, hraw, h.counting hn, and_iff_right hne.symm]
  rw [settleTime, if_neg hne] at hn ⊢
  omega

theorem Settling.sample (h : Settling c p i v n q) (hwf : c.wf = true) (hi : i ∈ genericInputs c)
    (hraw : raw.getLsbD i = v) (hshift : shiftOn c (sampleTick c raw q) = shiftOn c q) :
    Settling c p i v (n + 1) (sampleTick c raw q) := by
  have hkept : ¬ Released c raw q i := fun hr => ((released_iff hi).mp hr).1 hshift
  obtain ⟨hlevel, hcnt⟩ := sampleTick_debounced h.level_length h.cnt_length hi hkept
  obtain ⟨hlevels, hcnts⟩ := sampleTick_lengths (raw := raw) h.level_length h.cnt_length
  by_cases hn : n < settleTime c p i v
  · have hne := differs_of_lt_settleTime hn
    have hold : q.levelAt i = p.levelAt i := by rw [h.level, if_pos hn]
    have haccepts := h.accepts_iff hwf hn hraw
    by_cases hlast : settleTime c p i v = n + 1
    · exact {
        level_length := hlevels
        cnt_length := hcnts
        level := by rw [hlevel, levelAfter, if_pos (haccepts.mpr hlast), hraw, if_neg (by omega)]
        counting := fun hlt => by omega
        settled := fun _ _ => by rw [hcnt, cntAfter, if_pos (.inr (haccepts.mpr hlast))] }
    · have hrejects : ¬ accepts c raw i q = true := fun ha => hlast (haccepts.mp ha)
      have hbound := settleTime_le (p := p) (i := i) (v := v) hwf
      exact {
        level_length := hlevels
        cnt_length := hcnts
        level := by rw [hlevel, levelAfter, if_neg hrejects, hold, if_pos (by omega)]
        counting := fun _ => by
          have hD := Config.wf_debounce hwf
          have hcount := h.counting hn
          have hlow : (q.cntAt i).toNat + 1 < c.debounce := by
            rw [settleTime, if_neg hne] at hn hlast
            omega
          rw [hcnt, cntAfter, if_neg (not_or.mpr ⟨by rw [hraw, hold]; exact hne.symm, hrejects⟩),
            BitVec.toNat_ofNat]
          omega
        settled := fun hle => by omega }
  · have hold : q.levelAt i = v := by rw [h.level, if_neg hn]
    have hsame : raw.getLsbD i = q.levelAt i := hraw.trans hold.symm
    exact {
      level_length := hlevels
      cnt_length := hcnts
      level := by
        rw [hlevel, levelAfter_eq, if_neg fun ha => ha.1 hsame, hold, if_neg (by omega)]
      counting := fun hlt => by omega
      settled := fun _ _ => by rw [hcnt, cntAfter, if_pos (.inl hsame)] }

theorem Settling.samples (hwf : c.wf = true) (hl : p.level.length = c.nIn)
    (hc : p.cnt.length = c.nIn) (hi : i ∈ genericInputs c) {raws : List RawIn}
    (hheld : ∀ r ∈ raws, r.getLsbD i = v)
    (hshift : ∀ n, shiftOn c (Machine.samples c (raws.take n) p) = shiftOn c p)
    (hn : n ≤ raws.length) : Settling c p i v n (Machine.samples c (raws.take n) p) := by
  induction n with
  | zero => exact Settling.start hl hc
  | succ n ih =>
    have hnext := samples_take_succ c p hn
    rw [hnext]
    refine (ih (Nat.le_of_succ_le hn)).sample hwf hi (hheld _ (List.getElem_mem hn)) ?_
    rw [← hnext, hshift, hshift]

end

/-- The premise of R160 and R161 on shift changes, said of the samples. -/
theorem samples_unshifted {s : State} {raws : List RawIn} (hwf : s.cfg.wf = true)
    (hstarted : s.panStarted = true)
    (h : ∀ n u, runOps ((raws.take n).map .sampleTick) s = .next u →
      shiftOn s.cfg u.pan = shiftOn s.cfg s.pan) (n : Nat) :
    shiftOn s.cfg (samples s.cfg (raws.take n) s.pan) = shiftOn s.cfg s.pan := by
  obtain ⟨u, hu, hpan⟩ := runOps_samples (raws.take n) hwf hstarted
  rw [← hpan]
  exact h n u hu

/-- Settles O40: the settle time is the sample of the one accepted change. -/
theorem debounceIdempotence : Obligations.DebounceIdempotence := by
  intro raws s i v hwf hstarted hl hc hlt hgeneric _ hheld hlong hnoshift
  have hi : i ∈ genericInputs s.cfg := mem_genericInputs.mpr ⟨hlt, hgeneric⟩
  have hsettling : ∀ n, n ≤ raws.length →
      Settling s.cfg s.pan i v n (samples s.cfg (raws.take n) s.pan) := fun n hn =>
    Settling.samples hwf hl hc hi hheld (samples_unshifted hwf hstarted hnoshift) hn
  obtain ⟨t, ht, hpan⟩ := runOps_samples raws hwf hstarted
  have hend := hsettling raws.length (Nat.le_refl _)
  rw [List.take_length, ← hpan] at hend
  have hdone : settleTime s.cfg s.pan i v ≤ raws.length := (settleTime_le hwf).trans hlong
  have hlevel : t.pan.levelAt i = v := by rw [hend.level, if_neg (Nat.not_lt.mpr hdone)]
  have hpos : 0 < raws.length := (Config.wf_debounce hwf).1.trans hlong
  refine ⟨t, ht, hlevel, hend.settled hdone hpos, fun raw hraw => ?_,
    settleTime s.cfg s.pan i v, fun n u hn hu => ?_⟩
  · exact Bool.eq_false_iff.mpr fun ha => (accepts_iff.mp ha).1 (hraw.trans hlevel.symm)
  · rw [runOps_samples_pan hwf hstarted hu]
    exact (hsettling n hn).level

/-! ### A held key and the shift overlay (R161) -/

theorem category_of_func {code : KeyCode} {f : Function} (h : func code = some f) :
    category code = some f.category := by
  rw [category, h]
  rfl

section

variable {c : Config} {p : Panel} {raw : RawIn} {i : Nat}

/-- A held input whose key the shift change takes away is released at once: by the cleanup, or by its own
accepted change (R147, R142). -/
theorem sampleTick_releases_remapped (hl : p.level.length = c.nIn) (hc : p.cnt.length = c.nIn)
    (hi : i ∈ genericInputs c) (hshift : shiftAt c ≠ some i) (hheld : p.levelAt i = true)
    (hchanged : shiftOn c (sampleTick c raw p) ≠ shiftOn c p)
    (hremapped : func (codeAt (activeTable c p) i) ≠
      func (codeAt (activeTable c (sampleTick c raw p)) i))
    {d : Category} (hcat : category (codeAt (activeTable c p) i) = some d) :
    (sampleTick c raw p).levelAt i = false ∧ (sampleTick c raw p).cntAt i = 0#7 ∧
    (sampleTick c raw p).dirty.get d = true := by
  by_cases hlevel : levelAfter c raw i p = true
  · have hreleased := (released_iff hi).mpr ⟨hchanged, hshift, hremapped, hlevel⟩
    obtain ⟨hlow, hcnt⟩ := sampleTick_of_released hl hc hreleased
    exact ⟨hlow, hcnt, sampleTick_marks_released hl hc hreleased hcat⟩
  · have hkept : ¬ Released c raw p i := fun hr => by
      obtain ⟨-, -, -, hr⟩ := (released_iff hi).mp hr
      exact hlevel hr
    obtain ⟨hlow, hcnt⟩ := sampleTick_debounced hl hc hi hkept
    have haccepts : accepts c raw i p = true := by
      by_contra ha
      exact hlevel (by rw [levelAfter, if_neg ha, hheld])
    refine ⟨by rw [hlow]; exact Bool.eq_false_iff.mpr hlevel, ?_,
      sampleTick_marks_accepted hl hc hi hshift haccepts hcat⟩
    rw [hcnt, cntAfter, if_pos (.inr haccepts)]

/-- A released input at rest, held for D samples without a shift change, is pressed again and marks its
category under the table in force (R142, R145). -/
theorem samples_press (hwf : c.wf = true) (hl : p.level.length = c.nIn) (hc : p.cnt.length = c.nIn)
    (hi : i ∈ genericInputs c) (hnot : shiftAt c ≠ some i) (hlow : p.levelAt i = false)
    (hcnt : p.cntAt i = 0#7) {raws : List RawIn} (hlen : raws.length = c.debounce)
    (hheld : ∀ r ∈ raws, r.getLsbD i = true)
    (hshift : ∀ n, shiftOn c (samples c (raws.take n) p) = shiftOn c p)
    {d : Category} (hcat : category (codeAt (activeTable c p) i) = some d) :
    (samples c raws p).levelAt i = true ∧ (samples c raws p).dirty.get d = true := by
  have hD := Config.wf_debounce hwf
  have htime : settleTime c p i true = c.debounce := by
    rw [settleTime, hlow, if_neg Bool.false_ne_true, hcnt, show (0#7).toNat = 0 from rfl]
    omega
  obtain ⟨n, hn⟩ := Nat.exists_eq_add_of_le' hD.1
  have hlt : n < raws.length := by omega
  have hbefore := Settling.samples hwf hl hc hi hheld hshift (Nat.le_of_lt hlt)
  have hafter := Settling.samples hwf hl hc hi hheld hshift (Nat.le_refl _)
  have hlast : samples c raws p = sampleTick c raws[n] (samples c (raws.take n) p) := by
    rw [← samples_take_succ c p hlt, ← hn, ← hlen, List.take_length]
  rw [List.take_length] at hafter
  refine ⟨by rw [hafter.level, if_neg (by omega)], ?_⟩
  have haccepts : accepts c raws[n] i (samples c (raws.take n) p) = true :=
    (hbefore.accepts_iff hwf (by omega) (hheld _ (List.getElem_mem hlt))).mpr (htime.trans hn)
  rw [hlast]
  refine sampleTick_marks_accepted hbefore.level_length hbefore.cnt_length hi hnot haccepts ?_
  rw [table_congr (hshift n), hcat]

end

/-- Settles O41: the release at the shift change, then the press under the new table. -/
theorem shiftOverlayCorrectness : Obligations.ShiftOverlayCorrectness := by
  intro s t raw i k1 k2 h hl hc hlt hgeneric hnot hheld hchanged hk1 hk2 hne
  obtain ⟨hwf, hstarted, rfl⟩ := exec_sampleTick_sampled.mp h
  have hi : i ∈ genericInputs s.cfg := mem_genericInputs.mpr ⟨hlt, hgeneric⟩
  have hremapped : func (codeAt (activeTable s.cfg s.pan) i) ≠
      func (codeAt (activeTable s.cfg (sampleTick s.cfg raw s.pan)) i) := fun heq =>
    hne (Option.some.inj (hk1.symm.trans (heq.trans hk2)))
  obtain ⟨hlow, hcnt, hdirty⟩ :=
    sampleTick_releases_remapped hl hc hi hnot hheld hchanged hremapped (category_of_func hk1)
  obtain ⟨hlevels, hcnts⟩ := sampleTick_lengths (raw := raw) hl hc
  refine ⟨hlow, hdirty, fun hactive => ?_, fun raws hlen hraws hnoshift => ?_⟩
  · obtain ⟨j, hj, hpressed, hfunc⟩ := active_iff.mp hactive
    refine ⟨j, fun hji => hne ?_, hj, hpressed, hfunc⟩
    rw [hji] at hfunc
    exact Option.some.inj (hfunc.symm.trans hk2)
  · obtain ⟨u, hu, hpan⟩ := runOps_samples raws (s := s.sampled raw) hwf hstarted
    refine ⟨u, hu, ?_⟩
    rw [hpan]
    exact samples_press hwf hlevels hcnts hi hnot hlow hcnt hlen hraws
      (samples_unshifted (s := s.sampled raw) hwf hstarted hnoshift) (category_of_func hk2)

end Sys2Proof.Machine

/-! PROOFS. The family 43_panel_reports.md: which category GET_REPORT reports, the bytes of each report, and
that the round-robin serves every joystick (R170 to R183). -/

namespace Sys2Proof.Machine

/-! ### The categories in the order of arbitration (R171) -/

/-- The place of a category in the order of R171; the four joysticks share the first. -/
def Category.rank : Category → Nat
  | .mouse => 1
  | .keyboard => 2
  | .consumer => 3
  | _ => 0

theorem Category.rank_joystick (j : BitVec 2) : (Category.joystick j).rank = 0 := by
  revert j; decide

/-- Every category is a joystick or one of the other three. -/
theorem Category.joystick_or (d : Category) :
    (∃ j, d = Category.joystick j) ∨ d = .mouse ∨ d = .keyboard ∨ d = .consumer := by
  cases d with
  | joystick1 => exact .inl ⟨0#2, rfl⟩
  | joystick2 => exact .inl ⟨1#2, rfl⟩
  | joystick3 => exact .inl ⟨2#2, rfl⟩
  | joystick4 => exact .inl ⟨3#2, rfl⟩
  | mouse => exact .inr (.inl rfl)
  | keyboard => exact .inr (.inr (.inl rfl))
  | consumer => exact .inr (.inr (.inr rfl))

/-! ### The report of one category (R170, R173) -/

section

variable {c : Config} {p : Panel}

/-- What GET_REPORT does once arbitration has picked a category (R170). -/
def emit (c : Config) (p : Panel) : Category → Emission
  | .keyboard => emitKeyboard c p
  | .consumer => emitConsumer c p
  | .joystick1 => emitJoystick c p 0#2
  | .joystick2 => emitJoystick c p 1#2
  | .joystick3 => emitJoystick c p 2#2
  | .joystick4 => emitJoystick c p 3#2
  | .mouse => emitMouse c p

@[simp] theorem emit_joystick (c : Config) (p : Panel) (j : BitVec 2) :
    emit c p (Category.joystick j) = emitJoystick c p j := by
  obtain ⟨rfl, hj⟩ | ⟨rfl, hj⟩ | ⟨rfl, hj⟩ | ⟨rfl, hj⟩ := Category.joystick_eq j <;> rw [hj] <;> rfl

/-- A report begins with its category's identifier and has its category's length (R79, R83). -/
theorem emit_answer (c : Config) (p : Panel) (cat : Category) :
    ∃ bytes, (emit c p cat).answer = .report bytes ∧ bytes.head? = some (reportIdOf c cat) ∧
      bytes.length = reportLength cat := by
  cases cat with
  | keyboard => exact ⟨_, rfl, rfl, keyboardBytes_length c p⟩
  | _ => exact ⟨_, rfl, rfl, rfl⟩

/-- GET_REPORT writes the dirty bits, last_joy and delta only (R173). -/
theorem emit_frame (c : Config) (p : Panel) (cat : Category) :
    (emit c p cat).panel = { p with dirty := (emit c p cat).panel.dirty
                                    lastJoy := (emit c p cat).panel.lastJoy
                                    delta := (emit c p cat).panel.delta } := by
  cases cat <;> rfl

theorem emit_dirty (c : Config) (p : Panel) (cat : Category) :
    (emit c p cat).panel.dirty = p.dirty.set cat false := by
  cases cat <;> rfl

theorem emit_dirty_get (c : Config) (p : Panel) (cat d : Category) :
    (emit c p cat).panel.dirty.get d = (decide (d ≠ cat) && p.dirty.get d) := by
  rw [emit_dirty, Dirty.get_set]
  by_cases h : d = cat <;> simp [h]

theorem emit_delta (c : Config) (p : Panel) (cat : Category) :
    (emit c p cat).panel.delta = if cat = .mouse then { x := 0#8, y := 0#8 } else p.delta := by
  cases cat <;> rfl

theorem emit_lastJoy_of_not_joystick {cat : Category} (h : ∀ j, cat ≠ Category.joystick j) :
    (emit c p cat).panel.lastJoy = p.lastJoy := by
  obtain ⟨j, rfl⟩ | rfl | rfl | rfl := cat.joystick_or
  · exact absurd rfl (h j)
  · rfl
  · rfl
  · rfl

end

/-! ### Arbitration (R171, R178) -/

/-- The category is dirty and no dirty category stands higher (R171). -/
def Dirty.Highest (d : Dirty) (cat : Category) : Prop :=
  d.get cat = true ∧ ∀ other, d.get other = true → cat.rank ≤ other.rank

theorem Dirty.not_joystick {d : Dirty} (hjoy : ∀ j, d.get (Category.joystick j) = false)
    {cat : Category} (h : d.get cat = true) : cat = .mouse ∨ cat = .keyboard ∨ cat = .consumer := by
  obtain ⟨j, rfl⟩ | hother := cat.joystick_or
  · exact absurd h (Bool.eq_false_iff.mp (hjoy j))
  · exact hother

/-- GET_REPORT reports a dirty category that stands highest, or finds nothing dirty. -/
theorem getReport_picks (c : Config) (p : Panel) :
    (∃ cat, p.dirty.Highest cat ∧ getReport c p = emit c p cat) ∨
    ((∀ d, p.dirty.get d = false) ∧
      getReport c p = { answer := .noReport, panel := p, diag := [] }) := by
  obtain ⟨j, hj, hr⟩ | ⟨hnone, hmouse, hr⟩ | ⟨hnone, hmouse, hkeyboard, hr⟩ |
    ⟨hnone, hmouse, hkeyboard, hconsumer, hr⟩ | ⟨hnone, hmouse, hkeyboard, hconsumer, hr⟩ :=
    getReport_cases c p
  · refine .inl ⟨Category.joystick j, ⟨(pickJoystick_some hj).1, fun d _ => ?_⟩, ?_⟩
    · rw [Category.rank_joystick]
      exact Nat.zero_le _
    · rw [hr, emit_joystick]
  all_goals have hjoy := pickJoystick_none.mp hnone
  · refine .inl ⟨.mouse, ⟨hmouse, fun d hd => ?_⟩, hr⟩
    obtain rfl | rfl | rfl := Dirty.not_joystick hjoy hd <;> decide
  · refine .inl ⟨.keyboard, ⟨hkeyboard, fun d hd => ?_⟩, hr⟩
    obtain rfl | rfl | rfl := Dirty.not_joystick hjoy hd
    · exact absurd hd (Bool.eq_false_iff.mp hmouse)
    all_goals decide
  · refine .inl ⟨.consumer, ⟨hconsumer, fun d hd => ?_⟩, hr⟩
    obtain rfl | rfl | rfl := Dirty.not_joystick hjoy hd
    · exact absurd hd (Bool.eq_false_iff.mp hmouse)
    · exact absurd hd (Bool.eq_false_iff.mp hkeyboard)
    · decide
  · refine .inr ⟨fun d => ?_, hr⟩
    obtain ⟨j, rfl⟩ | rfl | rfl | rfl := d.joystick_or
    exacts [hjoy j, hmouse, hkeyboard, hconsumer]

section

variable {c : Config} {p : Panel}

theorem getReport_of_clean (h : ∀ d, p.dirty.get d = false) :
    getReport c p = { answer := .noReport, panel := p, diag := [] } := by
  obtain ⟨cat, ⟨hcat, -⟩, -⟩ | ⟨-, hr⟩ := getReport_picks c p
  · exact absurd hcat (Bool.eq_false_iff.mp (h cat))
  · exact hr

theorem getReport_of_dirty {d : Category} (h : p.dirty.get d = true) :
    ∃ cat, p.dirty.Highest cat ∧ getReport c p = emit c p cat := by
  obtain hpicked | ⟨hclean, -⟩ := getReport_picks c p
  · exact hpicked
  · exact absurd h (Bool.eq_false_iff.mp (hclean d))

/-- A dirty category that stands higher than every other dirty one is the one reported. -/
theorem getReport_of_highest {cat : Category} (h : p.dirty.get cat = true)
    (hothers : ∀ d, p.dirty.get d = true → d = cat ∨ cat.rank < d.rank) :
    getReport c p = emit c p cat := by
  obtain ⟨picked, ⟨hdirty, hhighest⟩, hr⟩ := getReport_of_dirty (c := c) h
  obtain rfl | hlt := hothers picked hdirty
  · exact hr
  · exact absurd (hhighest cat h) (Nat.not_le.mpr hlt)

theorem getReport_of_joystick {j : BitVec 2} (h : pickJoystick p = some j) :
    getReport c p = emitJoystick c p j := by
  unfold getReport
  rw [h]

end

/-- The state after GET_REPORT has emitted e (R170). -/
def State.reported (s : State) (e : Emission) : State :=
  { s with pan := e.panel, answer := e.answer, panDiag := e.diag, panOps := s.panOps + 1 }

theorem exec_getReport_reported {s t : State} :
    exec .getReport s = .next t ↔
      s.cfg.wf = true ∧ s.panStarted = true ∧ t = s.reported (getReport s.cfg s.pan) :=
  exec_getReport_next

theorem exec_getReport {s : State} (hwf : s.cfg.wf = true) (hstarted : s.panStarted = true) :
    exec .getReport s = .next (s.reported (getReport s.cfg s.pan)) :=
  exec_getReport_reported.mpr ⟨hwf, hstarted, rfl⟩

/-- Settles O42: with nothing dirty arbitration ends in NoReport. -/
theorem noReportChangesNothing : Obligations.NoReportChangesNothing := by
  intro s hwf hstarted hclean
  rw [exec_getReport hwf hstarted, getReport_of_clean hclean]
  rfl

/-- Settles O43: the picked category's report, and what each field of it says. -/
theorem reportClearsItsCategory : Obligations.ReportClearsItsCategory := by
  intro s hwf hstarted ⟨d, hd⟩
  obtain ⟨cat, ⟨hcat, -⟩, hr⟩ := getReport_of_dirty (c := s.cfg) hd
  obtain ⟨bytes, hanswer, hhead, hlength⟩ := emit_answer s.cfg s.pan cat
  refine ⟨cat, bytes, (emit s.cfg s.pan cat).panel, (emit s.cfg s.pan cat).diag, ?_, hcat, hhead,
    hlength, emit_dirty_get _ _ _, emit_frame _ _ _, fun hmouse => ?_, fun hmouse => ?_,
    fun j hj => ?_, emit_lastJoy_of_not_joystick⟩
  · rw [exec_getReport hwf hstarted, hr, State.reported, hanswer]
  · rw [emit_delta, if_pos hmouse]
  · rw [emit_delta, if_neg hmouse]
  · rw [hj, emit_joystick]
    rfl

/-- Settles O44: a report comes from a category that stands highest, since NoReport is none. -/
theorem categoryPriority : Obligations.CategoryPriority := by
  intro s t bytes hexec hbytes
  obtain ⟨-, -, rfl⟩ := exec_getReport_reported.mp hexec
  change (getReport s.cfg s.pan).answer = .report bytes at hbytes
  obtain ⟨cat, ⟨hcat, hhighest⟩, hr⟩ | ⟨-, hr⟩ := getReport_picks s.cfg s.pan
  · obtain ⟨reported, hanswer, hhead, -⟩ := emit_answer s.cfg s.pan cat
    rw [hr, hanswer, Answer.report.injEq] at hbytes
    exact ⟨cat, hcat, hbytes ▸ hhead, hhighest⟩
  · rw [hr] at hbytes
    cases hbytes

theorem repValid_iff {s : State} : repValid s = true ↔ ∃ bytes, s.answer = .report bytes := by
  unfold repValid
  cases s.answer <;> simp

theorem repPending_iff {s : State} : repPending s = true ↔ ∃ cat, s.pan.dirty.get cat = true :=
  Dirty.any_eq_true

/-- Settles O47: a dirty category has a report, and with none there is NoReport. -/
theorem repPendingMeansReport : Obligations.RepPendingMeansReport := by
  intro s
  refine ⟨repPending_iff, fun hwf hstarted => ⟨_, exec_getReport hwf hstarted, ?_⟩⟩
  rw [repPending_iff, repValid_iff]
  change _ ↔ ∃ bytes, (getReport s.cfg s.pan).answer = .report bytes
  obtain ⟨cat, ⟨hcat, -⟩, hr⟩ | ⟨hclean, hr⟩ := getReport_picks s.cfg s.pan
  · obtain ⟨bytes, hanswer, -⟩ := emit_answer s.cfg s.pan cat
    rw [hr]
    exact iff_of_true ⟨cat, hcat⟩ ⟨bytes, hanswer⟩
  · rw [hr]
    exact iff_of_false (fun ⟨cat, hcat⟩ => absurd hcat (Bool.eq_false_iff.mp (hclean cat))) nofun

/-! ### The joystick round-robin (R172) -/

/-- The search visits last_joy+1 to last_joy+4, and the last of these is last_joy itself. -/
theorem joystickOrder_eq (last : BitVec 2) :
    joystickOrder last = (List.range' 1 4).map fun k => last + BitVec.ofNat 2 k := by
  revert last; decide

section

variable {c : Config} {p : Panel} {j : BitVec 2}

/-- The round-robin picks the joystick k places after last_joy, for the first k at which one is dirty. -/
theorem pickJoystick_eq_some : pickJoystick p = some j ↔
    ∃ k, p.lastJoy + BitVec.ofNat 2 k = j ∧ 1 ≤ k ∧ k ≤ 4 ∧ p.dirty.get (Category.joystick j) = true ∧
      ∀ k', 1 ≤ k' → k' < k →
        p.dirty.get (Category.joystick (p.lastJoy + BitVec.ofNat 2 k')) = false := by
  rw [pickJoystick, joystickOrder_eq, List.find?_map, Option.map_eq_some_iff]
  refine exists_congr fun k => ?_
  rw [List.find?_range'_eq_some, List.mem_range'_1]
  simp only [Function.comp_apply, Bool.not_eq_true']
  constructor
  · rintro ⟨⟨hdirty, ⟨hpos, hlt⟩, hbefore⟩, rfl⟩
    exact ⟨rfl, hpos, Nat.lt_succ_iff.mp hlt, hdirty, hbefore⟩
  · rintro ⟨rfl, hpos, hle, hdirty, hbefore⟩
    exact ⟨⟨hdirty, ⟨hpos, Nat.lt_succ_iff.mpr hle⟩, hbefore⟩, rfl⟩

end

/-- Settles O45: the round-robin's pick is the joystick reported. -/
theorem joystickRoundRobin : Obligations.JoystickRoundRobin := by
  intro s k hwf hstarted hpos hle hdirty hbefore
  have hpick := pickJoystick_eq_some.mpr ⟨k, rfl, hpos, hle, hdirty, hbefore⟩
  refine ⟨joystickBytes s.cfg s.pan _, [], ?_, rfl⟩
  rw [exec_getReport hwf hstarted, getReport_of_joystick hpick]
  rfl

/-! ### No joystick starves (R172, R179) -/

/-- How many joysticks the search visits before joystick j. -/
def visitedBefore (last j : BitVec 2) : Nat := (j - last - 1#2).toNat

theorem visitedBefore_lt (last j : BitVec 2) : visitedBefore last j < 4 := BitVec.isLt _

theorem add_visitedBefore (last j : BitVec 2) :
    last + BitVec.ofNat 2 (visitedBefore last j + 1) = j := by
  revert last j; decide

/-- Serving a joystick that the search visits before j brings j nearer. -/
theorem visitedBefore_add {last j : BitVec 2} {k : Nat} (hpos : 1 ≤ k)
    (hle : k ≤ visitedBefore last j) :
    visitedBefore (last + BitVec.ofNat 2 k) j < visitedBefore last j := by
  have hk : k < 4 := Nat.lt_of_le_of_lt hle (visitedBefore_lt last j)
  revert hpos hle
  revert last j
  interval_cases k <;> decide

/-- While joystick j is dirty the round-robin picks it or a joystick that it visits before j. -/
theorem pickJoystick_of_dirty {p : Panel} {j : BitVec 2}
    (h : p.dirty.get (Category.joystick j) = true) :
    ∃ i, pickJoystick p = some i ∧
      (i = j ∨ (i ≠ j ∧ visitedBefore i j < visitedBefore p.lastJoy j)) := by
  cases hpick : pickJoystick p with
  | none => exact absurd h (Bool.eq_false_iff.mp (pickJoystick_none.mp hpick j))
  | some i =>
    refine ⟨i, rfl, or_iff_not_imp_left.mpr fun hne => ⟨hne, ?_⟩⟩
    obtain ⟨k, rfl, hpos, -, -, hbefore⟩ := pickJoystick_eq_some.mp hpick
    refine visitedBefore_add hpos (Nat.le_of_not_lt fun hlt => ?_)
    obtain hlt' | heq := Nat.lt_or_eq_of_le (Nat.succ_le_of_lt hlt)
    · have hclean := hbefore _ (Nat.le_add_left 1 _) hlt'
      rw [add_visitedBefore] at hclean
      exact absurd h (Bool.eq_false_iff.mp hclean)
    · rw [← heq, Nat.succ_eq_add_one, add_visitedBefore] at hne
      exact hne rfl

/-- The samples clear no dirty bit and leave last_joy alone (R158). -/
theorem samples_frame (c : Config) (raws : List RawIn) (p : Panel) :
    (samples c raws p).lastJoy = p.lastJoy ∧
    ∀ d, p.dirty.get d = true → (samples c raws p).dirty.get d = true := by
  induction raws generalizing p with
  | nil => exact ⟨rfl, fun _ h => h⟩
  | cons raw raws ih =>
    obtain ⟨hjoy, hdirty⟩ := ih (sampleTick c raw p)
    obtain ⟨htick, -⟩ := sampleTick_frame c raw p
    exact ⟨hjoy.trans htick, fun d h => hdirty d (sampleTick_keeps_dirty c raw p h)⟩

/-- The state after these samples and one report request (R172). -/
def State.polled (s : State) (raws : List RawIn) : State :=
  (raws.foldl State.sampled s).reported (getReport s.cfg (samples s.cfg raws s.pan))

theorem foldl_sampled_cfg (raws : List RawIn) (s : State) :
    (raws.foldl State.sampled s).cfg = s.cfg := by
  induction raws generalizing s with
  | nil => rfl
  | cons raw raws ih => exact ih (s.sampled raw)

theorem foldl_sampled_panStarted (raws : List RawIn) (s : State) :
    (raws.foldl State.sampled s).panStarted = s.panStarted := by
  induction raws generalizing s with
  | nil => rfl
  | cons raw raws ih => exact ih (s.sampled raw)

theorem runOps_poll (raws : List RawIn) {s : State} (hwf : s.cfg.wf = true)
    (hstarted : s.panStarted = true) : runOps (poll raws) s = .next (s.polled raws) := by
  induction raws generalizing s with
  | nil =>
    change runOps [.getReport] s = _
    unfold runOps
    rw [exec_getReport hwf hstarted]
    rfl
  | cons raw raws ih =>
    have hexec := (exec_sampleTick_sampled (raw := raw)).mpr ⟨hwf, hstarted, rfl⟩
    change runOps (.sampleTick raw :: poll raws) s = _
    unfold runOps
    rw [hexec]
    exact ih (s := s.sampled raw) hwf hstarted

theorem State.polled_cfg (s : State) (raws : List RawIn) : (s.polled raws).cfg = s.cfg :=
  foldl_sampled_cfg raws s

theorem State.polled_panStarted (s : State) (raws : List RawIn) :
    (s.polled raws).panStarted = s.panStarted :=
  foldl_sampled_panStarted raws s

/-- The last request was answered with the report of joystick j. -/
def Served (c : Config) (j : BitVec 2) (t : State) : Prop :=
  t.pan.lastJoy = j ∧ ∃ bytes, t.answer = .report bytes ∧
    bytes.head? = some (reportIdOf c (Category.joystick j))

/-- One poll serves a dirty joystick, or leaves it dirty and nearer to its turn. -/
theorem State.polled_serves (s : State) (raws : List RawIn) {j : BitVec 2}
    (h : s.pan.dirty.get (Category.joystick j) = true) :
    Served s.cfg j (s.polled raws) ∨
    ((s.polled raws).pan.dirty.get (Category.joystick j) = true ∧
      visitedBefore (s.polled raws).pan.lastJoy j < visitedBefore s.pan.lastJoy j) := by
  obtain ⟨hjoy, hdirty⟩ := samples_frame s.cfg raws s.pan
  have hj := hdirty _ h
  obtain ⟨i, hpick, hi⟩ := pickJoystick_of_dirty hj
  rw [State.polled, getReport_of_joystick hpick]
  obtain rfl | ⟨hne, hnearer⟩ := hi
  · exact .inl ⟨rfl, _, rfl, rfl⟩
  · refine .inr ⟨?_, hjoy ▸ hnearer⟩
    change ((samples s.cfg raws s.pan).clearDirty (Category.joystick i)).dirty.get _ = true
    rw [Panel.clearDirty_dirty, if_neg fun heq => hne (Category.joystick_inj heq).symm]
    exact hj

/-- The states after each of several polls, one after the other. -/
def State.polls (s : State) : List (List RawIn) → List State
  | [] => []
  | raws :: rest => s.polled raws :: (s.polled raws).polls rest

/-- By induction on the polls: each brings the joystick's turn nearer. -/
theorem exists_served_of_polls (rawss : List (List RawIn)) {s : State} {j : BitVec 2}
    (h : s.pan.dirty.get (Category.joystick j) = true)
    (henough : visitedBefore s.pan.lastJoy j < rawss.length) :
    ∃ t ∈ s.polls rawss, Served s.cfg j t := by
  induction rawss generalizing s with
  | nil => exact absurd henough (Nat.not_lt_zero _)
  | cons raws rest ih =>
    obtain hserved | ⟨hdirty, hnearer⟩ := s.polled_serves raws h
    · exact ⟨_, List.mem_cons_self, hserved⟩
    · rw [List.length_cons] at henough
      obtain ⟨t, ht, hserved⟩ := ih hdirty (by omega)
      exact ⟨t, List.mem_cons_of_mem _ ht, s.polled_cfg raws ▸ hserved⟩

/-- Settles O46: at most three joysticks are visited before it, and each poll serves one of them. -/
theorem noJoystickStarves : Obligations.NoJoystickStarves := by
  intro s j r1 r2 r3 r4 hwf hstarted hdirty
  have hrun : ∀ (t : State) (r : List RawIn), t.cfg.wf = true ∧ t.panStarted = true →
      runOps (poll r) t = .next (t.polled r) ∧
        (t.polled r).cfg.wf = true ∧ (t.polled r).panStarted = true := fun t r ⟨hcfg, hpan⟩ =>
    ⟨runOps_poll r hcfg hpan, by rwa [t.polled_cfg], by rwa [t.polled_panStarted]⟩
  obtain ⟨h1, hready1⟩ := hrun s r1 ⟨hwf, hstarted⟩
  obtain ⟨h2, hready2⟩ := hrun _ r2 hready1
  obtain ⟨h3, hready3⟩ := hrun _ r3 hready2
  obtain ⟨h4, -⟩ := hrun _ r4 hready3
  exact ⟨_, _, _, _, h1, h2, h3, h4,
    exists_served_of_polls [r1, r2, r3, r4] hdirty (visitedBefore_lt _ j)⟩

/-! ### Report bytes: buttons, directions and deltas (R175 to R177) -/

/-- Bit k of a byte of eight switches is the switch of index k. -/
theorem bitsOf_eight (on : BitVec 3 → Bool) (k : BitVec 3) :
    (bitsOf 8 fun i => on (BitVec.ofNat 3 i)).getLsbD k.toNat = on k := by
  rw [bitsOf_getLsbD (Nat.le_refl 8), decide_eq_true k.isLt, Bool.true_and, BitVec.ofNat_toNat,
    BitVec.setWidth_eq]

theorem axisNibble_toInt (plus minus : Bool) :
    (axisNibble plus minus).toInt = (if plus then 1 else 0) - (if minus then 1 else 0) := by
  cases plus <;> cases minus <;> decide

/-- The direction byte holds the x nibble below the y nibble (R88). -/
theorem directionByte_nibbles (c : Config) (p : Panel) (j : BitVec 2) :
    (directionByte c p j).extractLsb' 0 4 =
      axisNibble (active c p (.joyDir j .right)) (active c p (.joyDir j .left)) ∧
    (directionByte c p j).extractLsb' 4 4 =
      axisNibble (active c p (.joyDir j .down)) (active c p (.joyDir j .up)) := by
  unfold directionByte
  rw [BitVec.extractLsb'_append_eq_of_add_le (Nat.le_refl 4),
    BitVec.extractLsb'_append_eq_of_le (Nat.le_refl 4)]
  exact ⟨BitVec.extractLsb'_eq_self, BitVec.extractLsb'_eq_self⟩

/-- Settles O49: Consumer is the only dirty category, so the one reported. -/
theorem consumerReportBytes : Obligations.ConsumerReportBytes := by
  intro s hwf hstarted honly
  have hr : getReport s.cfg s.pan = emitConsumer s.cfg s.pan :=
    getReport_of_highest (cat := .consumer) ((honly _).trans rfl) fun d hd =>
      .inl (of_decide_eq_true ((honly d).symm.trans hd))
  refine ⟨_, _, exec_getReport hwf hstarted, ?_, bitsOf_eight fun k => active s.cfg s.pan (.consumer k)⟩
  rw [hr]
  rfl

/-- Settles O50: the two nibbles of the direction byte, then the button byte. -/
theorem joystickReportBytes : Obligations.JoystickReportBytes := by
  intro s t j hexec hpick
  obtain ⟨-, -, rfl⟩ := exec_getReport_reported.mp hexec
  rw [getReport_of_joystick hpick]
  obtain ⟨hx, hy⟩ := directionByte_nibbles s.cfg s.pan j
  exact ⟨_, _, rfl, hx ▸ axisNibble_toInt _ _, hy ▸ axisNibble_toInt _ _,
    bitsOf_eight fun k => active s.cfg s.pan (.joyButton j k)⟩

/-- Settles O51: without a dirty joystick Mouse stands highest. -/
theorem mouseReportBytes : Obligations.MouseReportBytes := by
  intro s hwf hstarted hjoy hmouse
  have hr : getReport s.cfg s.pan = emitMouse s.cfg s.pan :=
    getReport_of_highest (cat := .mouse) hmouse fun d hd => by
      obtain rfl | rfl | rfl := Dirty.not_joystick hjoy hd
      · exact .inl rfl
      all_goals exact .inr (by decide)
  refine ⟨_, _, exec_getReport hwf hstarted, ?_, bitsOf_getLsbD (by decide) _, ?_⟩ <;> rw [hr] <;> rfl

/-! ### The keyboard report (R174) -/

/-- The function of an input that is read for reports while it is pressed (R144, R174). -/
def pressedFunction (c : Config) (p : Panel) (i : Nat) : Option Function :=
  if pressed c p i then func (codeAt (activeTable c p) i) else none

/-- The usage of a key (R80). -/
def keyUsage : Option Function → Option Byte
  | some (.key u) => some u
  | _ => none

theorem scanInput_eq (c : Config) (p : Panel) (acc : KeyScan) (i : Nat) :
    scanInput c p acc i = scanFunction acc (pressedFunction c p i) := by
  unfold scanInput pressedFunction
  split <;> rfl

theorem keyScan_eq (c : Config) (p : Panel) :
    keyScan c p = ((List.range c.nIn).map (pressedFunction c p)).foldl scanFunction
      { mods := 0#8, keys := [], dropped := 0 } := by
  rw [List.foldl_map]
  simp only [keyScan, ← scanInput_eq]

theorem pressedUsages_eq (c : Config) (p : Panel) :
    pressedUsages c p = ((List.range c.nIn).map (pressedFunction c p)).filterMap keyUsage := by
  rw [List.filterMap_map]
  refine List.filterMap_congr fun i _ => ?_
  rw [Function.comp_apply, pressedFunction]
  split <;> rfl

theorem active_iff_mem {c : Config} {p : Panel} {f : Function} :
    active c p f = true ↔ some f ∈ (List.range c.nIn).map (pressedFunction c p) := by
  simp only [active_iff, List.mem_map, List.mem_range, pressedFunction]
  refine exists_congr fun i => and_congr_right fun _ => ?_
  by_cases h : pressed c p i = true <;> simp [h]

/-- A modifier sets its own bit of the modifier byte; nothing else sets one. -/
theorem scanFunction_mods (acc : KeyScan) (f : Option Function) (m : BitVec 3) :
    (scanFunction acc f).mods.getLsbD m.toNat = true ↔
      acc.mods.getLsbD m.toNat = true ∨ f = some (.modifier m) := by
  unfold scanFunction
  split
  next n =>
    rw [BitVec.getLsbD_or, ← BitVec.twoPow_eq, BitVec.getLsbD_twoPow, decide_eq_true n.isLt,
      Bool.or_eq_true, Bool.true_and, decide_eq_true_eq, Option.some.injEq,
      Sys2Proof.Machine.Function.modifier.injEq, BitVec.toNat_inj]
  next u =>
    split
    · simp
    · split <;> simp
  next hmod hkey =>
    have hne : f ≠ some (.modifier m) := hmod m
    rw [or_iff_left hne]

theorem foldl_scanFunction_mods (fs : List (Option Function)) (acc : KeyScan) (m : BitVec 3) :
    (fs.foldl scanFunction acc).mods.getLsbD m.toNat = true ↔
      acc.mods.getLsbD m.toNat = true ∨ some (.modifier m) ∈ fs := by
  induction fs generalizing acc with
  | nil => simp
  | cons f fs ih =>
    rw [List.foldl_cons, ih, scanFunction_mods, List.mem_cons, or_assoc, eq_comm (a := f)]

/-- The key slots once usage u has been met: it takes the next one unless it stands in one already or all
six are full (R174, R180). -/
def addUsage (keys : List Byte) (u : Byte) : List Byte :=
  if u ∈ keys ∨ 6 ≤ keys.length then keys else keys ++ [u]

theorem scanFunction_keys (acc : KeyScan) (f : Option Function) :
    (scanFunction acc f).keys = ((keyUsage f).toList).foldl addUsage acc.keys := by
  unfold scanFunction
  split
  next n => rfl
  next u =>
    change _ = addUsage acc.keys u
    unfold addUsage
    by_cases hmem : u ∈ acc.keys
    · rw [if_pos hmem, if_pos (.inl hmem)]
    · rw [if_neg hmem]
      by_cases hroom : acc.keys.length < 6
      · rw [if_pos hroom, if_neg (by simp only [hmem, false_or]; omega)]
      · rw [if_neg hroom, if_pos (.inr (Nat.le_of_not_lt hroom))]
  next hmod hkey =>
    have hnone : keyUsage f = none := by
      unfold keyUsage
      split
      next u => exact absurd rfl (hkey u)
      next => rfl
    rw [hnone]
    rfl

theorem foldl_scanFunction_keys (fs : List (Option Function)) (acc : KeyScan) :
    (fs.foldl scanFunction acc).keys = (fs.filterMap keyUsage).foldl addUsage acc.keys := by
  induction fs generalizing acc with
  | nil => rfl
  | cons f fs ih =>
    rw [List.foldl_cons, ih, scanFunction_keys, List.filterMap_cons]
    cases keyUsage f <;> rfl

theorem eraseDups_concat (us : List Byte) (u : Byte) :
    (us ++ [u]).eraseDups = if u ∈ us then us.eraseDups else us.eraseDups ++ [u] := by
  rw [List.eraseDups_append, List.removeAll]
  by_cases h : u ∈ us <;> simp [h, List.eraseDups_cons]

/-- The slots hold the first six distinct usages met so far. -/
theorem foldl_addUsage (us : List Byte) : us.foldl addUsage [] = us.eraseDups.take 6 := by
  induction us using List.reverseRecOn with
  | nil => rfl
  | append_singleton us u ih =>
    rw [List.foldl_concat, ih, addUsage, eraseDups_concat]
    by_cases hfull : 6 ≤ us.eraseDups.length
    · rw [if_pos (.inr (by rw [List.length_take]; omega))]
      split
      · rfl
      · rw [List.take_append_of_le_length hfull]
    · rw [List.take_of_length_le (by omega)]
      simp only [hfull, or_false, List.mem_eraseDups]
      split
      · rw [List.take_of_length_le (by omega)]
      · rw [List.take_of_length_le (by rw [List.length_append, List.length_singleton]; omega)]

theorem keyScan_keys (c : Config) (p : Panel) :
    (keyScan c p).keys = (pressedUsages c p).eraseDups.take 6 := by
  rw [keyScan_eq, foldl_scanFunction_keys, ← pressedUsages_eq, foldl_addUsage]

theorem keyScan_mods (c : Config) (p : Panel) (m : BitVec 3) :
    (keyScan c p).mods.getLsbD m.toNat = active c p (.modifier m) := by
  rw [Bool.eq_iff_iff, keyScan_eq, foldl_scanFunction_mods, active_iff_mem]
  simp

/-- Padding a list's first n entries is taking the first n of the padded list. -/
theorem take_append_replicate {α : Type} (l : List α) (n : Nat) (a : α) :
    l.take n ++ List.replicate (n - (l.take n).length) a = (l ++ List.replicate n a).take n := by
  rw [List.take_append, List.take_replicate, List.length_take]
  congr 2
  omega

theorem keyboardBytes_eq (c : Config) (p : Panel) :
    keyboardBytes c p = c.reportId.keyboard :: (keyScan c p).mods ::
      ((pressedUsages c p).eraseDups ++ List.replicate 6 0x00#8).take 6 := by
  rw [← take_append_replicate, ← keyScan_keys]
  rfl

/-- Settles O48: only Consumer may be dirty beside Keyboard, and it stands lower. -/
theorem keyboardReportBytes : Obligations.KeyboardReportBytes := by
  intro s hwf hstarted hjoy hmouse hkeyboard
  have hr : getReport s.cfg s.pan = emitKeyboard s.cfg s.pan :=
    getReport_of_highest (cat := .keyboard) hkeyboard fun d hd => by
      obtain rfl | rfl | rfl := Dirty.not_joystick hjoy hd
      · exact absurd hd (Bool.eq_false_iff.mp hmouse)
      · exact .inl rfl
      · exact .inr (by decide)
  refine ⟨_, _, exec_getReport hwf hstarted, ?_, keyScan_mods s.cfg s.pan⟩
  rw [hr, ← keyboardBytes_eq]
  rfl

end Sys2Proof.Machine

/-! PROOFS. The family 60_exceptions.md: events that are presented together, the host's duties, and the
diagnostics (R58, R190 to R195, R213, R214). -/

namespace Sys2Proof.Machine

section

variable {e : BusEvent} {plan : Option (List Nat)} {tie : Nat} {rest : List Input} {s : State}

/-! ### What the raised lines decode to (R72, R194, R195) -/

/-- At most one line is raised, or the presentation is simultaneous. -/
theorem lines_cases (l : Lines) :
    l = 0b000#3 ∨ l = 0b001#3 ∨ l = 0b010#3 ∨ l = 0b100#3 ∨ 2 ≤ (raisedLines l).length := by
  revert l; decide

theorem raisedLines_length_le (l : Lines) : (raisedLines l).length ≤ 3 :=
  List.length_filter_le _ _

theorem decode_simultaneous (h : 2 ≤ (raisedLines (BusEvent.lines e)).length) :
    decode e = .error .simultaneous := by
  have hone (l : Lines) (hl : (raisedLines l).length < 2) : BusEvent.lines e ≠ l := by
    rintro rfl
    omega
  have hnone := hone 0b000#3 (by decide)
  have hlow := hone 0b001#3 (by decide)
  have hmiddle := hone 0b010#3 (by decide)
  have hhigh := hone 0b100#3 (by decide)
  cases e
  all_goals
    exact (if_neg hlow).trans ((if_neg hmiddle).trans ((if_neg hhigh).trans (if_neg hnone)))

/-! ### The step on each kind of input -/

theorem step_of_fetch_done {o : Host.Outcome State Fault Refusal} (hf : fetch s = .done o) :
    step s = o := by
  unfold step; rw [hf]

/-- Events presented together take the place of their presentation, one after the other (R195). -/
theorem step_simultaneous (hin : s.inputs = .bus e plan tie :: rest)
    (hd : decode e = .error .simultaneous) :
    step s = .next { s with inputs := serialise e plan tie ++ rest } := by
  refine step_of_fetch_done ((fetch_bus hin).trans ?_)
  unfold fetchBus; rw [hd]

/-- No raised line is no event (R194). -/
theorem step_idle (hin : s.inputs = .bus e plan tie :: rest) (hd : decode e = .error .idle) :
    step s = .next { s with inputs := rest } := by
  refine step_of_fetch_done ((fetch_bus hin).trans ?_)
  unfold fetchBus; rw [hd]

theorem step_load {c : Config} (hin : s.inputs = .load c :: rest) (hled : s.ledStarted = false)
    (hpan : s.panStarted = false) (hwf : c.wf = true) :
    step s = .next { s with inputs := rest, cfg := c } := by
  have hfetch : fetch s = .done (loadConfig c { s with inputs := rest }) := by
    unfold fetch; rw [hin]
  rw [step_of_fetch_done hfetch]
  unfold loadConfig
  rw [if_neg (by simp [hled, hpan]), if_neg (by simp [hwf])]

/-! ### Every order of events presented together (R195) -/

theorem arrange_perm {α : Type} (tie : Nat) (l : List α) : (arrange tie l).Perm l := by
  unfold arrange
  split
  · exact List.rotate_perm l _
  · exact (List.rotate_perm l.reverse _).trans l.reverse_perm

/-- Up to three elements stand in each of their orders for some tie: the even ties rotate the list, the
odd ones its reverse. -/
theorem exists_arrange {α : Type} {l order : List α} (hlength : l.length ≤ 3) (h : order.Perm l) :
    ∃ tie, arrange tie l = order := by
  rw [← List.mem_permutations'] at h
  match l, hlength with
  | [], _ => exact ⟨0, (List.mem_singleton.mp h).symm⟩
  | [a], _ => exact ⟨0, (List.mem_singleton.mp h).symm⟩
  | [a, b], _ =>
    have h : order = [a, b] ∨ order = [b, a] := by
      simpa [List.permutations', List.permutations'Aux] using h
    obtain rfl | rfl := h
    exacts [⟨0, rfl⟩, ⟨1, rfl⟩]
  | [a, b, c], _ =>
    have h : order = [a, b, c] ∨ order = [b, a, c] ∨ order = [b, c, a] ∨ order = [a, c, b] ∨
        order = [c, a, b] ∨ order = [c, b, a] := by
      simpa [List.permutations', List.permutations'Aux, or_assoc] using h
    obtain rfl | rfl | rfl | rfl | rfl | rfl := h
    exacts [⟨0, rfl⟩, ⟨3, rfl⟩, ⟨2, rfl⟩, ⟨5, rfl⟩, ⟨4, rfl⟩, ⟨1, rfl⟩]

/-! ### The host's duties (R58, R213, R214) -/

/-- An event that decodes goes on when its operation does. -/
theorem step_of_exec {i : Instr} {t : State} (hin : s.inputs = .bus e plan tie :: rest)
    (hd : decode e = .ok i) (h : exec i { s with inputs := rest, plan := plan } = .next t) :
    ∃ t, step s = .next t :=
  ⟨t, (stepRunsDecodedOperation s e plan tie rest i hin hd).trans h⟩

/-- Eight bytes are an SBA or a PBA (R73), and a command that the host may deliver is carried out. -/
theorem exists_exec_command {cmd : List Byte} (hlength : cmd.length = 8) (hwf : s.cfg.wf = true)
    (hstarted : s.ledStarted = true) (hidle : s.pending = []) :
    ∃ i t, decodeCommand cmd = .ok i ∧ exec i s = .next t := by
  obtain ⟨b0, b1, b2, b3, b4, b5, b6, b7, rfl⟩ :
      ∃ b0 b1 b2 b3 b4 b5 b6 b7, cmd = [b0, b1, b2, b3, b4, b5, b6, b7] := by
    match cmd, hlength with
    | [b0, b1, b2, b3, b4, b5, b6, b7], _ => exact ⟨_, _, _, _, _, _, _, _, rfl⟩
  by_cases hmarker : b0 = 0x40#8
  · exact ⟨_, _, if_pos hmarker, exec_sba_next.mpr ⟨hwf, hstarted, hidle, rfl⟩⟩
  · exact ⟨_, _, if_neg hmarker, exec_pba_next.mpr ⟨hmarker, hwf, hstarted, hidle, rfl⟩⟩

/-- The duties towards the LED unit's ports, one case per set of raised lines. -/
theorem step_led_dutiful {lines : Lines} {cmd : List Byte}
    (hin : s.inputs = .bus (.led lines cmd) plan tie :: rest) (hwf : s.cfg.wf = true)
    (hcommand : lines = 0b010#3 → s.ledStarted = true ∧ s.pending = [] ∧ cmd.length = 8)
    (htick : lines = 0b001#3 → s.ledStarted = true) : ∃ t, step s = .next t := by
  obtain rfl | rfl | rfl | rfl | hseveral := lines_cases lines
  · exact ⟨_, step_idle hin rfl⟩
  · exact step_of_exec hin rfl (exec_pwmTick_next.mpr ⟨hwf, htick rfl, rfl⟩)
  · obtain ⟨hstarted, hidle, hlength⟩ := hcommand rfl
    obtain ⟨i, t, hd, h⟩ := exists_exec_command (s := { s with inputs := rest, plan := plan })
      hlength hwf hstarted hidle
    exact step_of_exec hin hd h
  · exact step_of_exec hin rfl (exec_resetLed_next.mpr ⟨hwf, rfl⟩)
  · exact ⟨_, step_simultaneous hin (decode_simultaneous hseveral)⟩

/-- The duties towards the Panel unit's ports, one case per set of raised lines. -/
theorem step_panel_dutiful {lines : Lines} {raw : RawIn}
    (hin : s.inputs = .bus (.panel lines raw) plan tie :: rest) (hwf : s.cfg.wf = true)
    (hstarted : lines = 0b010#3 ∨ lines = 0b001#3 → s.panStarted = true) :
    ∃ t, step s = .next t := by
  obtain rfl | rfl | rfl | rfl | hseveral := lines_cases lines
  · exact ⟨_, step_idle hin rfl⟩
  · exact step_of_exec hin rfl (exec_getReport_next.mpr ⟨hwf, hstarted (.inr rfl), rfl⟩)
  · exact step_of_exec hin rfl (exec_sampleTick_next.mpr ⟨hwf, hstarted (.inl rfl), rfl⟩)
  · exact step_of_exec hin rfl (exec_resetPan_next.mpr ⟨hwf, rfl⟩)
  · exact ⟨_, step_simultaneous hin (decode_simultaneous hseveral)⟩

end

/-- Settles O6: what the step puts in front is an arrangement, and every order is one. -/
theorem simultaneousEventsInEveryOrder : Obligations.SimultaneousEventsInEveryOrder := by
  intro s e plan tie rest hin hseveral oneByOne
  have hd := decode_simultaneous hseveral
  refine ⟨⟨_, arrange_perm tie _, step_simultaneous hin hd⟩, fun order hperm => ?_⟩
  obtain ⟨tie', rfl⟩ := exists_arrange (raisedLines_length_le _) hperm
  exact ⟨tie', step_simultaneous rfl hd⟩

/-- Settles O55, one case per kind of input; of a legal state only its well-formed configuration is
needed. -/
theorem dutifulStepsGoOn : Obligations.DutifulStepsGoOn := by
  intro s hlegal hduty
  unfold Dutiful at hduty
  split at hduty
  next hin => exact ⟨_, step_unpresented hin⟩
  next k rest hin => exact ⟨_, step_finish hin⟩
  next c rest hin =>
    obtain ⟨hled, hpan, hwf⟩ := hduty
    exact ⟨_, step_load hin hled hpan hwf⟩
  next lines cmd plan tie rest hin =>
    obtain ⟨hcommand, htick⟩ := hduty
    exact step_led_dutiful hin hlegal.config hcommand htick
  next lines raw plan tie rest hin => exact step_panel_dutiful hin hlegal.config hduty

/-! ### The conditions of each operation (R191) -/

section

variable {c : Config}

theorem Config.wf_outMap (h : c.wf = true) : c.outMap.length = c.nOut := by
  simp only [Config.wf, Config.ledWf, Bool.and_eq_true, decide_eq_true_eq] at h
  omega

/-! #### SBA (R101) -/

theorem enableBeyond_iff (en0 en1 en2 en3 : Byte) :
    enableBeyond c [en0, en1, en2, en3] = true ↔
      ∃ ch, c.nCh ≤ ch ∧ (en3 ++ en2 ++ en1 ++ en0 : BitVec 32).getLsbD ch = true := by
  simp only [enableBeyond, List.any_eq_true, List.mem_range, Bool.and_eq_true, decide_eq_true_eq]
  refine exists_congr fun ch => ⟨fun ⟨hch, hbeyond, hset⟩ => ⟨hbeyond, ?_⟩,
    fun ⟨hbeyond, hset⟩ => ?_⟩
  · rwa [← enableBit_word _ _ _ _ hch]
  · have hch : ch < 32 := BitVec.lt_of_getLsbD hset
    exact ⟨hch, hbeyond, by rwa [enableBit_word _ _ _ _ hch]⟩

theorem mem_sbaDiag {enBytes : List Byte} {spd : Byte} {x : DiagCode} :
    x ∈ sbaDiag c enBytes spd ↔
      (x = .ledSpeedClamped ∧ (spd.toNat = 0 ∨ 7 < spd.toNat)) ∨
      (x = .ledChannelIgnored ∧ enableBeyond c enBytes = true) := by
  rw [sbaDiag, List.mem_append, List.mem_ite_nil_right, List.mem_ite_nil_right, List.mem_singleton,
    List.mem_singleton, and_comm, and_comm (a := enableBeyond c enBytes = true)]

theorem met_sba {en0 en1 en2 en3 spd x6 x7 : Byte} {s t : State} {x : DiagCode} :
    DiagCode.Met (.sba en0 en1 en2 en3 spd x6 x7) s t x ↔
      x ∈ sbaDiag s.cfg [en0, en1, en2, en3] spd := by
  rw [mem_sbaDiag, enableBeyond_iff]
  cases x <;> simp [DiagCode.Met]

/-! #### PBA (R104) -/

/-- A mode byte that is off is one that R77 gives no meaning. -/
theorem classify_eq_off_iff {maxB : Nat} {b : Byte} :
    classify maxB b = .off ↔ maxB < b.toNat ∧ (b.toNat < 129 ∨ 132 < b.toNat) := by
  have hmode (k : Byte) : b = k ↔ b.toNat = k.toNat := BitVec.toNat_inj.symm
  simp only [classify, hmode, BitVec.reduceToNat]
  split_ifs <;> simp <;> omega

theorem modeDiag_eq_some {bk : BitVec 2} {ms : List Byte} {k : Nat} {x : DiagCode} :
    modeDiag c bk ms k = some x ↔
      (x = .ledChannelIgnored ∧ c.nCh ≤ bk.toNat * 8 + k) ∨
      (x = .ledModeOffValue ∧ bk.toNat * 8 + k < c.nCh ∧
        classify c.maxB (ms.getD k 0#8) = .off) := by
  unfold modeDiag
  generalize ms.getD k 0#8 = b
  by_cases hch : bk.toNat * 8 + k < c.nCh
  · have hle : ¬ c.nCh ≤ bk.toNat * 8 + k := by omega
    by_cases hoff : classify c.maxB b = .off <;> simp [hch, hle, hoff, eq_comm]
  · simp [hch, Nat.le_of_not_lt hch, eq_comm]

/-- The last byte of a bank is the first to miss its channel. -/
theorem exists_beyond_bank {n start : Nat} :
    (∃ k, k < 8 ∧ n ≤ start + k) ↔ n < start + 8 :=
  ⟨fun ⟨_, hk, hle⟩ => by omega, fun h => ⟨7, by omega, by omega⟩⟩

theorem getElem?_eq_some_iff_getD {ms : List Byte} {k : Nat} {b : Byte} :
    ms[k]? = some b ↔ k < ms.length ∧ ms.getD k 0#8 = b := by
  rw [List.getElem?_eq_some_iff]
  exact ⟨fun ⟨hk, hb⟩ => ⟨hk, by rwa [List.getD_eq_getElem _ _ hk]⟩,
    fun ⟨hk, hb⟩ => ⟨hk, by rwa [List.getD_eq_getElem _ _ hk] at hb⟩⟩

theorem mem_pbaDiag {bk : BitVec 2} {ms : List Byte} {x : DiagCode} (hlength : ms.length = 8) :
    x ∈ pbaDiag c bk ms ↔
      (x = .ledChannelIgnored ∧ c.nCh < bk.toNat * 8 + 8) ∨
      (x = .ledModeOffValue ∧ ∃ k b, ms[k]? = some b ∧ bk.toNat * 8 + k < c.nCh ∧
        c.maxB < b.toNat ∧ (b.toNat < 129 ∨ 132 < b.toNat)) := by
  rw [← exists_beyond_bank]
  simp only [pbaDiag, List.mem_filterMap, List.mem_range, modeDiag_eq_some, classify_eq_off_iff,
    getElem?_eq_some_iff_getD, hlength]
  constructor
  · rintro ⟨k, hk, ⟨rfl, hle⟩ | ⟨rfl, hlt, hoff⟩⟩
    · exact .inl ⟨rfl, k, hk, hle⟩
    · exact .inr ⟨rfl, k, _, ⟨hk, rfl⟩, hlt, hoff⟩
  · rintro (⟨rfl, k, hk, hle⟩ | ⟨rfl, k, b, ⟨hk, rfl⟩, hlt, hoff⟩)
    · exact ⟨k, hk, .inl ⟨rfl, hle⟩⟩
    · exact ⟨k, hk, .inr ⟨rfl, hlt, hoff⟩⟩

theorem met_pba {m0 m1 m2 m3 m4 m5 m6 m7 : Byte} {s t : State} {x : DiagCode} :
    DiagCode.Met (.pba m0 m1 m2 m3 m4 m5 m6 m7) s t x ↔
      x ∈ pbaDiag s.cfg s.led.bankPtr [m0, m1, m2, m3, m4, m5, m6, m7] := by
  rw [mem_pbaDiag rfl]
  cases x <;> simp [DiagCode.Met]

/-! #### RESET (R210) and PWM_TICK -/

theorem not_met_pwmTick {s t : State} (x : DiagCode) : ¬ DiagCode.Met .pwmTick s t x := by
  cases x <;> simp [DiagCode.Met]

theorem mem_resetLedDiag (hlength : c.outMap.length = c.nOut) {x : DiagCode} :
    x ∈ resetLedDiag c ↔
      x = .ledOutMapRange ∧ ∃ p m, p < c.nOut ∧ c.outMap[p]? = some m ∧ c.nCh ≤ m := by
  have hentry (p : Nat) : (∃ m, p < c.nOut ∧ c.outMap[p]? = some m ∧ c.nCh ≤ m) ↔
      p < c.nOut ∧ c.nCh ≤ c.outMap.getD p 0 := by
    rw [exists_and_left]
    refine and_congr_right fun hp => ?_
    rw [← hlength] at hp
    rw [List.getElem?_eq_getElem hp, List.getD_eq_getElem _ _ hp]
    simp
  simp only [resetLedDiag, List.mem_map, List.mem_filter, List.mem_range, decide_eq_true_eq, hentry,
    exists_and_right]
  rw [and_comm, eq_comm]

theorem met_resetLed {s t : State} (hwf : s.cfg.wf = true) {x : DiagCode} :
    DiagCode.Met .resetLed s t x ↔ x ∈ resetLedDiag s.cfg := by
  rw [mem_resetLedDiag (Config.wf_outMap hwf)]
  cases x <;> simp [DiagCode.Met]

theorem indexBeyond_iff {k : Option Nat} :
    indexBeyond c k = true ↔ ∃ i, k = some i ∧ c.nIn ≤ i := by
  cases k <;> simp [indexBeyond]

theorem mem_resetPanDiag {x : DiagCode} :
    x ∈ resetPanDiag c ↔
      (x = .panShiftIndexRange ∧ ∃ k, c.shiftIndex = some k ∧ c.nIn ≤ k) ∨
      (x = .panMfIndexRange ∧ ∃ k, c.mfIndex = some k ∧ c.nIn ≤ k) ∨
      (x = .panKeycodeReserved ∧
        ∃ code ∈ c.mapNormal ++ c.mapShift, 6 ≤ (code.extractLsb' 12 4).toNat) := by
  have hreserved : (∃ code, (code ∈ c.mapNormal ++ c.mapShift ∧ reservedClass code = true) ∧
      DiagCode.panKeycodeReserved = x) ↔ (x = .panKeycodeReserved ∧
        ∃ code ∈ c.mapNormal ++ c.mapShift, 6 ≤ (code.extractLsb' 12 4).toNat) := by
    have hcode (code : KeyCode) :
        reservedClass code = true ↔ 6 ≤ (code.extractLsb' 12 4).toNat := decide_eq_true_iff
    rw [exists_and_right, and_comm, eq_comm]
    simp only [hcode]
  rw [resetPanDiag, List.mem_append, List.mem_append, List.mem_ite_nil_right,
    List.mem_ite_nil_right, List.mem_singleton, List.mem_singleton, indexBeyond_iff, indexBeyond_iff,
    List.mem_map, or_assoc, and_comm, and_comm (b := x = .panMfIndexRange)]
  simp only [List.mem_filter, hreserved]

theorem met_resetPan {s t : State} {x : DiagCode} :
    DiagCode.Met .resetPan s t x ↔ x ∈ resetPanDiag s.cfg := by
  rw [mem_resetPanDiag]
  cases x <;> simp [DiagCode.Met]

/-! #### SAMPLE_TICK (R157) -/

theorem saturates_iff {raw : RawIn} {p : Panel} {a : Axis} :
    saturates c (sampleLevels c raw p) a = true ↔
      let d := qstep (p.qprev.get a) ((sampleTick c raw p).qprev.get a)
      d ≠ 0 ∧ 127 < ((p.delta.get a).toInt + d).natAbs := by
  obtain ⟨-, hqprev, hdelta, -⟩ := sampleLevels_frame c raw p
  obtain ⟨-, -, -, -, -, -, qprev, -⟩ := quadrature_spec (c := c) (sampleLevels c raw p)
  have hq : (sampleTick c raw p).qprev.get a = quadState c (sampleLevels c raw p) a := qprev a
  simp only [saturates, deltaSum, hqprev, hdelta, hq, Bool.and_eq_true, decide_eq_true_eq]

theorem mem_sampleDiag {raw : RawIn} {p : Panel} {x : DiagCode} :
    x ∈ sampleDiag c raw p ↔
      x = .panDeltaSaturated ∧ ∃ a, saturates c (sampleLevels c raw p) a = true := by
  have haxis (a : Axis) : a ∈ [Axis.x, Axis.y] := by cases a <;> simp
  simp only [sampleDiag, List.mem_map, List.mem_filter, haxis, true_and, exists_and_right]
  rw [and_comm, eq_comm]

theorem met_sampleTick {raw : RawIn} {s t : State} (hpan : t.pan = sampleTick s.cfg raw s.pan)
    {x : DiagCode} :
    DiagCode.Met (.sampleTick raw) s t x ↔ x ∈ sampleDiag s.cfg raw s.pan := by
  simp only [mem_sampleDiag, saturates_iff, ← hpan]
  cases x <;> simp [DiagCode.Met]

/-! #### GET_REPORT (R174, R180) -/

/-- A usage is dropped when it stands in no slot and all six are full. -/
theorem scanFunction_dropped (acc : KeyScan) (f : Option Function) :
    0 < (scanFunction acc f).dropped ↔
      0 < acc.dropped ∨ ∃ u, keyUsage f = some u ∧ u ∉ acc.keys ∧ 6 ≤ acc.keys.length := by
  unfold scanFunction
  split
  next m => simp [keyUsage]
  next u =>
    by_cases hmem : u ∈ acc.keys
    · simp [keyUsage, hmem]
    · by_cases hroom : acc.keys.length < 6
      · simp [keyUsage, hmem, hroom]
      · simp [keyUsage, hmem, hroom, Nat.le_of_not_lt hroom]
  next hmod hkey =>
    have hnone : keyUsage f = none := by
      unfold keyUsage
      split
      next u => exact absurd rfl (hkey u)
      next => rfl
    simp [hnone]

/-- Something is dropped exactly when there are more than six distinct usages. -/
theorem foldl_scanFunction_dropped (fs : List (Option Function)) (mods : Byte) :
    0 < (fs.foldl scanFunction { mods := mods, keys := [], dropped := 0 }).dropped ↔
      6 < (fs.filterMap keyUsage).eraseDups.length := by
  induction fs using List.reverseRecOn with
  | nil => simp
  | append_singleton fs f ih =>
    rw [List.foldl_concat, scanFunction_dropped, ih, foldl_scanFunction_keys, foldl_addUsage,
      List.filterMap_append, List.length_take]
    cases hf : keyUsage f with
    | none => simp [hf]
    | some u =>
      have hlast : [f].filterMap keyUsage = [u] := by simp [hf]
      rw [hlast, eraseDups_concat]
      generalize fs.filterMap keyUsage = us
      by_cases hfull : 6 < us.eraseDups.length
      · simp only [hfull, true_or, true_iff]
        split
        · exact hfull
        · rw [List.length_append]; omega
      · rw [List.take_of_length_le (by omega)]
        by_cases hmem : u ∈ us <;> simp [hmem, hfull]

theorem mem_getReport_diag {p : Panel} {x : DiagCode} :
    x ∈ (getReport c p).diag ↔
      x = .panKeysTruncated ∧ (∀ j, p.dirty.get (Category.joystick j) = false) ∧
        p.dirty.get .mouse = false ∧ p.dirty.get .keyboard = true ∧
        6 < (pressedUsages c p).eraseDups.length := by
  rw [← pickJoystick_none]
  have hmouse : p.dirty.get .mouse = p.dirty.mouse := rfl
  have hkeyboard : p.dirty.get .keyboard = p.dirty.keyboard := rfl
  rw [hmouse, hkeyboard]
  obtain ⟨j, hj, hr⟩ | ⟨hnone, hm, hr⟩ | ⟨hnone, hm, hk, hr⟩ | ⟨hnone, hm, hk, hcons, hr⟩ |
    ⟨hnone, hm, hk, hcons, hr⟩ := getReport_cases c p
  · simp [hr, hj, emitJoystick]
  · simp [hr, hm, emitMouse]
  · rw [hr, pressedUsages_eq, ← foldl_scanFunction_dropped _ 0#8, ← keyScan_eq]
    simp [hnone, hm, hk, emitKeyboard, List.mem_replicate, Nat.pos_iff_ne_zero, and_comm]
  · simp [hr, hk, emitConsumer]
  · simp [hr, hk]

theorem met_getReport {s t : State} {x : DiagCode} :
    DiagCode.Met .getReport s t x ↔ x ∈ (getReport s.cfg s.pan).diag := by
  rw [mem_getReport_diag]
  cases x <;> simp [DiagCode.Met]

end

/-! #### What an operation records -/

theorem ledOperation_records {i : Instr} {s t : State} (h : exec i s = .next t) (hi : OfLed i)
    (x : DiagCode) : x ∈ t.ledDiag ↔ DiagCode.Met i s t x := by
  obtain ⟨_, _, _, _, _, _, _, rfl⟩ | ⟨_, _, _, _, _, _, _, _, rfl⟩ | rfl | rfl := hi
  · obtain ⟨-, -, -, rfl⟩ := exec_sba_next.mp h
    rw [met_sba, deliver_ledDiag]
  · obtain ⟨-, -, -, -, rfl⟩ := exec_pba_next.mp h
    rw [met_pba, deliver_ledDiag]
  · obtain ⟨-, -, rfl⟩ := exec_pwmTick_next.mp h
    exact iff_of_false List.not_mem_nil (not_met_pwmTick x)
  · obtain ⟨hwf, rfl⟩ := exec_resetLed_next.mp h
    rw [met_resetLed hwf]

theorem panelOperation_records {i : Instr} {s t : State} (h : exec i s = .next t) (hi : OfPanel i)
    (x : DiagCode) : x ∈ t.panDiag ↔ DiagCode.Met i s t x := by
  obtain ⟨raw, rfl⟩ | rfl | rfl := hi
  · rw [met_sampleTick (pan_of_exec_sampleTick h)]
    obtain ⟨-, -, rfl⟩ := exec_sampleTick_next.mp h
    rfl
  · rw [met_getReport]
    obtain ⟨-, -, rfl⟩ := exec_getReport_next.mp h
    rfl
  · rw [met_resetPan]
    obtain ⟨-, rfl⟩ := exec_resetPan_next.mp h
    rfl

/-! ### The diagnostic port (R192) -/

theorem subperm_filterMap {α β : Type} {l l' : List α} (f : α → Option β) (h : l.Subperm l') :
    (l.filterMap f).Subperm (l'.filterMap f) := by
  obtain ⟨m, hperm, hsub⟩ := h
  exact ⟨m.filterMap f, hperm.filterMap f, hsub.filterMap f⟩

theorem filterMap_range_getElem? {α : Type} (l : List α) :
    (List.range l.length).filterMap (fun k => l[k]?) = l := by
  induction l with
  | nil => rfl
  | cons a l ih =>
    rw [List.length_cons, List.range_succ_eq_map, List.filterMap_cons, List.filterMap_map]
    exact congrArg (a :: ·) ih

/-- The port shows conditions met, each position at most once. -/
theorem emitted_subperm (choice : List Nat) (met : List DiagCode) :
    (emitted choice met).Subperm met := by
  have hbound : choice.dedup.filterMap (fun k => met[k]?) =
      (choice.dedup.filter (· < met.length)).filterMap fun k => met[k]? := by
    rw [List.filterMap_filter]
    refine List.filterMap_congr fun k _ => ?_
    by_cases hk : k < met.length <;> simp [hk]
  have hpositions : (choice.dedup.filter (· < met.length)).Subperm (List.range met.length) :=
    List.subperm_of_subset (choice.nodup_dedup.filter _) fun k hk => by
      simpa using (List.mem_filter.mp hk).2
  rw [emitted, hbound]
  simpa only [filterMap_range_getElem?] using subperm_filterMap (fun k => met[k]?) hpositions

theorem map_emitted_subperm (choice : List Nat) (met : List DiagCode) :
    ((emitted choice met).map DiagCode.code).Subperm (met.map DiagCode.code) := by
  simp only [← List.filterMap_eq_map]
  exact subperm_filterMap _ (emitted_subperm choice met)

/-! ### Diagnostics change nothing (R192) -/

/-- The state with nothing recorded. -/
def State.undiagnosed (s : State) : State := { s with ledDiag := [], panDiag := [] }

theorem perform_undiagnosed (k : Nat) (s : State) :
    (perform k s).undiagnosed = perform k s.undiagnosed := by
  unfold perform State.undiagnosed
  cases s.pending[k]? <;> rfl

theorem runAgent_undiagnosed (plan : Option (List Nat)) (s : State) :
    (runAgent plan s).undiagnosed = runAgent plan s.undiagnosed := by
  cases plan with
  | none => rfl
  | some ks =>
    show (ks.foldl (fun s k => perform k s) s).undiagnosed =
      ks.foldl (fun s k => perform k s) s.undiagnosed
    induction ks generalizing s with
    | nil => rfl
    | cons k ks ih => rw [List.foldl_cons, ih, perform_undiagnosed, List.foldl_cons]

/-- The command agent reads no diagnostics. -/
theorem deliver_undiagnosed (ws : List FieldWrite) (diag : List DiagCode) (s : State) :
    (deliver ws diag s).undiagnosed = deliver ws [] s.undiagnosed :=
  runAgent_undiagnosed s.plan _

/-- An operation does the same from two states that differ in what is recorded only. -/
theorem exec_undiagnosed {i : Instr} {s t : State} {d d' : List DiagCode}
    (h : exec i { s with ledDiag := d, panDiag := d' } = .next t) :
    ∃ t', exec i s = .next t' ∧ t'.undiagnosed = t.undiagnosed := by
  cases i with
  | sba =>
    obtain ⟨hwf, hstarted, hidle, rfl⟩ := exec_sba_next.mp h
    refine ⟨_, exec_sba_next.mpr ⟨hwf, hstarted, hidle, rfl⟩, ?_⟩
    rw [deliver_undiagnosed, deliver_undiagnosed]
    rfl
  | pba =>
    obtain ⟨hmarker, hwf, hstarted, hidle, rfl⟩ := exec_pba_next.mp h
    refine ⟨_, exec_pba_next.mpr ⟨hmarker, hwf, hstarted, hidle, rfl⟩, ?_⟩
    rw [deliver_undiagnosed, deliver_undiagnosed]
    rfl
  | pwmTick =>
    obtain ⟨hwf, hstarted, rfl⟩ := exec_pwmTick_next.mp h
    exact ⟨_, exec_pwmTick_next.mpr ⟨hwf, hstarted, rfl⟩, rfl⟩
  | resetLed =>
    obtain ⟨hwf, rfl⟩ := exec_resetLed_next.mp h
    exact ⟨_, exec_resetLed_next.mpr ⟨hwf, rfl⟩, rfl⟩
  | sampleTick =>
    obtain ⟨hwf, hstarted, rfl⟩ := exec_sampleTick_next.mp h
    exact ⟨_, exec_sampleTick_next.mpr ⟨hwf, hstarted, rfl⟩, rfl⟩
  | getReport =>
    obtain ⟨hwf, hstarted, rfl⟩ := exec_getReport_next.mp h
    exact ⟨_, exec_getReport_next.mpr ⟨hwf, hstarted, rfl⟩, rfl⟩
  | resetPan =>
    obtain ⟨hwf, rfl⟩ := exec_resetPan_next.mp h
    exact ⟨_, exec_resetPan_next.mpr ⟨hwf, rfl⟩, rfl⟩

/-- Settles O59: what each operation records, the positions that the port shows, and the same operation run
with nothing recorded. -/
theorem diagnosticsChangeNothing : Obligations.DiagnosticsChangeNothing :=
  ⟨fun _ _ _ h => ⟨ledOperation_records h, panelOperation_records h⟩,
    fun _ => ⟨map_emitted_subperm _ _, map_emitted_subperm _ _⟩,
    fun _ _ _ _ _ h => exec_undiagnosed h⟩

end Sys2Proof.Machine

/-! PROOFS. The family 70_reset_and_hazards.md: RESET of each unit, the outputs from RESET on while no
command is delivered, and the boot order (R210 to R214). -/

namespace Sys2Proof.Machine

/-! ### Writes that undo no reset value (log entry 8) -/

theorem undoesReset_enables_eq_false {en : List Bool} :
    (FieldWrite.enables en).undoesReset = false ↔ ∀ b ∈ en, b = false := by
  simp [FieldWrite.undoesReset]

theorem undoesReset_bank_eq_false {v : BitVec 2} :
    (FieldWrite.bank v).undoesReset = false ↔ v = 0#2 := by
  simp [FieldWrite.undoesReset]

/-- Of the writes that undo no reset value only W_EN touches the enables, and it clears them all. -/
theorem apply_enabledAt_of_undoes_no_reset {w : FieldWrite} (hw : w.undoesReset = false) {l : Led}
    (hl : ∀ ch, l.enabledAt ch = false) (ch : Nat) : (w.apply l).enabledAt ch = false := by
  cases w with
  | enables en =>
    have hall := undoesReset_enables_eq_false.mp hw
    have hen : en = List.replicate en.length false := List.eq_replicate_of_mem hall
    show en.getD ch false = false
    rw [hen]
    exact List.getElem?_getD_replicate_default_eq _ _ ch
  | speed v => exact hl ch
  | mode k v => exact hl ch
  | bank v => exact hl ch

/-! ### From RESET.LED on (R129, R210, R211) -/

/-- A pin whose channel is off, or that has no channel, stands at the inactive level. -/
theorem outputLevel_of_unlit (c : Config) {l : Led} (h : ∀ ch, l.outAt ch = false) (p : Nat) :
    outputLevel c l p = inactiveLevel c := by
  simp only [outputLevel, inactiveLevel, h, Bool.and_false]
  cases c.outActiveHigh <;> rfl

/-- The LED unit has been reset under `c` and no command has been delivered since: every channel is
disabled and off, and no outstanding write can enable one. -/
structure Dark (c : Config) (x : State) : Prop where
  cfg : x.cfg = c
  started : x.ledStarted = true
  disabled : ∀ ch, x.led.enabledAt ch = false
  unlit : ∀ ch, x.led.outAt ch = false
  owed : ∀ w ∈ x.pending, w.undoesReset = false

theorem exec_resetLed_dark {s t : State} (h : exec .resetLed s = .next t) : Dark s.cfg t := by
  obtain ⟨-, rfl⟩ := exec_resetLed_next.mp h
  exact {
    cfg := rfl
    started := rfl
    disabled := List.getElem?_getD_replicate_default_eq _ s.cfg.nCh
    unlit := List.getElem?_getD_replicate_default_eq _ s.cfg.nCh
    owed := fun _ hw => (writesAfterReset_mem hw).2 }

section

variable {c : Config} {x : State}

theorem Dark.ledOut_inactive (h : Dark c x) {p : Nat} (hp : p < c.nOut) :
    (ledOut x)[p]? = some (inactiveLevel c) := by
  obtain ⟨rfl, -, -, hunlit, -⟩ := h
  rw [ledOut_getElem? x hp, outputLevel_of_unlit x.cfg hunlit]

theorem Dark.exec_pwmTick (h : Dark c x) (hwf : c.wf = true) :
    exec .pwmTick x = .next (Move.tick.apply x) :=
  exec_pwmTick_eq_tick (h.cfg ▸ hwf) h.started

theorem Dark.perform (h : Dark c x) (k : Nat) : Dark c (perform k x) := by
  obtain hsame | ⟨w, hw, hstep⟩ := perform_cases k x
  · rwa [hsame]
  · have hkeeps := h.owed w (List.mem_of_getElem? hw)
    rw [hstep]
    exact {
      cfg := h.cfg
      started := h.started
      disabled := apply_enabledAt_of_undoes_no_reset hkeeps h.disabled
      unlit := fun ch => (congrArg (·.getD ch false) (w.apply_chOut x.led)).trans (h.unlit ch)
      owed := fun v hv => h.owed v (List.mem_of_mem_eraseIdx hv) }

/-- A tick enables no channel, and it gives a disabled channel the output 0 (R124). -/
theorem Dark.tick (h : Dark c x) (hwf : c.wf = true) : Dark c (Move.tick.apply x) where
  cfg := h.cfg
  started := h.started
  disabled ch := (congrArg (·.getD ch false) (pwmTick_enabled x.cfg x.led)).trans (h.disabled ch)
  unlit ch := disabledChannelsStayDark x _ ch (h.exec_pwmTick hwf) (h.disabled ch)
  owed := h.owed

theorem Dark.moves (h : Dark c x) (hwf : c.wf = true) (moves : List Move) :
    Dark c (moves.foldl (fun x m => m.apply x) x) := by
  refine List.foldlRecOn moves _ h fun y hy m _ => ?_
  cases m with
  | tick => exact hy.tick hwf
  | write k => exact hy.perform k

theorem Dark.runOps_ticks (h : Dark c x) (hwf : c.wf = true) (n : Nat) :
    ∃ t, runOps (List.replicate n .pwmTick) x = .next t ∧ Dark c t := by
  induction n generalizing x with
  | zero => exact ⟨x, rfl, h⟩
  | succ n ih =>
    rw [List.replicate_succ]
    unfold runOps
    rw [h.exec_pwmTick hwf]
    exact ih (h.tick hwf)

end

/-- Settles O28: RESET leaves the unit dark, also amid a command, and ticks and surviving writes keep it
dark. -/
theorem resetThenTicksStaysInactive : Obligations.ResetThenTicksStaysInactive := by
  intro s hwf
  obtain ⟨r, hr⟩ : ∃ r, exec .resetLed s = .next r := ⟨_, exec_resetLed_next.mpr ⟨hwf, rfl⟩⟩
  have hdark := exec_resetLed_dark hr
  refine ⟨fun n => ?_, r, hr, fun moves _ => (hdark.moves hwf moves).ledOut_inactive⟩
  obtain ⟨t, ht, hticked⟩ := hdark.runOps_ticks hwf n
  refine ⟨t, ?_, fun p => ?_⟩
  · unfold runOps
    rw [hr]
    exact ht
  · rw [hticked.cfg]
    exact hticked.ledOut_inactive

/-! ### The boot order (R214) -/

/-- Settles O30: three steps, one per input; each unit's RESET sets that unit's values under the loaded
configuration, and no command is owed. -/
theorem bootOrderReachesReset : Obligations.BootOrderReachesReset := by
  intro c0 c cmd raw p1 p2 t1 t2 hwf
  refine ⟨_, _, _, step_load rfl rfl rfl hwf,
    (stepRunsDecodedOperation _ _ _ _ _ .resetLed rfl rfl).trans
      (exec_resetLed_next.mpr ⟨hwf, rfl⟩),
    (stepRunsDecodedOperation _ _ _ _ _ .resetPan rfl rfl).trans
      (exec_resetPan_next.mpr ⟨hwf, rfl⟩),
    rfl, rfl, rfl, rfl, rfl, writesAfterReset_idle rfl, rfl⟩

/-! ### The reset values (R211, R212) -/

/-- Settles O27: the record of `exec_resetLed_next`; what it leaves outstanding, and the pins, as in
every dark state. -/
theorem resetLedEffect : Obligations.ResetLedEffect := by
  intro s hwf
  have hr := exec_resetLed_next.mpr ⟨hwf, rfl⟩
  have hdark := exec_resetLed_dark hr
  exact ⟨writesAfterReset s, resetLedDiag s.cfg, _, writesAfterReset_sublist s,
    fun _ hen => undoesReset_enables_eq_false.mp (hdark.owed _ hen),
    fun _ hv => undoesReset_bank_eq_false.mp (hdark.owed _ hv), hr, rfl,
    fun _ => hdark.ledOut_inactive⟩

/-- Settles O29: the record of `exec_resetPan_next`. -/
theorem resetPanelEffect : Obligations.ResetPanelEffect := fun s hwf =>
  ⟨resetPanDiag s.cfg, .noReport, exec_resetPan_next.mpr ⟨hwf, rfl⟩⟩

end Sys2Proof.Machine
